-- ==== Sys2Proof/Word.lean ====
section
/-! DEFINITION. The word types of CORE: bytes of the buffers (R40, R41), the 32-bit bus word (R61), the 64-bit ARG and RES
registers (R33, R34) and the 18-bit window offset (R60). -/

namespace Sys2Proof

/-- One byte of IBUF or OBUF (R40, R41). -/
abbrev Byte := BitVec 8

/-- One bus word, and the width of the 32-bit registers (R21, R61). -/
abbrev Word := BitVec 32

/-- The width of ARG0 to ARG2 and RES0 to RES4 (R33, R34); also one binary64 bit pattern (R9). -/
abbrev DWord := BitVec 64

/-- A byte offset in the window, 0x00000 to 0x3FFFF (R60). -/
abbrev Offset := BitVec 18

end Sys2Proof
end

