-- ==== Sys2Proof/Config.lean ====
section
/-! DEFINITION. What is fixed when the block is built (R6, R303) and the free values of what the spec leaves unspecified
(R15, R36, R41, R302). -/

namespace Sys2Proof

/-- The open parameters of R6 (D5, I7). They are plain data carried by State and changed by no step (R303), so that a
statement about every state speaks of every size. DESIGN CHOICE: log entry 1. -/
structure Params where
  /-- `IBUF_SIZE`, bytes of input buffer. -/
  ibufSize : Nat
  /-- `OBUF_SIZE`, bytes of output buffer. -/
  obufSize : Nat
  deriving DecidableEq, Repr

namespace Config

/-- The default sizes of R6. -/
def defaultParams : Params := { ibufSize := 4096, obufSize := 8192 }

/-- `POLY` of R6: the reflected CRC-32 polynomial. -/
def poly : Word := 0xEDB88320#32

/-- `LADDER` of R6: the divider ladder, ascending. -/
def ladder : List Nat := [1, 2, 4, 8, 16, 32, 64, 128]

/-- `PERIOD_MAX` of R6. -/
def periodMax : Nat := 65535

/-- The largest magnitude of `MAG_WIDTH` = 64 bits (R6, R132, R181, R202). -/
def magMax : Nat := 2 ^ 64 - 1

/-- A read that R36 or R41 leaves unspecified: a free value, applied to the count of host events served so far, so that every
read draws its own ("chosen independently at each read", R15). No body: nothing can be proved of its value. Log entries 3, 4. -/
opaque freeWord : Nat → BitVec 32

/-- The unspecified content of a buffer byte after reset (R302, I3): a free value, applied to the number of the reset and the
byte's window offset, so that it is stable until written and differs from reset to reset. Log entry 2. -/
opaque resetByte : Nat → Nat → BitVec 8

end Config

end Sys2Proof
end

