-- ==== Sys2Proof/Syntax.lean ====
section
/-! DEFINITION. The command set: one constructor per row of spec/opcode_table.json (R92). A command has no operand field:
operands are the fixed registers and the input buffer (R90, R95, R96), so no constructor takes an argument. -/

namespace Sys2Proof

/-- The 20 commands of R92. -/
inductive Instr where
  /-- CRC32.TEXT (R115). -/
  | crc32Text
  /-- CRC32.HEX (R116). -/
  | crc32Hex
  /-- XORFOLD (R134). -/
  | xorFold
  /-- B64.ENC (R152). -/
  | b64Enc
  /-- B64.DEC (R155). -/
  | b64Dec
  /-- BCONV.R2 (R183). -/
  | bconvR2
  /-- BCONV.R8 (R184). -/
  | bconvR8
  /-- BCONV.R10 (R185). -/
  | bconvR10
  /-- BCONV.R16 (R186). -/
  | bconvR16
  /-- STOR.REG (R212). -/
  | storReg
  /-- STOR.BIT (R213). -/
  | storBit
  /-- STOR.BYTE (R214). -/
  | storByte
  /-- STOR.KB (R215). -/
  | storKb
  /-- STOR.MB (R216). -/
  | storMb
  /-- STOR.GB (R217). -/
  | storGb
  /-- CLK.SOLVE (R248). -/
  | clkSolve
  /-- CLK.PURE.S (R251). -/
  | clkPureS
  /-- CLK.PURE.MS (R252). -/
  | clkPureMs
  /-- CLK.PURE.US (R253). -/
  | clkPureUs
  /-- CLK.PURE.NS (R254). -/
  | clkPureNs
  deriving DecidableEq, Repr

end Sys2Proof
end

