-- ==== Sys2Proof/WellFormed.lean ====
section
/-! DEFINITION. Well-formedness. A command has no operand field (R90, R96), so every command is well formed; what can be ill
formed is a choice of the parameters (R6). The checks of a bus transaction (R67 to R69) are part of what the block does, and
stand in Machine/Bus.lean. -/

namespace Sys2Proof

/-- Every command is well formed: the SUB value that selects it is part of its name and it has no other field (R96). -/
def Instr.wellFormed : Instr → Bool
  | .crc32Text | .crc32Hex | .xorFold | .b64Enc | .b64Dec => true
  | .bconvR2 | .bconvR8 | .bconvR10 | .bconvR16 => true
  | .storReg | .storBit | .storByte | .storKb | .storMb | .storGb => true
  | .clkSolve | .clkPureS | .clkPureMs | .clkPureUs | .clkPureNs => true

/-- `IBUF_SIZE` of R6: "a multiple of 4 in 4..65536". -/
def Params.ibufOk (p : Params) : Bool :=
  p.ibufSize % 4 == 0 && decide (4 ≤ p.ibufSize) && decide (p.ibufSize ≤ 65536)

/-- The least `OBUF_SIZE` of R6: `max(4*ceil(IBUF_SIZE/3), 2048)`. -/
def Params.obufLeast (p : Params) : Nat := max (4 * ((p.ibufSize + 2) / 3)) 2048

/-- `OBUF_SIZE` of R6: a multiple of 4, at least `obufLeast`, at most 131072. -/
def Params.obufOk (p : Params) : Bool :=
  p.obufSize % 4 == 0 && decide (p.obufLeast ≤ p.obufSize) && decide (p.obufSize ≤ 131072)

/-- The bounds that R6 puts on the parameters. -/
def Params.wellFormed (p : Params) : Bool := p.ibufOk && p.obufOk

end Sys2Proof
end

