-- ==== Sys2Proof/Decode.lean ====
section
/-! DEFINITION. Decoding and encoding of command words (R90 to R97). Decoding is total on all 2^32 words (R93) and rejects by
name; the encoder is written from the OPC and SUB columns of R92. -/

namespace Sys2Proof

/-- Why a word encodes no command (the three causes of R93). Safe: the block gives such a word a meaning of its own, the
InvalidCommand completion of R94. -/
inductive NoCommand where
  /-- Some bit of RSV (31:12) is set. -/
  | reservedBits
  /-- OPC is 0x00 or 0x08 to 0xFF. -/
  | unknownOpc
  /-- SUB is not listed for its OPC. -/
  | unlistedSub
  deriving DecidableEq, Repr

/-- OPC, bits 7:0 (R90). -/
def opcField (w : Word) : BitVec 8 := w.extractLsb' 0 8

/-- SUB, bits 11:8 (R90). -/
def subField (w : Word) : BitVec 4 := w.extractLsb' 8 4

/-- RSV, bits 31:12 (R90). -/
def rsvField (w : Word) : BitVec 20 := w.extractLsb' 12 20

/-- The command that an OPC and a SUB select (the rows of R92). -/
def commandOf : Nat → Nat → Except NoCommand Instr
  | 0x01, 0 => .ok .crc32Text
  | 0x01, 1 => .ok .crc32Hex
  | 0x01, _ => .error .unlistedSub
  | 0x02, 0 => .ok .xorFold
  | 0x02, _ => .error .unlistedSub
  | 0x03, 0 => .ok .b64Enc
  | 0x03, 1 => .ok .b64Dec
  | 0x03, _ => .error .unlistedSub
  | 0x04, 0 => .ok .bconvR2
  | 0x04, 1 => .ok .bconvR8
  | 0x04, 2 => .ok .bconvR10
  | 0x04, 3 => .ok .bconvR16
  | 0x04, _ => .error .unlistedSub
  | 0x05, 0 => .ok .storReg
  | 0x05, 1 => .ok .storBit
  | 0x05, 2 => .ok .storByte
  | 0x05, 3 => .ok .storKb
  | 0x05, 4 => .ok .storMb
  | 0x05, 5 => .ok .storGb
  | 0x05, _ => .error .unlistedSub
  | 0x06, 0 => .ok .clkSolve
  | 0x06, _ => .error .unlistedSub
  | 0x07, 0 => .ok .clkPureS
  | 0x07, 1 => .ok .clkPureMs
  | 0x07, 2 => .ok .clkPureUs
  | 0x07, 3 => .ok .clkPureNs
  | 0x07, _ => .error .unlistedSub
  | _, _ => .error .unknownOpc

/-- R93: the command that a word names, or why it names none. -/
def decode (w : Word) : Except NoCommand Instr :=
  if rsvField w = 0 then commandOf (opcField w).toNat (subField w).toNat else .error .reservedBits

/-- The OPC of a command (R91, R92). -/
def Instr.opc : Instr → BitVec 8
  | .crc32Text | .crc32Hex => 0x01
  | .xorFold => 0x02
  | .b64Enc | .b64Dec => 0x03
  | .bconvR2 | .bconvR8 | .bconvR10 | .bconvR16 => 0x04
  | .storReg | .storBit | .storByte | .storKb | .storMb | .storGb => 0x05
  | .clkSolve => 0x06
  | .clkPureS | .clkPureMs | .clkPureUs | .clkPureNs => 0x07

/-- The SUB of a command (R92). -/
def Instr.sub : Instr → BitVec 4
  | .crc32Text | .xorFold | .b64Enc | .bconvR2 | .storReg | .clkSolve | .clkPureS => 0
  | .crc32Hex | .b64Dec | .bconvR8 | .storBit | .clkPureMs => 1
  | .bconvR10 | .storByte | .clkPureUs => 2
  | .bconvR16 | .storKb | .clkPureNs => 3
  | .storMb => 4
  | .storGb => 5

/-- The word of a command: RSV = 0, then SUB, then OPC (R90). -/
def encode (i : Instr) : Word := (0 : BitVec 20) ++ i.sub ++ i.opc

/-- For the host: the command that the table's bits `w` of `nbits` bits decode to. A command is exactly one 32-bit word (R97);
bits above `nbits` are 0. -/
def decodeTableWord (nbits w : Nat) : Option Instr :=
  if nbits ≤ 32 then
    match decode (BitVec.ofNat 32 (w % 2 ^ nbits)) with
    | .ok i => some i
    | .error _ => none
  else none

end Sys2Proof
end

