-- ==== Sys2Proof/Machine/State.lean ====
section
/-! DEFINITION. The state of CORE as plain data: all that R20, R21, R43 and R300 give the block, the parameters it was built with
(R6), and the model's own fields, which stand for the host, the bus and the schedule (log entries 5 to 9). -/

namespace Sys2Proof.Machine

/-- The fields of STATUS (R23). The reserved fields are hardwired to zero, so they are no field here; `Status.word` of Flags.lean
is the 32-bit register that a host reads. -/
structure Status where
  /-- Bit 0: a command is in flight. -/
  busy : Bool
  /-- Bit 1: the last command has completed. -/
  done : Bool
  /-- Bit 2: it completed with an error code other than 0. -/
  err : Bool
  /-- Bit 3: the `overflowed` flag of the last CLK.SOLVE. -/
  ovf : Bool
  /-- Bit 4: the underflow warning of the last CLK.SOLVE. -/
  unf : Bool
  /-- Bit 5: a host write was ignored because the block was busy. -/
  ign : Bool
  /-- Bits 15:8: the error code of the last completed command. -/
  errcode : BitVec 8
  deriving DecidableEq, Repr

/-- The error kinds of R271, codes 1 to 12. -/
inductive ErrorKind where
  | emptyInput | invalidHexFormat | invalidToken | invalidDigitForRadix | invalidAlphabet | invalidUtf8 | invalidRange
  | invalidNumericFormat | magnitudeOutOfRange | inputTooLong | invalidArgument | invalidCommand
  deriving DecidableEq, Repr

/-- What `raise E(info)` of R8 ends a command with: the error kind, and what ERR_POS and ERR_LEN report (0 except for the
token errors of XORFOLD, R31, R274). -/
structure Raised where
  kind : ErrorKind
  pos : Nat := 0
  len : Nat := 0
  deriving DecidableEq, Repr

/-- What a successful command publishes (R35, R64): RES0 to RES4 (0 where its rule names none, R34), its output bytes, and
the two warnings of CLK.SOLVE (R27). -/
structure Result where
  res0 : DWord := 0
  res1 : DWord := 0
  res2 : DWord := 0
  res3 : DWord := 0
  res4 : DWord := 0
  out : List Byte := []
  ovf : Bool := false
  unf : Bool := false
  deriving DecidableEq, Repr

/-- What a bus transaction asks for (R61). -/
inductive Access where
  | read
  | write (data : Word)
  deriving DecidableEq, Repr

/-- One bus transaction (R61). `width` is its width in bits: 32 is the only one the block serves (R68). -/
structure Transaction where
  access : Access
  offset : Offset
  width : Nat := 32
  deriving DecidableEq, Repr

/-- The bus's answer to a transaction (R61): OKAY to a write, OKAY with data to a read, or ERROR. -/
inductive Response where
  | okay
  | okayData (data : Word)
  | error
  deriving DecidableEq, Repr

/-- What reaches the block from outside, one event at a time (R75, R300). -/
inductive HostEvent where
  /-- One bus transaction of some master (R61, R282). -/
  | transaction (t : Transaction)
  /-- The host's polling loop (R100): read STATUS until bit 0 of the value read is 0. -/
  | poll
  /-- The outside reset input is asserted (R300). -/
  | assertReset
  /-- The outside reset input is released (R300). -/
  | releaseReset
  deriving DecidableEq, Repr

/-- The contents of IBUF and OBUF: bytes at window offsets (R60), strictly rising. A byte that nothing has written is not
listed; what it reads as is said once, by `State.ibByte` and `State.obByte` of Ops.lean (log entries 2, 4). -/
abbrev Memory := List Host.Cell

/-- No step of CORE ends in a fault: "no error code stops, locks or resets the block" (R270) and a bus error is an answer
that leaves the block available (R273, I8). So the type has no constructor (log entry 18). -/
inductive Fault where
  deriving DecidableEq, Repr

/-- Why a step can have no meaning. -/
inductive Refusal where
  /-- Raised by an arm of `exec` for a command that has no meaning yet: none is left. Safe. -/
  | notModelled (mnemonic : String)
  /-- Raised by `State.serve` for a transaction or poll that arrives while reset is asserted: "the block answers no
  transaction while reset is asserted, and the model has no move for them" (R300, I15). Safe. -/
  | resetAsserted
  deriving DecidableEq, Repr

/-- The state of CORE. -/
structure State where
  /-- The parameters the block was built with (R6). -/
  params : Params
  /-- CMD (R22): the command in flight while busy, else the last one executed. -/
  cmd : Word
  /-- STATUS (R23); `status.busy` is the in-flight flag of R43. -/
  status : Status
  /-- IN_LEN (R30). -/
  inLen : Word
  /-- ERR_POS (R31). -/
  errPos : Word
  /-- ERR_LEN (R31). -/
  errLen : Word
  /-- OUT_LEN (R32). -/
  outLen : Word
  /-- ARG0 (R33). -/
  arg0 : DWord
  /-- ARG1 (R33). -/
  arg1 : DWord
  /-- ARG2 (R33). -/
  arg2 : DWord
  /-- RES0 (R34). -/
  res0 : DWord
  /-- RES1 (R34). -/
  res1 : DWord
  /-- RES2 (R34). -/
  res2 : DWord
  /-- RES3 (R34). -/
  res3 : DWord
  /-- RES4 (R34). -/
  res4 : DWord
  /-- The written bytes of IBUF and OBUF (R40, R41). -/
  mem : Memory
  /-- The reset input is asserted (R300). -/
  inReset : Bool
  /-- MODEL: the host events not yet delivered, in the order of R75. Log entry 5. -/
  pending : List HostEvent
  /-- MODEL: the schedule, for each later acceptance how many host events may come before its completion (R311, I5).
  Log entry 5. -/
  latencies : List Nat
  /-- MODEL: how many host events may still come before the completion of the command in flight. Log entry 5. -/
  wait : Nat
  /-- MODEL: the bus's answer to the last transaction (R61). Log entry 8. -/
  response : Option Response
  /-- MODEL: how many host events were served, the argument of the free values of reads. Log entries 3, 4. -/
  draws : Nat
  /-- MODEL: how many resets there were, the argument of the free buffer contents. Log entry 2. -/
  epoch : Nat
  deriving DecidableEq, Repr

/-- STATUS after reset: every field 0 (R301). -/
def Status.reset : Status :=
  { busy := false, done := false, err := false, ovf := false, unf := false, ign := false, errcode := 0 }

/-- The machine right after reset ends (R301, R302), built with the default parameters (R6); the model's own fields as log
entry 9 says. -/
def State.reset : State :=
  { params := Config.defaultParams
    cmd := 0, status := Status.reset, inLen := 0, errPos := 0, errLen := 0, outLen := 0
    arg0 := 0, arg1 := 0, arg2 := 0
    res0 := 0, res1 := 0, res2 := 0, res3 := 0, res4 := 0
    mem := [], inReset := false
    pending := [], latencies := [], wait := 0, response := none, draws := 0, epoch := 0 }

end Sys2Proof.Machine
end

