-- ==== Sys2Proof/Machine/Flags.lean ====
section
/-! DEFINITION. STATUS: the word a host reads (R23), its value at acceptance (R61) and at completion (R64, R274), and the error
codes (R271). -/

namespace Sys2Proof.Machine

/-- The codes of R271, reported in STATUS.ERRCODE. -/
def ErrorKind.code : ErrorKind → BitVec 8
  | .emptyInput => 1
  | .invalidHexFormat => 2
  | .invalidToken => 3
  | .invalidDigitForRadix => 4
  | .invalidAlphabet => 5
  | .invalidUtf8 => 6
  | .invalidRange => 7
  | .invalidNumericFormat => 8
  | .magnitudeOutOfRange => 9
  | .inputTooLong => 10
  | .invalidArgument => 11
  | .invalidCommand => 12

/-- One flag as a bit. -/
def flagBit (b : Bool) : BitVec 1 := BitVec.ofBool b

/-- The 32-bit STATUS register (R23), highest field first; bits 31:16 and 7:6 are hardwired to zero. -/
def Status.word (t : Status) : Word :=
  (0 : BitVec 16) ++ t.errcode ++ (0 : BitVec 2) ++ flagBit t.ign ++ flagBit t.unf ++ flagBit t.ovf ++ flagBit t.err
    ++ flagBit t.done ++ flagBit t.busy

/-- STATUS after an acceptance: 0x00000001, every field but BUSY cleared (R61). -/
def Status.accepted : Status :=
  { busy := true, done := false, err := false, ovf := false, unf := false, ign := false, errcode := 0 }

/-- STATUS after a completion (R64): IGN is kept, ERR = 1 exactly when the error code is not 0. -/
def Status.completed (ign ovf unf : Bool) (code : BitVec 8) : Status :=
  { busy := false, done := true, err := code != 0, ovf := ovf, unf := unf, ign := ign, errcode := code }

/-- STATUS after a write that was ignored because the block was busy (R71): IGN is set and nothing else changes. -/
def Status.ignored (t : Status) : Status := { t with ign := true }

/-- The legal values of STATUS (R23): BUSY and DONE never both, ERR exactly when DONE and ERRCODE ≠ 0, OVF and UNF never both
and only after a completion without error. -/
def Status.legal (t : Status) : Bool :=
  !(t.busy && t.done) && (t.err == (t.done && t.errcode != 0)) && !(t.ovf && t.unf)
    && (!(t.ovf || t.unf) || (t.done && !t.err))

end Sys2Proof.Machine
end

