-- ==== Sys2Proof/Machine/Ops.lean ====
section
/-! DEFINITION. The named operations over memory and registers: the byte memory, the bytes of IBUF and OBUF, byte order, the
acceptance of a command (R61) and the two completions (R64 with a result, R274 with an error). -/

namespace Sys2Proof.Machine

/-! ### The byte memory -/

/-- The canonical form: addresses strictly rising. (An unlisted address holds no written byte, so no entry can equal what an
unlisted address holds; log entry 2.) -/
abbrev Memory.wf (m : Memory) : Prop := m.Pairwise (fun x y => x.1 < y.1)

/-- The byte written last at an address, if any. -/
def Memory.read? : Memory → Nat → Option Byte
  | [], _ => none
  | (a, b) :: m, x => if x = a then some b else Memory.read? m x

/-- Write one byte, keeping the canonical form. -/
def Memory.write : Memory → Nat → Byte → Memory
  | [], x, v => [(x, v)]
  | (a, b) :: m, x, v =>
    if x < a then (x, v) :: (a, b) :: m
    else if x = a then (x, v) :: m
    else (a, b) :: Memory.write m x v

/-- Write bytes at rising addresses, the first one at `x`. -/
def Memory.writeBytes : Memory → Nat → List Byte → Memory
  | m, _, [] => m
  | m, x, b :: bs => Memory.writeBytes (m.write x b) (x + 1) bs

/-- Make every byte at or above `lo` unspecified: forget what was written there. -/
def Memory.forgetFrom (m : Memory) (lo : Nat) : Memory := m.filter (fun c => decide (c.1 < lo))

/-! ### The buffers -/

/-- The window offset of IBUF byte 0 (R40). -/
def ibufBase : Nat := 0x10000

/-- The window offset of OBUF byte 0 (R41). OBUF is the last thing in the window (R60). -/
def obufBase : Nat := 0x20000

/-- `IB(i)` of R8: IBUF byte `i`; a byte not written since reset is the reset's free value (R302, I3, I4; log entry 2). -/
def State.ibByte (s : State) (i : Nat) : Byte :=
  match s.mem.read? (ibufBase + i) with
  | some b => b
  | none => Config.resetByte s.epoch (ibufBase + i)

/-- Byte lane `k` (0 to 3) of a word, lane 0 in bits 7:0 (R65). -/
def byteLane (w : Word) (k : Nat) : Byte := w.extractLsb' (8 * k) 8

/-- A word from its four bytes, the first in bits 7:0 (R65). -/
def wordOfBytes (b0 b1 b2 b3 : Byte) : Word := b3 ++ b2 ++ b1 ++ b0

/-- The four bytes of a word, in the order of their offsets (R65). -/
def bytesOfWord (w : Word) : List Byte := [byteLane w 0, byteLane w 1, byteLane w 2, byteLane w 3]

/-- OBUF byte `i` as a read while idle finds it. A byte that the last completion did not write is unspecified: after a
completion a fresh free value at each read (R41, I2; log entry 4), before any completion since reset the reset's free
value (R302, I3; log entry 2). -/
def State.obByte (s : State) (i : Nat) : Byte :=
  match s.mem.read? (obufBase + i) with
  | some b => b
  | none => if s.status.done then byteLane (Config.freeWord s.draws) (i % 4) else Config.resetByte s.epoch (obufBase + i)

/-- The IBUF word at byte `i` (R65). -/
def State.ibWord (s : State) (i : Nat) : Word :=
  wordOfBytes (s.ibByte i) (s.ibByte (i + 1)) (s.ibByte (i + 2)) (s.ibByte (i + 3))

/-- The OBUF word at byte `i` (R65). -/
def State.obWord (s : State) (i : Nat) : Word :=
  wordOfBytes (s.obByte i) (s.obByte (i + 1)) (s.obByte (i + 2)) (s.obByte (i + 3))

/-- Bits 31:0 or 63:32 of a 64-bit register (R37, R66). -/
def halfOf (v : DWord) (hi : Bool) : Word := if hi then v.extractLsb' 32 32 else v.extractLsb' 0 32

/-- A 64-bit register with one half replaced (R66: "A write to one half changes only that half"). -/
def withHalf (v : DWord) (hi : Bool) (w : Word) : DWord :=
  if hi then w ++ v.extractLsb' 0 32 else v.extractLsb' 32 32 ++ w

/-! ### Acceptance and completion -/

/-- R61: the acceptance of command word `w`. CMD and STATUS change and nothing else of the block; the schedule gives the number
of host events that may come before the completion (R311; log entry 5). -/
def State.accept (s : State) (w : Word) : State :=
  { s with cmd := w, status := Status.accepted, wait := s.latencies.headD 0, latencies := s.latencies.tail }

/-- R64: the completion of a command with a result. OBUF bytes 0 to OUT_LEN-1 hold the output, every other OBUF byte is
unspecified (R41). -/
def State.publish (s : State) (r : Result) : State :=
  { s with
    res0 := r.res0, res1 := r.res1, res2 := r.res2, res3 := r.res3, res4 := r.res4
    outLen := BitVec.ofNat 32 r.out.length
    errPos := 0, errLen := 0
    mem := (s.mem.forgetFrom obufBase).writeBytes obufBase r.out
    status := Status.completed s.status.ign r.ovf r.unf 0 }

/-- R274: the error completion, this block's only form of exception (R270). No result, no output; ERR_POS and ERR_LEN locate the
token for the errors that have one. Nothing is saved and no handler is entered, so there is no return from it. -/
def State.fail (s : State) (e : Raised) : State :=
  { s with
    res0 := 0, res1 := 0, res2 := 0, res3 := 0, res4 := 0
    outLen := 0
    errPos := BitVec.ofNat 32 e.pos, errLen := BitVec.ofNat 32 e.len
    mem := s.mem.forgetFrom obufBase
    status := Status.completed s.status.ign false false e.kind.code }

/-- The completion step of R64 for a command whose rule gives `c`: its result, or the error it raised first. -/
def State.complete (s : State) (c : Except Raised Result) : State :=
  match c with
  | .ok r => s.publish r
  | .error e => s.fail e

/-- End a command's computation with an error kind that has no token (R8, R274). -/
def raise {α : Type} (k : ErrorKind) : Except Raised α := .error { kind := k }

/-- R94: a word that encodes no command reads no operand and completes with InvalidCommand. -/
def State.completeNoCommand (s : State) : State := s.complete (raise .invalidCommand)

end Sys2Proof.Machine
end

