-- ==== Sys2Proof/Machine/Operands.lean ====
section
/-! DEFINITION. Operand assembly (R62, R95): the input string of the commands that read IBUF, and the ARG operands of the clock
commands. No operand stands in the command word (R95, R96). -/

namespace Sys2Proof.Machine

/-- IBUF bytes 0 to IN_LEN-1 (R62). -/
def State.inBytes (s : State) : List Byte := (List.range s.inLen.toNat).map s.ibByte

/-- The string operand `IN` of R95, or InputTooLong before IBUF is read (R62, R275). -/
def State.input (s : State) : Except Raised (List Byte) :=
  if s.params.ibufSize < s.inLen.toNat then raise .inputTooLong else .ok s.inBytes

/-- `src` of the clock commands: the binary64 with bits ARG0 (R95). -/
def State.src (s : State) : DWord := s.arg0

/-- `tgt` of the clock commands: the binary64 with bits ARG1 (R95). -/
def State.tgt (s : State) : DWord := s.arg1

/-- `duty` of CLK.SOLVE: the binary64 with bits ARG2 (R95). -/
def State.duty (s : State) : DWord := s.arg2

/-- `div` of CLK.PURE.*: ARG2[31:0] as an unsigned integer, ARG2[63:32] ignored (R95). -/
def State.div (s : State) : Nat := (halfOf s.arg2 false).toNat

end Sys2Proof.Machine
end

