-- ==== Sys2Proof/Machine/Bus.lean ====
section
/-! DEFINITION. The bus (20_memory.md), the reset input (70_reset_and_hazards.md) and the order in which the host's events and the
block's completion come (R75, R311; log entry 5). -/

namespace Sys2Proof.Machine

/-- What a mapped word offset addresses (R21, R60). -/
inductive Location where
  | cmd | status | inLen | errPos | errLen | outLen
  /-- A half of ARG0 to ARG2; `hi` for bits 63:32 (R66). -/
  | arg (n : Fin 3) (hi : Bool)
  /-- A half of RES0 to RES4. -/
  | res (n : Fin 5) (hi : Bool)
  /-- The IBUF word that begins at byte `i`. -/
  | ibuf (i : Nat)
  /-- The OBUF word that begins at byte `i`. -/
  | obuf (i : Nat)
  deriving DecidableEq, Repr

/-- The register map of R21. -/
def registerMap : List (Nat × Location) :=
  [(0x000, .cmd), (0x004, .status), (0x008, .inLen), (0x00C, .errPos), (0x010, .errLen), (0x014, .outLen),
   (0x020, .arg 0 false), (0x024, .arg 0 true), (0x028, .arg 1 false), (0x02C, .arg 1 true),
   (0x030, .arg 2 false), (0x034, .arg 2 true)] ++
  [(0x040, .res 0 false), (0x044, .res 0 true), (0x048, .res 1 false), (0x04C, .res 1 true),
   (0x050, .res 2 false), (0x054, .res 2 true), (0x058, .res 3 false), (0x05C, .res 3 true),
   (0x060, .res 4 false), (0x064, .res 4 true)]

/-- The window map of R60: what a word offset addresses, none where it is unmapped (R69). -/
def locate (p : Params) (off : Nat) : Option Location :=
  if off < ibufBase then registerMap.lookup off
  else if off < obufBase then (if off - ibufBase < p.ibufSize then some (.ibuf (off - ibufBase)) else none)
  else if off - obufBase < p.obufSize then some (.obuf (off - obufBase)) else none

/-- ARG0, ARG1 or ARG2. -/
def State.arg (s : State) (n : Fin 3) : DWord := if n = 0 then s.arg0 else if n = 1 then s.arg1 else s.arg2

/-- Write ARG0, ARG1 or ARG2. -/
def State.setArg (s : State) (n : Fin 3) (v : DWord) : State :=
  if n = 0 then { s with arg0 := v } else if n = 1 then { s with arg1 := v } else { s with arg2 := v }

/-- RES0 to RES4. -/
def State.res (s : State) (n : Fin 5) : DWord :=
  if n = 0 then s.res0 else if n = 1 then s.res1 else if n = 2 then s.res2 else if n = 3 then s.res3 else s.res4

/-- What the result registers and OBUF read as while busy: a fresh free value (R36, I1; log entry 3). -/
def State.whenIdle (s : State) (w : Word) : Word := if s.status.busy then Config.freeWord s.draws else w

/-- The word a read of a location returns (R36, R72). -/
def State.readLocation (s : State) : Location → Word
  | .cmd => s.cmd
  | .status => s.status.word
  | .inLen => s.inLen
  | .errPos => s.whenIdle s.errPos
  | .errLen => s.whenIdle s.errLen
  | .outLen => s.whenIdle s.outLen
  | .arg n hi => halfOf (s.arg n) hi
  | .res n hi => s.whenIdle (halfOf (s.res n) hi)
  | .ibuf i => s.ibWord i
  | .obuf i => s.whenIdle (s.obWord i)

/-- The read-only locations, whose writes have no effect (R70). -/
def readOnly : Location → Bool
  | .status | .errPos | .errLen | .outLen | .res _ _ | .obuf _ => true
  | .cmd | .inLen | .arg _ _ | .ibuf _ => false

/-- A busy write (R71): nothing it addresses changes, and IGN is set. -/
def State.ignoreWrite (s : State) : State := { s with status := s.status.ignored }

/-- Write IN_LEN (R30). -/
def State.setInLen (s : State) (w : Word) : State := { s with inLen := w }

/-- Write one IBUF word (R40, R65). -/
def State.writeIbuf (s : State) (i : Nat) (w : Word) : State :=
  { s with mem := s.mem.writeBytes (ibufBase + i) (bytesOfWord w) }

/-- The effect of writing a location (R70, R71; idle: R22, R30, R33, R40, R61). -/
def State.writeLocation (s : State) (l : Location) (w : Word) : State :=
  if readOnly l then s
  else if s.status.busy then s.ignoreWrite
  else
    match l with
    | .cmd => s.accept w
    | .inLen => s.setInLen w
    | .arg n hi => s.setArg n (withHalf (s.arg n) hi w)
    | .ibuf i => s.writeIbuf i w
    | _ => s

/-- The bus's answer. -/
def State.answer (s : State) (r : Response) : State := { s with response := some r }

/-- One transaction (R61): ERROR and no effect where it is not 32 bits wide (R68), misaligned (R67) or unmapped (R69, R273). -/
def State.transact (s : State) (t : Transaction) : State :=
  if t.width ≠ 32 ∨ t.offset.toNat % 4 ≠ 0 then s.answer .error
  else
    match locate s.params t.offset.toNat with
    | none => s.answer .error
    | some l =>
      match t.access with
      | .read => s.answer (.okayData (s.readLocation l))
      | .write w => (s.writeLocation l w).answer .okay

/-- The read of STATUS that polling makes (R100). -/
def statusRead : Transaction := { access := .read, offset := 0x004 }

/-- Reset asserted (R300 to R303): the registers take their reset values, a command in flight is abandoned, the buffers hold new
unspecified bytes; the parameters stay, and so does what the outside world still has to say. -/
def State.assertReset (s : State) : State :=
  { State.reset with
    params := s.params, inReset := true, pending := s.pending, latencies := s.latencies, draws := s.draws
    epoch := s.epoch + 1 }

/-- Reset released (R300): the block answers transactions again. -/
def State.releaseReset (s : State) : State := { s with inReset := false }

/-- The next host event is taken off the queue: one event fewer may come before the completion, and the next read draws anew. -/
def State.consume (s : State) (rest : List HostEvent) : State :=
  { s with pending := rest, wait := s.wait - 1, draws := s.draws + 1 }

/-- Put an event back at the head: the polling loop goes on (R100). -/
def State.again (s : State) (e : HostEvent) : State := { s with pending := e :: s.pending }

/-- Serve the host event `e`, `rest` following it. While reset is asserted the model has no move for a transaction (I15). -/
def State.serve (s : State) (e : HostEvent) (rest : List HostEvent) : Host.Outcome State Fault Refusal :=
  match e with
  | .transaction t => if s.inReset then .refused .resetAsserted else .next ((s.consume rest).transact t)
  | .poll =>
    if s.inReset then .refused .resetAsserted
    else if s.status.busy then .next (((s.consume rest).transact statusRead).again .poll)
    else .next ((s.consume rest).transact statusRead)
  | .assertReset => .next (s.consume rest).assertReset
  | .releaseReset => .next (s.consume rest).releaseReset

/-- The block completes its command now: one is in flight, and the schedule lets no host event come first or there is none
left (R311: completion eventually happens; log entry 5). -/
def State.completesNow (s : State) : Bool := s.status.busy && (s.wait == 0 || s.pending.isEmpty)

/-- The word that the next completion runs: the command in flight, which CMD holds (R43). -/
def State.inFlight (s : State) : Word := s.cmd

/-- A step in which the block completes nothing: the next host event, or nothing at all (R29: which command comes next is
the host's choice). -/
def State.hostStep (s : State) : Host.Outcome State Fault Refusal :=
  match s.pending with
  | [] => .next s
  | e :: rest => s.serve e rest

end Sys2Proof.Machine
end

