-- ==== Sys2Proof/Machine/Text.lean ====
section
/-! DEFINITION. Character classes, digits and integer rendering (R11, R12), shared by the string commands. -/

namespace Sys2Proof.Machine

/-- The ASCII bytes of a fixed text of a rule. -/
def ascii (t : String) : List Byte := t.toList.map (fun c => BitVec.ofNat 8 c.toNat)

/-- `LF` of R12. -/
def lf : Byte := 0x0A

/-- A byte between two bounds, both included. -/
def between (lo hi : Nat) (c : Byte) : Bool := decide (lo ≤ c.toNat) && decide (c.toNat ≤ hi)

/-- `WS` of R11: tab, line feed, vertical tab, form feed, carriage return, space. -/
def isWs (c : Byte) : Bool := between 0x09 0x0D c || c == 0x20

/-- `BIN` of R11. -/
def isBin (c : Byte) : Bool := between 0x30 0x31 c

/-- `OCT` of R11. -/
def isOct (c : Byte) : Bool := between 0x30 0x37 c

/-- `DEC` of R11. -/
def isDec (c : Byte) : Bool := between 0x30 0x39 c

/-- `HEX` of R11. -/
def isHex (c : Byte) : Bool := isDec c || between 0x41 0x46 c || between 0x61 0x66 c

/-- `stripWS` of R11. -/
def stripWs (s : List Byte) : List Byte := s.filter (fun c => !isWs c)

/-- `trimWS` of R11. -/
def trimWs (s : List Byte) : List Byte := ((s.dropWhile isWs).reverse.dropWhile isWs).reverse

/-- `digitval` of R11. -/
def digitVal (c : Byte) : Nat :=
  if isDec c then c.toNat - 0x30
  else if between 0x41 0x46 c then c.toNat - 0x41 + 10
  else c.toNat - 0x61 + 10

/-- The value of a digit string read in radix `r`, first digit most significant (R131, R181). -/
def digitsVal (r : Nat) (s : List Byte) : Nat := s.foldl (fun m c => m * r + digitVal c) 0

/-- The digit byte of a value below 16, "A" to "F" in upper case (R12). -/
def digitByte (d : Nat) : Byte := BitVec.ofNat 8 (if d < 10 then 0x30 + d else 0x41 + (d - 10))

/-- The digits of `n` in radix `r` put before `acc`; `fuel` bounds their number. -/
def renderAux (r : Nat) : Nat → Nat → List Byte → List Byte
  | 0, _, acc => acc
  | fuel + 1, n, acc =>
    if n < r then digitByte n :: acc else renderAux r fuel (n / r) (digitByte (n % r) :: acc)

/-- R12: `n` in radix `r` (2 to 16), no leading zeros, "0" for zero. (A number has at most `log2 n + 1` digits in any radix.) -/
def render (r n : Nat) : List Byte := renderAux r (n.log2 + 1) n []

/-- `dec(n)` of R12. -/
def renderDec (n : Nat) : List Byte := render 10 n

/-- `hexU(n)` of R12. -/
def renderHex (n : Nat) : List Byte := render 16 n

/-- `oct(n)` of R12. -/
def renderOct (n : Nat) : List Byte := render 8 n

/-- `bin(n)` of R12. -/
def renderBin (n : Nat) : List Byte := render 2 n

/-- Left padding with the digit "0" to at least `k` bytes. -/
def padZeros (k : Nat) (s : List Byte) : List Byte := List.replicate (k - s.length) 0x30 ++ s

/-- `hex8(n)` of R12. -/
def renderHex8 (n : Nat) : List Byte := padZeros 8 (renderHex n)

end Sys2Proof.Machine
end

