-- ==== Sys2Proof/Machine/Base64.lean ====
section
/-! DEFINITION. Base64Codec (42_base64.md): alphabet, encoder, structural decoder, UTF-8 validity, and the meanings of B64.ENC
and B64.DEC. -/

namespace Sys2Proof.Machine

/-- `enc6` of R150 for a value below 64. -/
def enc6 (v : Nat) : Byte :=
  BitVec.ofNat 8
    (if v < 26 then 0x41 + v
     else if v < 52 then 0x61 + (v - 26)
     else if v < 62 then 0x30 + (v - 52)
     else if v = 62 then 0x2B
     else 0x2F)

/-- `B64` of R11. -/
def isB64 (c : Byte) : Bool := between 0x41 0x5A c || between 0x61 0x7A c || isDec c || c == 0x2B || c == 0x2F

/-- The pad byte "=" (R150). -/
def pad : Byte := 0x3D

/-- `B64PAD` of R11. -/
def isB64Pad (c : Byte) : Bool := isB64 c || c == pad

/-- `dec6` of R150 for a byte of `B64`. -/
def dec6 (c : Byte) : Nat :=
  if between 0x41 0x5A c then c.toNat - 0x41
  else if between 0x61 0x7A c then c.toNat - 0x61 + 26
  else if isDec c then c.toNat - 0x30 + 52
  else if c == 0x2B then 62
  else 63

/-- The 24-bit group value of R151, first byte most significant. -/
def groupValue (a b c : Byte) : Nat := a.toNat * 65536 + b.toNat * 256 + c.toNat

/-- Sextet `k` of a group value, sextet 0 in bits 23:18 (R151). -/
def sextet (v k : Nat) : Nat := v / 64 ^ (3 - k) % 64

/-- `b64encode` of R151. -/
def b64Encode : List Byte → List Byte
  | [] => []
  | [a] =>
    let v := groupValue a 0 0
    [enc6 (sextet v 0), enc6 (sextet v 1), pad, pad]
  | [a, b] =>
    let v := groupValue a b 0
    [enc6 (sextet v 0), enc6 (sextet v 1), enc6 (sextet v 2), pad]
  | a :: b :: c :: rest =>
    let v := groupValue a b c
    enc6 (sextet v 0) :: enc6 (sextet v 1) :: enc6 (sextet v 2) :: enc6 (sextet v 3) :: b64Encode rest

/-- The padding removal of R153: at most two pad bytes, only where the length is a multiple of 4. -/
def unpad (s : List Byte) : List Byte :=
  if s.length % 4 = 0 then
    if s.drop (s.length - 2) = [pad, pad] then s.take (s.length - 2)
    else if s.drop (s.length - 1) = [pad] then s.take (s.length - 1)
    else s
  else s

/-- The bit loop of R153: `bits` holds the bits read so far, the low `n` of them not yet put out. -/
def b64Bits (bits n : Nat) : List Byte → List Byte
  | [] => []
  | c :: rest =>
    let bits' := bits * 64 + dec6 c
    if 8 ≤ n + 6 then BitVec.ofNat 8 (bits' / 2 ^ (n - 2)) :: b64Bits bits' (n - 2) rest
    else b64Bits bits' (n + 6) rest

/-- `b64decode` of R153; none is its `fail`. -/
def b64Decode (s : List Byte) : Option (List Byte) :=
  if (unpad s).length % 4 = 1 then none
  else if (unpad s).contains pad then none
  else some (b64Bits 0 0 (unpad s))

/-- The bytes that may follow a lead byte, as the ranges of the well-formed table of R154; none where no sequence begins so. -/
def utf8Lead (b : Byte) : Option (List (Nat × Nat)) :=
  if between 0x00 0x7F b then some []
  else if between 0xC2 0xDF b then some [(0x80, 0xBF)]
  else if b == 0xE0 then some [(0xA0, 0xBF), (0x80, 0xBF)]
  else if between 0xE1 0xEC b then some [(0x80, 0xBF), (0x80, 0xBF)]
  else if b == 0xED then some [(0x80, 0x9F), (0x80, 0xBF)]
  else if between 0xEE 0xEF b then some [(0x80, 0xBF), (0x80, 0xBF)]
  else if b == 0xF0 then some [(0x90, 0xBF), (0x80, 0xBF), (0x80, 0xBF)]
  else if between 0xF1 0xF3 b then some [(0x80, 0xBF), (0x80, 0xBF), (0x80, 0xBF)]
  else if b == 0xF4 then some [(0x80, 0x8F), (0x80, 0xBF), (0x80, 0xBF)]
  else none

/-- UTF-8 validity of what follows while the ranges `expected` of a begun sequence are still due (R154). -/
def utf8From (expected : List (Nat × Nat)) : List Byte → Bool
  | [] => expected.isEmpty
  | b :: rest =>
    match expected with
    | (lo, hi) :: more => between lo hi b && utf8From more rest
    | [] =>
      match utf8Lead b with
      | some more => utf8From more rest
      | none => false

/-- R154: the byte string is valid UTF-8. -/
def validUtf8 (s : List Byte) : Bool := utf8From [] s

/-- The pseudocode of R152 after the length check. -/
def b64EncOf (s : List Byte) : Except Raised Result := .ok { out := b64Encode s }

/-- The pseudocode of R155 after the length check. -/
def b64DecOf (s : List Byte) : Except Raised Result :=
  if !s.all isB64Pad then raise .invalidAlphabet
  else
    match b64Decode s with
    | none => raise .invalidAlphabet
    | some r => if validUtf8 r then .ok { out := r } else raise .invalidUtf8

/-- B64.ENC (R152). -/
def execB64Enc (s : State) : Host.Outcome State Fault Refusal := .next (s.complete (s.input.bind b64EncOf))

/-- B64.DEC (R155). -/
def execB64Dec (s : State) : Host.Outcome State Fault Refusal := .next (s.complete (s.input.bind b64DecOf))

end Sys2Proof.Machine
end

