-- ==== Sys2Proof/Machine/BaseConv.lean ====
section
/-! DEFINITION. BaseConverter (43_base_converter.md): parse, range, rendering, and the meanings of BCONV.R2, .R8, .R10, .R16. -/

namespace Sys2Proof.Machine

/-- The four radixes (R180). -/
inductive Radix where
  | r2 | r8 | r10 | r16
  deriving DecidableEq, Repr

/-- The number of a radix. -/
def radixBase : Radix → Nat
  | .r2 => 2
  | .r8 => 8
  | .r10 => 10
  | .r16 => 16

/-- The digit set of a radix (R180). -/
def radixDigit : Radix → Byte → Bool
  | .r2 => isBin
  | .r8 => isOct
  | .r10 => isDec
  | .r16 => isHex

/-- The canonical prefix of a radix (R182). -/
def radixMark : Radix → List Byte
  | .r2 => ascii "0b"
  | .r8 => ascii "0o"
  | .r10 => []
  | .r16 => ascii "0x"

/-- The digits of a magnitude in a radix (R12). -/
def radixDigits (q : Radix) (m : Nat) : List Byte := render (radixBase q) m

/-- Line `Lq` of R182 with its LF. -/
def radixLine (q : Radix) (m : Nat) : List Byte := radixMark q ++ radixDigits q m ++ [lf]

/-- The three lines of R182: every radix but the source's, in ascending order. -/
def radixLines (src : Radix) (m : Nat) : List Byte :=
  (([.r2, .r8, .r10, .r16] : List Radix).filter (fun q => q ≠ src)).flatMap (fun q => radixLine q m)

/-- `convertCommon` of R181 after the length check. -/
def bconvValue (r : Radix) (s : List Byte) : Except Raised Nat :=
  if s = [] then raise .emptyInput
  else if !s.all (radixDigit r) then raise .invalidDigitForRadix
  else if Config.magMax < digitsVal (radixBase r) s then raise .magnitudeOutOfRange
  else .ok (digitsVal (radixBase r) s)

/-- The pseudocode of R183 to R186 after the length check. -/
def bconvOf (r : Radix) (s : List Byte) : Except Raised Result :=
  (bconvValue r s).map (fun m => { res0 := BitVec.ofNat 64 m, out := radixLines r m })

/-- BCONV.R2 (R183). -/
def execBconvR2 (s : State) : Host.Outcome State Fault Refusal := .next (s.complete (s.input.bind (bconvOf .r2)))

/-- BCONV.R8 (R184). -/
def execBconvR8 (s : State) : Host.Outcome State Fault Refusal := .next (s.complete (s.input.bind (bconvOf .r8)))

/-- BCONV.R10 (R185). -/
def execBconvR10 (s : State) : Host.Outcome State Fault Refusal := .next (s.complete (s.input.bind (bconvOf .r10)))

/-- BCONV.R16 (R186). -/
def execBconvR16 (s : State) : Host.Outcome State Fault Refusal := .next (s.complete (s.input.bind (bconvOf .r16)))

end Sys2Proof.Machine
end

