-- ==== Sys2Proof/Machine/Binary64.lean ====
section
/-! DEFINITION. IEEE 754 binary64 with one roundTiesToEven per operation (R9), on 64-bit patterns (R95). Every finite binary64 is
an integer count of 2^-1074, so each operation is exact integer arithmetic followed by one rounding. Log entries 10, 12.
The operations are marked irreducible so that no tactic computes with numbers of this size unasked; unfold them by name. -/

namespace Sys2Proof.Machine.F64

/-! ### Patterns -/

/-- The sign bit, bit 63 (R95). -/
def sign (x : DWord) : Bool := x.msb

/-- Bits 62:0: exponent and fraction. -/
def mag (x : DWord) : Nat := x.toNat % 2 ^ 63

/-- Bits 62:0 of an infinity. -/
def infMag : Nat := 0x7FF0000000000000

/-- Not a number. -/
def isNaN (x : DWord) : Bool := decide (infMag < mag x)

/-- An infinity of either sign. -/
def isInf (x : DWord) : Bool := decide (mag x = infMag)

/-- Neither NaN nor infinite. -/
def isFinite (x : DWord) : Bool := decide (mag x < infMag)

/-- One as a count of 2^-1074. (`F64.one_eq` of Laws/Completion.lean unfolds it.) -/
@[irreducible] def one : Nat := 2 ^ 1074

/-- The absolute value of a finite pattern `m` (bits 62:0) as a count of 2^-1074: exponent field 62:52, fraction 51:0. -/
def magUnits (m : Nat) : Nat :=
  if m / 2 ^ 52 = 0 then m else (2 ^ 52 + m % 2 ^ 52) * 2 ^ (m / 2 ^ 52 - 1)

/-- The absolute value of a finite binary64 as a count of 2^-1074. -/
def units (x : DWord) : Nat := magUnits (mag x)

/-- The signed value of a finite binary64 as a count of 2^-1074. -/
def value (x : DWord) : Int := if sign x then -(units x : Int) else units x

/-- A pattern from its sign and its bits 62:0. -/
def make (s : Bool) (m : Nat) : DWord := BitVec.ofNat 64 (if s then 2 ^ 63 + m else m)

/-- The canonical NaN (R9, D35). -/
def nan : DWord := 0x7FF8000000000000#64

/-- The infinity of a sign. -/
def inf (s : Bool) : DWord := make s infMag

/-! ### Rounding -/

/-- The integer nearest to `n / d`, ties to even. -/
def roundEven (n d : Nat) : Nat :=
  if 2 * (n % d) < d then n / d
  else if d < 2 * (n % d) then n / d + 1
  else if n / d % 2 = 0 then n / d
  else n / d + 1

/-- The number of low bits that a value of `t` whole units of 2^-1074 has below the last place of its binary64. -/
def dropBits (t : Nat) : Nat := if t < 2 ^ 53 then 0 else t.log2 - 52

/-- Bits 62:0 of the binary64 nearest to `n / d` units of 2^-1074, ties to even, infinity from 2^1024 - 2^970 on (R9). A
significand `m` of weight `2^k` units has the pattern `k * 2^52 + m`, carries included. -/
@[irreducible] def roundMag (n d : Nat) : Nat :=
  min (dropBits (n / d) * 2 ^ 52 + roundEven n (d * 2 ^ dropBits (n / d))) infMag

/-- `toF64(n / d)` of R9 for a non-negative rational. -/
@[irreducible] def ofRat (n d : Nat) : DWord := make false (roundMag (n * one) d)

/-- `toF64(n)` of R9 for a non-negative integer. -/
@[irreducible] def ofNat (n : Nat) : DWord := ofRat n 1

/-- `toF64(r)` of R9 for a rational of either sign: R9 gives +infinity wherever `|r|` is at least 2^1024 - 2^970, for a negative
`r` too. A negative `r` nearest to zero keeps its sign, which R9 does not state. PRESUMED: log entry 21. -/
@[irreducible] def toF64 (r : Rat) : DWord :=
  let m := roundMag (r.num.natAbs * one) r.den
  make (decide (r.num < 0 ∧ m ≠ infMag)) m

/-! ### Operations -/

/-- `fl(a / b)` (R9). -/
@[irreducible] def div (a b : DWord) : DWord :=
  let s := sign a ^^ sign b
  if isNaN a || isNaN b then nan
  else if isInf a then (if isInf b then nan else inf s)
  else if isInf b then make s 0
  else if units b = 0 then (if units a = 0 then nan else inf s)
  else make s (roundMag (units a * one) (units b))

/-- `fl(a * b)` (R9). -/
@[irreducible] def mul (a b : DWord) : DWord :=
  let s := sign a ^^ sign b
  if isNaN a || isNaN b then nan
  else if isInf a then (if !isInf b && units b == 0 then nan else inf s)
  else if isInf b then (if units a = 0 then nan else inf s)
  else make s (roundMag (units a * units b) one)

/-- `fl(a + b)` (R9). An exact zero is +0 unless both operands are negative zeros (IEEE 754, roundTiesToEven). -/
@[irreducible] def add (a b : DWord) : DWord :=
  if isNaN a || isNaN b then nan
  else if isInf a then (if isInf b && sign a != sign b then nan else a)
  else if isInf b then b
  else
    let z := value a + value b
    if z = 0 then make (sign a && sign b) 0
    else make (decide (z < 0)) (roundMag z.natAbs 1)

/-- The opposite of a binary64. -/
def neg (x : DWord) : DWord := x ^^^ (0x8000000000000000#64)

/-- `fl(a - b)` (R9). -/
@[irreducible] def sub (a b : DWord) : DWord := add a (neg b)

/-- The place of a binary64 that is no NaN in their order: patterns rise with values, and the two zeros are equal. -/
def key (x : DWord) : Int := if sign x then -(mag x : Int) else mag x

/-- `a ≤ b` on values; false where either is a NaN. -/
def le (a b : DWord) : Bool := !isNaN a && !isNaN b && decide (key a ≤ key b)

/-! ### Integers and text -/

/-- An integer or +infinity: what `roundHalfUp` gives (R10). -/
inductive Rounded where
  | int (n : Nat)
  | infinite
  deriving DecidableEq, Repr

/-- `roundHalfUp` of R10 on the exact value. R10 defines it for values at least 0 and +infinity, which are all it is given
(log entry 12). -/
@[irreducible] def roundHalfUp (q : DWord) : Rounded :=
  if isFinite q then .int ((2 * units q + one) / (2 * one)) else .infinite

/-- The integers among the finite values. -/
def isInteger (x : DWord) : Bool := decide (units x % one = 0)

/-- The integer nearest to `x * 10^k` on the exact value, ties to the larger one (R13). -/
def fixedScaled (x : DWord) (k : Nat) : Nat := (2 * (units x * 10 ^ k) + one) / (2 * one)

/-- `fixed(x, k)` of R13. -/
@[irreducible] def fixed (x : DWord) (k : Nat) : List Byte :=
  if k = 0 then renderDec (fixedScaled x 0)
  else renderDec (fixedScaled x k / 10 ^ k) ++ ascii "." ++ padZeros k (renderDec (fixedScaled x k % 10 ^ k))

end Sys2Proof.Machine.F64
end

