-- ==== Sys2Proof/Machine/Clock.lean ====
section
/-! DEFINITION. ClockTimerSolver (45_clock_timer.md): operand domain, divider-ladder search, pure frequency/period mode, and the
meanings of CLK.SOLVE and CLK.PURE.S, .MS, .US, .NS. -/

namespace Sys2Proof.Machine

/-- A valid frequency: "a finite binary64 greater than zero" (R240). -/
def validFreq (x : DWord) : Bool := F64.isFinite x && !F64.sign x && decide (F64.units x ≠ 0)

/-- A valid duty: no NaN and `0 <= duty <= 100`, -0 counting as 0 (R240). -/
def validDuty (x : DWord) : Bool := F64.le (F64.ofNat 0) x && F64.le x (F64.ofNat 100)

/-- `tf(d)` of R241. -/
def timerFreq (src : DWord) (d : Nat) : DWord := F64.div src (F64.ofNat d)

/-- `q(d)` of R241. -/
def ratio (src tgt : DWord) (d : Nat) : DWord := F64.div (timerFreq src d) tgt

/-- `p(d)` of R241: an exact integer, or none for +infinity. -/
def period (src tgt : DWord) (d : Nat) : Option Int :=
  match F64.roundHalfUp (ratio src tgt d) with
  | .int n => some ((n : Int) - 1)
  | .infinite => none

/-- `p(d)` where it fits: `0 <= p(d) <= 65535` (R241). -/
def fittingPeriod (src tgt : DWord) (d : Nat) : Option Nat :=
  match period src tgt d with
  | some p => if 0 ≤ p ∧ p ≤ (Config.periodMax : Int) then some p.toNat else none
  | none => none

/-- The first-fit ascending search of R242 over dividers. -/
def searchLadder (src tgt : DWord) : List Nat → Option (Nat × Nat)
  | [] => none
  | d :: ds =>
    match fittingPeriod src tgt d with
    | some p => some (d, p)
    | none => searchLadder src tgt ds

/-- What the search settles on (R242 to R244): divider, period, OVF, UNF. -/
structure Choice where
  divider : Nat
  period : Nat
  ovf : Bool
  unf : Bool
  deriving DecidableEq, Repr

/-- `p(1) < 0` of R244. -/
def tooHigh (src tgt : DWord) : Bool :=
  match period src tgt 1 with
  | some p => decide (p < 0)
  | none => false

/-- The chosen pair and warnings: the search (R242), or underflow (R244), or overflow (R243). -/
def solveChoice (src tgt : DWord) : Choice :=
  match searchLadder src tgt Config.ladder with
  | some (d, p) => { divider := d, period := p, ovf := false, unf := false }
  | none =>
    if tooHigh src tgt then { divider := 1, period := 0, ovf := false, unf := true }
    else { divider := 128, period := Config.periodMax, ovf := true, unf := false }

/-- `ach` of R245. -/
def achieved (src : DWord) (d p : Nat) : DWord := F64.div (timerFreq src d) (F64.ofNat (p + 1))

/-- `fl(fl(p* * duty) / 100)` of R246. -/
def dutyRatio (p : Nat) (duty : DWord) : DWord := F64.div (F64.mul (F64.ofNat p) duty) (F64.ofNat 100)

/-- `dr` of R246. (An infinite value cannot arise from a valid duty.) -/
def dutyRegister (p : Nat) (duty : DWord) : Nat :=
  match F64.roundHalfUp (dutyRatio p duty) with
  | .int n => n
  | .infinite => 0

/-- R247: what CLK.SOLVE delivers for a choice. -/
def solveDeliver (src duty : DWord) (c : Choice) : Result :=
  { res0 := BitVec.ofNat 64 c.divider
    res1 := BitVec.ofNat 64 c.period
    res2 := BitVec.ofNat 64 (dutyRegister c.period duty)
    res3 := achieved src c.divider c.period
    ovf := c.ovf, unf := c.unf }

/-- The pseudocode of R248. -/
def clkSolveOf (src tgt duty : DWord) : Except Raised Result :=
  if validFreq src && validFreq tgt && validDuty duty then .ok (solveDeliver src duty (solveChoice src tgt))
  else raise .invalidArgument

/-- `n` of R250 as a binary64: `roundHalfUp(q)`, exact, or +infinity. -/
def roundedRatio (src tgt : DWord) (d : Nat) : DWord :=
  match F64.roundHalfUp (ratio src tgt d) with
  | .int n => F64.ofNat n
  | .infinite => F64.inf false

/-- `p` of R250: the period, not clamped. -/
def purePeriod (src tgt : DWord) (d : Nat) : DWord := F64.sub (roundedRatio src tgt d) (F64.ofNat 1)

/-- `ach` of R250. -/
def pureAchieved (src tgt : DWord) (d : Nat) : DWord :=
  F64.div (timerFreq src d) (F64.add (purePeriod src tgt d) (F64.ofNat 1))

/-- `tu` of R250: the time period in units of `u` seconds. -/
def pureTime (u src tgt : DWord) (d : Nat) : DWord := F64.div (F64.div (F64.ofNat 1) (pureAchieved src tgt d)) u

/-- `pureCommon` of R250. -/
def clkPureOf (u src tgt : DWord) (d : Nat) : Except Raised Result :=
  if validFreq src && validFreq tgt && decide (d ≠ 0) then
    .ok { res0 := BitVec.ofNat 64 d, res1 := purePeriod src tgt d, res3 := pureAchieved src tgt d
          res4 := pureTime u src tgt d }
  else raise .invalidArgument

/-- `U` of R250 for seconds: 1.0. -/
def unitS : DWord := F64.ofNat 1

/-- `U` of R250 for milliseconds: `toF64(0.001)`. -/
def unitMs : DWord := F64.ofRat 1 1000

/-- `U` of R250 for microseconds: `toF64(0.000001)`. -/
def unitUs : DWord := F64.ofRat 1 1000000

/-- `U` of R250 for nanoseconds: `toF64(0.000000001)`. -/
def unitNs : DWord := F64.ofRat 1 1000000000

/-- CLK.SOLVE (R248). -/
def execClkSolve (s : State) : Host.Outcome State Fault Refusal := .next (s.complete (clkSolveOf s.src s.tgt s.duty))

/-- CLK.PURE.S (R251). -/
def execClkPureS (s : State) : Host.Outcome State Fault Refusal := .next (s.complete (clkPureOf unitS s.src s.tgt s.div))

/-- CLK.PURE.MS (R252). -/
def execClkPureMs (s : State) : Host.Outcome State Fault Refusal := .next (s.complete (clkPureOf unitMs s.src s.tgt s.div))

/-- CLK.PURE.US (R253). -/
def execClkPureUs (s : State) : Host.Outcome State Fault Refusal := .next (s.complete (clkPureOf unitUs s.src s.tgt s.div))

/-- CLK.PURE.NS (R254). -/
def execClkPureNs (s : State) : Host.Outcome State Fault Refusal := .next (s.complete (clkPureOf unitNs s.src s.tgt s.div))

end Sys2Proof.Machine
end

