-- ==== Sys2Proof/Machine/Crc32.lean ====
section
/-! DEFINITION. CRC32Engine (40_crc32.md): the table, the checksum, and the meanings of CRC32.TEXT and CRC32.HEX. -/

namespace Sys2Proof.Machine

/-- One iteration of R110. -/
def crcShift (c : Word) : Word := if c &&& 1 = 1 then Config.poly ^^^ (c >>> 1) else c >>> 1

/-- `n` iterations of R110. -/
def crcShifts : Nat → Word → Word
  | 0, c => c
  | n + 1, c => crcShifts n (crcShift c)

/-- `TABLE[i]`, a constant of the block (R42, R110, R111): `crcTableEntry(i)`. -/
def crcTable (i : Byte) : Word := crcShifts 8 (i.setWidth 32)

/-- One byte of R112. -/
def crcByte (c : Word) (b : Byte) : Word := (c >>> 8) ^^^ crcTable ((c ^^^ b.setWidth 32).setWidth 8)

/-- `crcBytes` of R112. -/
def crcBytes (s : List Byte) : Word := ~~~(s.foldl crcByte 0xFFFFFFFF#32)

/-- R113: what both CRC commands deliver. -/
def crcDeliver (crc : Word) : Result := { res0 := crc.setWidth 64, out := renderHex8 crc.toNat ++ [lf] }

/-- `hexDecode` of R114, for a string of even length: the first digit of each pair is the high nibble. -/
def hexDecode : List Byte → List Byte
  | h :: l :: rest => BitVec.ofNat 8 (16 * digitVal h + digitVal l) :: hexDecode rest
  | _ => []

/-- The pseudocode of R115 after the length check: only the emptiness test trims. -/
def crc32TextOf (s : List Byte) : Except Raised Result :=
  if trimWs s = [] then raise .emptyInput else .ok (crcDeliver (crcBytes s))

/-- The pseudocode of R116 after the length check (the order of the tests: R118). -/
def crc32HexOf (s : List Byte) : Except Raised Result :=
  if stripWs s = [] then raise .emptyInput
  else if !(stripWs s).all isHex then raise .invalidHexFormat
  else if (stripWs s).length % 2 = 1 then raise .invalidHexFormat
  else .ok (crcDeliver (crcBytes (hexDecode (stripWs s))))

/-- CRC32.TEXT (R115). -/
def execCrc32Text (s : State) : Host.Outcome State Fault Refusal := .next (s.complete (s.input.bind crc32TextOf))

/-- CRC32.HEX (R116). -/
def execCrc32Hex (s : State) : Host.Outcome State Fault Refusal := .next (s.complete (s.input.bind crc32HexOf))

end Sys2Proof.Machine
end

