-- ==== Sys2Proof/Machine/Storage.lean ====
section
/-! DEFINITION. StorageUnitConverter (44_storage_units.md): input shapes, unit conversion, normalisation, rendering, and the
meanings of the six STOR commands. -/

namespace Sys2Proof.Machine

/-- The units of R204 and the register mode of R201. -/
inductive StorUnit where
  | register | bit | byte | kb | mb | gb
  deriving DecidableEq, Repr

/-- Read "0x" H+ at the head: the hex digits (as many as there are) and what follows (R201). -/
def takeHexNumber (s : List Byte) : Option (List Byte × List Byte) :=
  if s.take 2 = ascii "0x" ∧ (s.drop 2).takeWhile isHex ≠ [] then
    some ((s.drop 2).takeWhile isHex, (s.drop 2).dropWhile isHex)
  else none

/-- Read W* "-" W* at the head: what follows (R201). -/
def takeDash (s : List Byte) : Option (List Byte) :=
  match s.dropWhile isWs with
  | [] => none
  | c :: rest => if c = 0x2D then some (rest.dropWhile isWs) else none

/-- The shape RANGE of R201: its two digit strings. -/
def rangeShape (s : List Byte) : Option (List Byte × List Byte) := do
  let (hs, rest) ← takeHexNumber s
  let rest ← takeDash rest
  let (he, rest) ← takeHexNumber rest
  if rest = [] then some (hs, he) else none

/-- The shape HEXNUM of R201: its digit string. -/
def hexShape (s : List Byte) : Option (List Byte) := do
  let (h, rest) ← takeHexNumber s
  if rest = [] then some h else none

/-- The shape D+ (DECNUM of R201). -/
def decShape (s : List Byte) : Bool := decide (s ≠ []) && s.all isDec

/-- A count of bytes within `MAG_WIDTH`, as a binary64 (R202). -/
def countToF64 (n : Nat) : Except Raised DWord :=
  if Config.magMax < n then raise .magnitudeOutOfRange else .ok (F64.ofNat n)

/-- The size of the inclusive range `a` to `e` (R202). -/
def rangeCount (a e : Nat) : Except Raised Nat :=
  if Config.magMax < a ∨ Config.magMax < e then raise .magnitudeOutOfRange
  else if e < a then raise .invalidRange
  else .ok (e - a + 1)

/-- `regBytes` of R202; the shapes are tried in the order of R201. -/
def regBytes (s : List Byte) : Except Raised DWord :=
  match rangeShape s with
  | some (hs, he) => (rangeCount (digitsVal 16 hs) (digitsVal 16 he)).bind countToF64
  | none =>
    match hexShape s with
    | some h => countToF64 (digitsVal 16 h)
    | none => if decShape s then countToF64 (digitsVal 10 s) else raise .invalidNumericFormat

/-- The shape of R203: the digits before the point and the digits after it, none (`[]`) where there is no point. -/
def plainShape (s : List Byte) : Option (List Byte × List Byte) :=
  if s.takeWhile isDec = [] then none
  else
    match s.dropWhile isDec with
    | [] => some (s, [])
    | c :: frac => if c = 0x2E ∧ decShape frac then some (s.takeWhile isDec, frac) else none

/-- `plainValue` of R203: the binary64 nearest to the exact decimal value. -/
def plainValue (s : List Byte) : Except Raised DWord :=
  match plainShape s with
  | none => raise .invalidNumericFormat
  | some (whole, frac) =>
    let v := F64.ofRat (digitsVal 10 (whole ++ frac)) (10 ^ frac.length)
    if F64.isInf v then raise .magnitudeOutOfRange else .ok v

/-- `ceil(v / 8)` of R204, on the exact value. -/
def ceilEighth (v : DWord) : Nat := (F64.units v + (8 * F64.one - 1)) / (8 * F64.one)

/-- The `bytes` column of R204. -/
def unitBytes (u : StorUnit) (v : DWord) : DWord :=
  match u with
  | .register => v
  | .bit => F64.ofNat (ceilEighth v)
  | .byte => v
  | .kb => F64.mul v (F64.ofNat 1024)
  | .mb => F64.mul v (F64.ofNat 1048576)
  | .gb => F64.mul v (F64.ofNat 1073741824)

/-- The number of bytes an input denotes under a unit (R202 to R204): an infinite one is MagnitudeOutOfRange. -/
def storBytes (u : StorUnit) (s : List Byte) : Except Raised DWord :=
  match u with
  | .register => regBytes s
  | _ =>
    (plainValue s).bind fun v =>
      if F64.isInf (unitBytes u v) then raise .magnitudeOutOfRange else .ok (unitBytes u v)

/-- `bits` of R205. -/
def storBits (bytes : DWord) : DWord := F64.mul bytes (F64.ofNat 8)

/-- `KB` of R205. -/
def storKB (bytes : DWord) : DWord := F64.div bytes (F64.ofNat 1024)

/-- `MB` of R205. -/
def storMB (bytes : DWord) : DWord := F64.div bytes (F64.ofNat 1048576)

/-- `GB` of R205. -/
def storGB (bytes : DWord) : DWord := F64.div bytes (F64.ofNat 1073741824)

/-- `T` of R206: `toF64(0.001)`. -/
def storThreshold : DWord := F64.ofRat 1 1000

/-- The text of bits and bytes (R208). -/
def countText (x : DWord) : List Byte := F64.fixed x (if F64.isInteger x then 0 else 3)

/-- The text of KB, MB and GB (R207); the number of places is chosen on the unrounded value. -/
def unitText (x : DWord) : List Byte :=
  F64.fixed x (if F64.le (F64.ofNat 100) x then 0 else if F64.le (F64.ofNat 10) x then 1 else 3)

/-- The line of KB, MB or GB, where it is present (R206, R210). -/
def unitLine (name : List Byte) (x : DWord) : List Byte :=
  if F64.le storThreshold x then name ++ ascii "=" ++ unitText x ++ [lf] else []

/-- The output text of R210. -/
def storLines (bytes : DWord) : List Byte :=
  ascii "bits=" ++ countText (storBits bytes) ++ [lf] ++ ascii "bytes=" ++ countText bytes ++ [lf]
    ++ unitLine (ascii "KB") (storKB bytes) ++ unitLine (ascii "MB") (storMB bytes) ++ unitLine (ascii "GB") (storGB bytes)

/-- What a STOR command delivers for a number of bytes (R205, R209, R210). -/
def storDeliver (bytes : DWord) : Except Raised Result :=
  if F64.isInf (storBits bytes) then raise .magnitudeOutOfRange
  else
    .ok { res0 := storBits bytes, res1 := bytes, res2 := storKB bytes, res3 := storMB bytes, res4 := storGB bytes
          out := storLines bytes }

/-- `storCommon` of R211 after the length check. -/
def storOf (u : StorUnit) (s : List Byte) : Except Raised Result := (storBytes u (trimWs s)).bind storDeliver

/-- STOR.REG (R212). -/
def execStorReg (s : State) : Host.Outcome State Fault Refusal := .next (s.complete (s.input.bind (storOf .register)))

/-- STOR.BIT (R213). -/
def execStorBit (s : State) : Host.Outcome State Fault Refusal := .next (s.complete (s.input.bind (storOf .bit)))

/-- STOR.BYTE (R214). -/
def execStorByte (s : State) : Host.Outcome State Fault Refusal := .next (s.complete (s.input.bind (storOf .byte)))

/-- STOR.KB (R215). -/
def execStorKb (s : State) : Host.Outcome State Fault Refusal := .next (s.complete (s.input.bind (storOf .kb)))

/-- STOR.MB (R216). -/
def execStorMb (s : State) : Host.Outcome State Fault Refusal := .next (s.complete (s.input.bind (storOf .mb)))

/-- STOR.GB (R217). -/
def execStorGb (s : State) : Host.Outcome State Fault Refusal := .next (s.complete (s.input.bind (storOf .gb)))

end Sys2Proof.Machine
end

