-- ==== Sys2Proof/Machine/XorFold.lean ====
section
/-! DEFINITION. XorChecksum (41_xor_checksum.md): tokenizer, token values, fold, and the meaning of XORFOLD. -/

namespace Sys2Proof.Machine

/-- A token of R130: its start offset in IBUF and its bytes. -/
structure Token where
  pos : Nat
  text : List Byte
  deriving DecidableEq, Repr

/-- How many bytes the separator at the head of the input has (R130): 1 for a byte of `WS` or a comma, 3 for the full-width comma
EF BC 8C, 0 where no separator begins. -/
def separatorLength : List Byte → Nat
  | [] => 0
  | b :: rest =>
    if isWs b || b == 0x2C then 1
    else if b == 0xEF && rest.take 2 == [0xBC, 0x8C] then 3
    else 0

/-- The token that ends before offset `pos`, if it has a byte; `cur` holds its bytes, last first. -/
def closeToken (pos : Nat) (cur : List Byte) : List Token :=
  if cur = [] then [] else [{ pos := pos - cur.length, text := cur.reverse }]

/-- The scan of R130 from offset `pos`: `skip` bytes of a separator are still to be passed over, `cur` is the token begun. -/
def tokensFrom (pos skip : Nat) (cur : List Byte) : List Byte → List Token
  | [] => closeToken pos cur
  | b :: rest =>
    match skip with
    | k + 1 => tokensFrom (pos + 1) k cur rest
    | 0 =>
      match separatorLength (b :: rest) with
      | 0 => tokensFrom (pos + 1) 0 (b :: cur) rest
      | k + 1 => closeToken pos cur ++ tokensFrom (pos + 1) k [] rest

/-- `tokens(IN)` of R130, in input order. -/
def tokens (s : List Byte) : List Token := tokensFrom 0 0 [] s

/-- The value of a non-empty string of digits of a class; none otherwise. -/
def classValue (isDigit : Byte → Bool) (r : Nat) (s : List Byte) : Option Nat :=
  if s ≠ [] ∧ s.all isDigit then some (digitsVal r s) else none

/-- R131: the value of a token, none where it matches no class. -/
def tokenValue (t : List Byte) : Option Nat :=
  if t.take 2 = ascii "0x" then classValue isHex 16 (t.drop 2)
  else if t.take 2 = ascii "0b" then classValue isBin 2 (t.drop 2)
  else classValue isDec 10 t

/-- An error that reports a token's place and length (R31, R134). -/
def raiseAt {α : Type} (k : ErrorKind) (t : Token) : Except Raised α :=
  .error { kind := k, pos := t.pos, len := t.text.length }

/-- The loop of R134 over the tokens, with the 64-bit accumulator of R132. -/
def foldTokens (acc : DWord) : List Token → Except Raised DWord
  | [] => .ok acc
  | t :: rest =>
    match tokenValue t.text with
    | none => raiseAt .invalidToken t
    | some v =>
      if Config.magMax < v then raiseAt .magnitudeOutOfRange t
      else foldTokens (acc ^^^ BitVec.ofNat 64 v) rest

/-- R133: the three lines of an accumulator. -/
def xorLines (n : Nat) : List Byte :=
  renderDec n ++ [lf] ++ ascii "0x" ++ renderHex n ++ [lf] ++ ascii "0b" ++ renderBin n ++ [lf]

/-- R133: what XORFOLD delivers. -/
def xorDeliver (acc : DWord) : Result := { res0 := acc, out := xorLines acc.toNat }

/-- The pseudocode of R134 after the length check. -/
def xorFoldOf (s : List Byte) : Except Raised Result :=
  if tokens s = [] then raise .emptyInput else (foldTokens 0 (tokens s)).map xorDeliver

/-- XORFOLD (R134). -/
def execXorFold (s : State) : Host.Outcome State Fault Refusal := .next (s.complete (s.input.bind xorFoldOf))

end Sys2Proof.Machine
end

