-- ==== Sys2Proof/Machine/Dispatch.lean ====
section
/-! DEFINITION. The completion step of each command (R64): one arm per constructor of Instr. -/

namespace Sys2Proof.Machine

/-- The completion of command `i` in state `s`. -/
def exec (i : Instr) (s : State) : Host.Outcome State Fault Refusal :=
  match i with
  | .crc32Text => Sys2Proof.Machine.execCrc32Text s
  | .crc32Hex => Sys2Proof.Machine.execCrc32Hex s
  | .xorFold => Sys2Proof.Machine.execXorFold s
  | .b64Enc => Sys2Proof.Machine.execB64Enc s
  | .b64Dec => Sys2Proof.Machine.execB64Dec s
  | .bconvR2 => Sys2Proof.Machine.execBconvR2 s
  | .bconvR8 => Sys2Proof.Machine.execBconvR8 s
  | .bconvR10 => Sys2Proof.Machine.execBconvR10 s
  | .bconvR16 => Sys2Proof.Machine.execBconvR16 s
  | .storReg => Sys2Proof.Machine.execStorReg s
  | .storBit => Sys2Proof.Machine.execStorBit s
  | .storByte => Sys2Proof.Machine.execStorByte s
  | .storKb => Sys2Proof.Machine.execStorKb s
  | .storMb => Sys2Proof.Machine.execStorMb s
  | .storGb => Sys2Proof.Machine.execStorGb s
  | .clkSolve => Sys2Proof.Machine.execClkSolve s
  | .clkPureS => Sys2Proof.Machine.execClkPureS s
  | .clkPureMs => Sys2Proof.Machine.execClkPureMs s
  | .clkPureUs => Sys2Proof.Machine.execClkPureUs s
  | .clkPureNs => Sys2Proof.Machine.execClkPureNs s

end Sys2Proof.Machine
end

