-- ==== Sys2Proof/Machine/Step.lean ====
section
/-! DEFINITION. One step of the machine: the block's completion of the command in flight, or the next host event (R64, R75). -/

namespace Sys2Proof.Machine

/-- The completion of the command in flight (R43, R64): the command its word names, or InvalidCommand where it names none
(R93, R94). -/
def State.runInFlight (s : State) : Host.Outcome State Fault Refusal :=
  match decode s.inFlight with
  | .ok i => exec i s
  | .error _ => .next s.completeNoCommand

/-- One step: "a total order of host transactions interleaved with at most one completion step per accepted command" (R75). -/
def step (s : State) : Host.Outcome State Fault Refusal := if s.completesNow then s.runInFlight else s.hostStep

/-- For the host: `s` with the command word `w` accepted (R61) and due, so that the next step completes it. The block fetches
nothing (R78): the command in flight is what it runs next. Log entry 6. -/
def State.withFetchWord (s : State) (nbits w : Nat) : State :=
  { s with cmd := BitVec.ofNat 32 (w % 2 ^ nbits), status := Status.accepted, wait := 0, inReset := false }

end Sys2Proof.Machine
end

