-- ==== Sys2Proof/Machine/HostAsm.lean ====
section
/-! DEFINITION. The host's assembly (R99 to R101): statements and pseudo-instructions, expanded into the events the bus delivers.
None of them is a command of the block (R100). Log entry 15. -/

namespace Sys2Proof.Machine

/-- The statements of R99 and the pseudo-instructions of R100. `ldarg` has its two forms: 64 bits, and `ldargF64` for
`ldarg ARGn, f64(r)`. A numeral `r` is taken to name a rational (log entry 21). -/
inductive HostStatement where
  | sw (off : Offset) (val : Word)
  | lw (off : Offset)
  | poll
  | cmd (i : Instr)
  | run (i : Instr)
  | ldarg (n : Fin 3) (v : DWord)
  | ldargF64 (n : Fin 3) (r : Rat)
  | ldbuf (text : List Byte)
  | ldres (n : Fin 5)
  deriving DecidableEq, Repr

/-- The bus write of `sw` (R99). -/
def storeEvent (off : Offset) (val : Word) : HostEvent := .transaction { access := .write val, offset := off }

/-- The bus read of `lw` (R99). -/
def loadEvent (off : Offset) : HostEvent := .transaction { access := .read, offset := off }

/-- The offset of a half of ARG `n` (R21). -/
def argOffset (n : Fin 3) (hi : Bool) : Offset := BitVec.ofNat 18 (0x020 + 8 * n.val + if hi then 4 else 0)

/-- The offset of a half of RES `n` (R21). -/
def resOffset (n : Fin 5) (hi : Bool) : Offset := BitVec.ofNat 18 (0x040 + 8 * n.val + if hi then 4 else 0)

/-- The two stores of `ldarg ARGn, V64`, the low half first (R100). -/
def argStores (n : Fin 3) (v : DWord) : List HostEvent :=
  [storeEvent (argOffset n false) (halfOf v false), storeEvent (argOffset n true) (halfOf v true)]

/-- `MemWord(s, j)` of R100: bytes `j` to `j + 3`, 0x00 for bytes beyond the text. -/
def memWord (text : List Byte) (j : Nat) : Word :=
  wordOfBytes (text.getD j 0) (text.getD (j + 1) 0) (text.getD (j + 2) 0) (text.getD (j + 3) 0)

/-- The IBUF writes of `ldbuf` (R100). A text longer than 196608 bytes takes `0x10000 + 4k` out of the 18-bit window, and the
spec does not say what such a store is; the offset is then taken modulo 2^18. DESIGN CHOICE: log entry 20. -/
def bufferStores (text : List Byte) : List HostEvent :=
  (List.range ((text.length + 3) / 4)).map fun k => storeEvent (BitVec.ofNat 18 (ibufBase + 4 * k)) (memWord text (4 * k))

/-- The expansion of one statement (R99, R100). The IN_LEN of a text of 2^32 bytes or more is its length modulo 2^32. DESIGN
CHOICE: log entry 20. -/
def expand : HostStatement → List HostEvent
  | .sw off val => [storeEvent off val]
  | .lw off => [loadEvent off]
  | .poll => [.poll]
  | .cmd i => [storeEvent 0x000 (encode i)]
  | .run i => [storeEvent 0x000 (encode i), .poll]
  | .ldarg n v => argStores n v
  | .ldargF64 n r => argStores n (F64.toF64 r)
  | .ldbuf text => bufferStores text ++ [storeEvent 0x008 (BitVec.ofNat 32 text.length)]
  | .ldres n => [loadEvent (resOffset n false), loadEvent (resOffset n true)]

/-- A host program's events in order (R101). -/
def assemble (program : List HostStatement) : List HostEvent := program.flatMap expand

/-- A host program is handed to the bus after what is already pending. Log entry 6. -/
def State.offer (s : State) (program : List HostStatement) : State := { s with pending := s.pending ++ assemble program }

end Sys2Proof.Machine
end

