-- ==== Sys2Proof/Safety.lean ====
section
/-! DEFINITION. What the claims speak of: the two forms of a completion as a host finds them, the invariants of the machine, the
operands a command depends on, and the input shapes of the rules, written apart from the machine's own parsers. -/

namespace Sys2Proof.Machine

/-! ### Completions -/

/-- The output a host reads after a completion: OBUF bytes 0 to OUT_LEN-1 (R32, R41). -/
def State.outBytes (s : State) : List Byte := (List.range s.outLen.toNat).map s.obByte

/-- The STATUS word of a completion (R64), from its fields. -/
def completionWord (code : BitVec 8) (ign unf ovf : Bool) : Word :=
  (code.setWidth 32 <<< 8) ||| (if ign then 0x20 else 0) ||| (if unf then 0x10 else 0) ||| (if ovf then 0x08 else 0)
    ||| (if code = 0 then 0 else 0x04) ||| 0x02

/-- `t` is what the completion of the command in flight in `s` leaves when it succeeds with these RES0 to RES4 and this output
(R64): error registers 0, no error code, IGN kept. -/
structure Succeeded (s t : State) (r0 r1 r2 r3 r4 : DWord) (out : List Byte) (ovf unf : Bool) : Prop where
  res0 : t.res0 = r0
  res1 : t.res1 = r1
  res2 : t.res2 = r2
  res3 : t.res3 = r3
  res4 : t.res4 = r4
  outLen : t.outLen.toNat = out.length
  output : t.outBytes = out
  errPos : t.errPos = 0
  errLen : t.errLen = 0
  status : t.status.word = completionWord 0 s.status.ign unf ovf

/-- `t` is what the completion of the command in flight in `s` leaves when it raises an error kind (R274): no result, no output,
ERR_POS and ERR_LEN as given. -/
structure Failed (s t : State) (k : ErrorKind) (pos len : Nat) : Prop where
  res0 : t.res0 = 0
  res1 : t.res1 = 0
  res2 : t.res2 = 0
  res3 : t.res3 = 0
  res4 : t.res4 = 0
  outLen : t.outLen = 0
  errPos : t.errPos = BitVec.ofNat 32 pos
  errLen : t.errLen = BitVec.ofNat 32 len
  status : t.status.word = completionWord k.code s.status.ign false false

/-- The results of the last completion are the same in both states: RES0 to RES4, OUT_LEN, ERR_POS, ERR_LEN and every written
byte of OBUF (R76, R79). -/
structure SameResults (s t : State) : Prop where
  res0 : t.res0 = s.res0
  res1 : t.res1 = s.res1
  res2 : t.res2 = s.res2
  res3 : t.res3 = s.res3
  res4 : t.res4 = s.res4
  outLen : t.outLen = s.outLen
  errPos : t.errPos = s.errPos
  errLen : t.errLen = s.errLen
  obuf : ∀ off, obufBase ≤ off → t.mem.read? off = s.mem.read? off

/-- CMD, IN_LEN, ARG0 to ARG2 and every byte of IBUF are the same in both states (R62, R71). -/
structure SameOperands (s t : State) : Prop where
  cmd : t.cmd = s.cmd
  inLen : t.inLen = s.inLen
  arg0 : t.arg0 = s.arg0
  arg1 : t.arg1 = s.arg1
  arg2 : t.arg2 = s.arg2
  ibuf : ∀ i, i < s.params.ibufSize → t.ibByte i = s.ibByte i

/-! ### Operands (R95) -/

/-- The commands whose operand is the input string; the others are the clock commands (R95). -/
def readsInput : Instr → Bool
  | .clkSolve | .clkPureS | .clkPureMs | .clkPureUs | .clkPureNs => false
  | .crc32Text | .crc32Hex | .xorFold | .b64Enc | .b64Dec => true
  | .bconvR2 | .bconvR8 | .bconvR10 | .bconvR16 => true
  | .storReg | .storBit | .storByte | .storKb | .storMb | .storGb => true

/-- The operands of command `i` are the same in both states (R62, R95): the length and the bytes of the input string, or
ARG0 and ARG1 with all of ARG2 (CLK.SOLVE) or its low half (CLK.PURE). -/
def SameOperandsFor (i : Instr) (s t : State) : Prop :=
  if readsInput i then
    t.params.ibufSize = s.params.ibufSize ∧ t.inLen = s.inLen ∧
      ∀ k, k < s.inLen.toNat → k < s.params.ibufSize → t.ibByte k = s.ibByte k
  else
    t.arg0 = s.arg0 ∧ t.arg1 = s.arg1 ∧
      (if i = .clkSolve then t.arg2 = s.arg2 else t.arg2.extractLsb' 0 32 = s.arg2.extractLsb' 0 32)

/-- The codes a command can complete with (R272), 0 among them. -/
def allowedCodes : Instr → List (BitVec 8)
  | .crc32Text => [0, 10, 1]
  | .crc32Hex => [0, 10, 1, 2]
  | .xorFold => [0, 10, 1, 3, 9]
  | .b64Enc => [0, 10]
  | .b64Dec => [0, 10, 5, 6]
  | .bconvR2 | .bconvR8 | .bconvR10 | .bconvR16 => [0, 10, 1, 4, 9]
  | .storReg => [0, 10, 8, 7, 9]
  | .storBit | .storByte | .storKb | .storMb | .storGb => [0, 10, 8, 9]
  | .clkSolve | .clkPureS | .clkPureMs | .clkPureUs | .clkPureNs => [0, 11]

/-! ### Invariants -/

/-- The written bytes all lie in IBUF or in OBUF (R60). -/
def InBuffers (p : Params) (m : Memory) : Prop :=
  ∀ c ∈ m, (ibufBase ≤ c.1 ∧ c.1 < ibufBase + p.ibufSize) ∨ (obufBase ≤ c.1 ∧ c.1 < obufBase + p.obufSize)

/-- The output lies within OBUF (R32) and what is written lies within the buffers, under legal parameters (R6). -/
def OutputInv (s : State) : Prop :=
  s.params.wellFormed = true ∧ s.outLen.toNat ≤ s.params.obufSize ∧ InBuffers s.params s.mem

/-- After a completion exactly the OBUF bytes below OUT_LEN hold something (R41; that none
above do is the model's form, log entry 4), under legal parameters. -/
def OutputListedInv (s : State) : Prop :=
  s.params.wellFormed = true ∧
    (s.status.done = true → ∀ i, (s.mem.read? (obufBase + i)).isSome = decide (i < s.outLen.toNat))

/-- The legal values of STATUS (R23), with the warnings only after CLK.SOLVE; and its reset value while reset is asserted
(the model's own reading, log entry 7). -/
def StatusInv (s : State) : Prop :=
  ((s.status.busy && s.status.done) = false) ∧
  (s.status.err = true ↔ s.status.done = true ∧ s.status.errcode ≠ 0) ∧
  ((s.status.ovf && s.status.unf) = false) ∧
  (s.status.ovf = true ∨ s.status.unf = true →
    s.status.done = true ∧ s.status.errcode = 0 ∧ s.cmd = 0x00000006) ∧
  (s.inReset = true → s.status = Status.reset)

/-! ### Bus offsets (R21, R60), as numbers -/

/-- The register offsets of R21 that are read-only. -/
def readOnlyOffsets : List Nat :=
  [0x004, 0x00C, 0x010, 0x014, 0x040, 0x044, 0x048, 0x04C, 0x050, 0x054, 0x058, 0x05C, 0x060, 0x064]

/-- The register offsets of R21 that a host may write. -/
def writableOffsets : List Nat := [0x000, 0x008, 0x020, 0x024, 0x028, 0x02C, 0x030, 0x034]

/-- An unmapped offset (R60, R69). -/
def Unmapped (p : Params) (off : Nat) : Prop :=
  (off < 0x10000 ∧ off ∉ readOnlyOffsets ∧ off ∉ writableOffsets) ∨
  (0x10000 + p.ibufSize ≤ off ∧ off < 0x20000) ∨
  0x20000 + p.obufSize ≤ off

/-- The block serves the host's event `e` next: it completes nothing first and reset is not asserted. -/
structure ServesNext (s : State) (e : HostEvent) (rest : List HostEvent) : Prop where
  pending : s.pending = e :: rest
  notDue : s.status.busy = true → s.wait ≠ 0
  running : s.inReset = false

/-! ### Command words (R92, R93), by fields of the number -/

/-- How many SUB values are listed for an OPC (R92): they are 0 up to this number. -/
def subsListed : Nat → Nat
  | 0x01 => 2
  | 0x02 => 1
  | 0x03 => 2
  | 0x04 => 4
  | 0x05 => 6
  | 0x06 => 1
  | 0x07 => 4
  | _ => 0

/-- The table of R92: every word with the command that it selects. -/
def commandTable : List (Word × Instr) :=
  [(0x00000001, .crc32Text), (0x00000101, .crc32Hex), (0x00000002, .xorFold), (0x00000003, .b64Enc), (0x00000103, .b64Dec),
   (0x00000004, .bconvR2), (0x00000104, .bconvR8), (0x00000204, .bconvR10), (0x00000304, .bconvR16)] ++
  [(0x00000005, .storReg), (0x00000105, .storBit), (0x00000205, .storByte), (0x00000305, .storKb), (0x00000405, .storMb),
   (0x00000505, .storGb), (0x00000006, .clkSolve), (0x00000007, .clkPureS), (0x00000107, .clkPureMs),
   (0x00000207, .clkPureUs), (0x00000307, .clkPureNs)]

/-! ### Input shapes, apart from the machine's parsers -/

/-- `h` spells the bytes `s` as pairs of hex digits, the first one the high nibble (R114). -/
inductive Spells : List Byte → List Byte → Prop where
  | nil : Spells [] []
  | pair (a b : Byte) (h s : List Byte) (ha : isHex a = true) (hb : isHex b = true) (rest : Spells h s) :
      Spells (a :: b :: h) (BitVec.ofNat 8 (16 * digitVal a + digitVal b) :: s)

/-- A non-empty string of bytes of a class. -/
def Digits (isDigit : Byte → Bool) (s : List Byte) : Prop := s ≠ [] ∧ ∀ c ∈ s, isDigit c = true

/-- The token texts of an input, in order (R130). -/
def tokenTexts (s : List Byte) : List (List Byte) := (tokens s).map Token.text

/-- One separator (R130): a byte of `WS`, a comma, or the three bytes of the full-width comma. -/
def Separator (p : List Byte) : Prop := (∃ c, p = [c] ∧ (isWs c = true ∨ c = 0x2C)) ∨ p = [0xEF, 0xBC, 0x8C]

/-- A run of separators, the empty one included. -/
def SeparatorRun (g : List Byte) : Prop := ∃ parts : List (List Byte), (∀ p ∈ parts, Separator p) ∧ g = parts.flatten

/-- A non-empty string with no separator in it. -/
def SeparatorFree (t : List Byte) : Prop := t ≠ [] ∧ ∀ p, Separator p → ¬ p <:+: t

/-- `ts` are the tokens of the input that stands from offset `pos` on (R130): separators are skipped, and a token is a
separator-free string that ends where the input ends or a separator begins. -/
inductive Tokenizes : Nat → List Byte → List Token → Prop where
  | done (pos : Nat) (gap : List Byte) (hg : SeparatorRun gap) : Tokenizes pos gap []
  | token (pos : Nat) (gap text rest : List Byte) (ts : List Token) (hg : SeparatorRun gap) (ht : SeparatorFree text)
      (he : rest = [] ∨ ∃ p more, Separator p ∧ rest = p ++ more)
      (hr : Tokenizes (pos + gap.length + text.length) rest ts) :
      Tokenizes pos (gap ++ text ++ rest) ({ pos := pos + gap.length, text := text } :: ts)

/-- The token `t` is of a class of R131 and denotes `v`. -/
inductive Denotes : List Byte → Nat → Prop where
  | hex (h : List Byte) (hd : Digits isHex h) : Denotes ([0x30, 0x78] ++ h) (digitsVal 16 h)
  | bin (h : List Byte) (hd : Digits isBin h) : Denotes ([0x30, 0x62] ++ h) (digitsVal 2 h)
  | dec (h : List Byte) (hd : Digits isDec h) : Denotes h (digitsVal 10 h)

/-- A token that XORFOLD accepts: of a class of R131 and within 64 bits (R132). -/
def GoodToken (t : List Byte) : Prop := ∃ v, Denotes t v ∧ v ≤ 2 ^ 64 - 1

/-- The XOR of numbers, from 0 (R132). -/
def xorAll (vs : List Nat) : Nat := vs.foldl (fun acc v => acc ^^^ v) 0

/-- `core` begins and ends with no byte of `WS`: it is its own `trimWS` (R11, R200). -/
def Trimmed (core : List Byte) : Prop := ∀ c, core.head? = some c ∨ core.getLast? = some c → isWs c = false

/-- The shape RANGE of R201 with its digit strings. -/
def RangeShape (core hs he : List Byte) : Prop :=
  Digits isHex hs ∧ Digits isHex he ∧
    ∃ w1 w2, (∀ c ∈ w1 ++ w2, isWs c = true) ∧ core = [0x30, 0x78] ++ hs ++ w1 ++ [0x2D] ++ w2 ++ [0x30, 0x78] ++ he

/-- The shape HEXNUM of R201 with its digit string. -/
def HexShape (core h : List Byte) : Prop := Digits isHex h ∧ core = [0x30, 0x78] ++ h

/-- A shape of register mode (R201). -/
def RegisterShape (core : List Byte) : Prop :=
  (∃ hs he, RangeShape core hs he) ∨ (∃ h, HexShape core h) ∨ Digits isDec core

/-- The plain-number shape of R203: the digits before the point, and those after it (none where there is no point). -/
def PlainNumber (core whole frac : List Byte) : Prop :=
  Digits isDec whole ∧ (core = whole ∧ frac = [] ∨ Digits isDec frac ∧ core = whole ++ [0x2E] ++ frac)

/-- The decimal value of a plain number as a binary64 (R203). -/
def plainF64 (whole frac : List Byte) : DWord := F64.ofRat (digitsVal 10 (whole ++ frac)) (10 ^ frac.length)

/-- `bytes` is the `bytes` column of R204 for the value `v` under the unit of command `i`; no value for other commands. The
ceiling is taken on exact values: the `n` with `v <= 8n < v + 8`, in units of 2^-1074. -/
def UnitBytes (i : Instr) (v bytes : DWord) : Prop :=
  match i with
  | .storBit =>
    ∃ n : Nat, F64.units v ≤ 8 * n * 2 ^ 1074 ∧ 8 * n * 2 ^ 1074 < F64.units v + 8 * 2 ^ 1074 ∧ bytes = F64.ofNat n
  | .storByte => bytes = v
  | .storKb => bytes = F64.mul v (F64.ofNat 1024)
  | .storMb => bytes = F64.mul v (F64.ofNat 1048576)
  | .storGb => bytes = F64.mul v (F64.ofNat 1073741824)
  | _ => False

/-- The character `c` of the Base64 alphabet stands for the 6-bit value `v` (R150). -/
def SixBits (c : Byte) (v : Nat) : Prop :=
  (v ≤ 25 ∧ c.toNat = 0x41 + v) ∨ (26 ≤ v ∧ v ≤ 51 ∧ c.toNat = 0x61 + (v - 26)) ∨
  (52 ≤ v ∧ v ≤ 61 ∧ c.toNat = 0x30 + (v - 52)) ∨ (v = 62 ∧ c = 0x2B) ∨ (v = 63 ∧ c = 0x2F)

/-- The Base64 text of a byte string (R151): three bytes to four characters, the first byte in the highest bits, and "=" for
the characters that a last group of one or two bytes does not fill. -/
inductive B64Encodes : List Byte → List Byte → Prop where
  | nil : B64Encodes [] []
  | one (a c0 c1 : Byte) (h0 : SixBits c0 (a.toNat / 4)) (h1 : SixBits c1 (a.toNat % 4 * 16)) :
      B64Encodes [a] [c0, c1, 0x3D, 0x3D]
  | two (a b c0 c1 c2 : Byte) (h0 : SixBits c0 (a.toNat / 4)) (h1 : SixBits c1 (a.toNat % 4 * 16 + b.toNat / 16))
      (h2 : SixBits c2 (b.toNat % 16 * 4)) : B64Encodes [a, b] [c0, c1, c2, 0x3D]
  | three (a b c c0 c1 c2 c3 : Byte) (bytes chars : List Byte) (h0 : SixBits c0 (a.toNat / 4))
      (h1 : SixBits c1 (a.toNat % 4 * 16 + b.toNat / 16)) (h2 : SixBits c2 (b.toNat % 16 * 4 + c.toNat / 64))
      (h3 : SixBits c3 (c.toNat % 64)) (rest : B64Encodes bytes chars) :
      B64Encodes (a :: b :: c :: bytes) (c0 :: c1 :: c2 :: c3 :: chars)

/-- The bytes that a string of alphabet characters, its padding taken off, decodes to (R153): four characters to three bytes, and
a last group of two or three characters to one or two, its lowest bits dropped. No group is one character. -/
inductive B64Groups : List Byte → List Byte → Prop where
  | nil : B64Groups [] []
  | two (c0 c1 : Byte) (v0 v1 : Nat) (h0 : SixBits c0 v0) (h1 : SixBits c1 v1) :
      B64Groups [c0, c1] [BitVec.ofNat 8 (v0 * 4 + v1 / 16)]
  | three (c0 c1 c2 : Byte) (v0 v1 v2 : Nat) (h0 : SixBits c0 v0) (h1 : SixBits c1 v1) (h2 : SixBits c2 v2) :
      B64Groups [c0, c1, c2] [BitVec.ofNat 8 (v0 * 4 + v1 / 16), BitVec.ofNat 8 (v1 % 16 * 16 + v2 / 4)]
  | four (c0 c1 c2 c3 : Byte) (v0 v1 v2 v3 : Nat) (chars bytes : List Byte) (h0 : SixBits c0 v0) (h1 : SixBits c1 v1)
      (h2 : SixBits c2 v2) (h3 : SixBits c3 v3) (rest : B64Groups chars bytes) :
      B64Groups (c0 :: c1 :: c2 :: c3 :: chars)
        (BitVec.ofNat 8 (v0 * 4 + v1 / 16) :: BitVec.ofNat 8 (v1 % 16 * 16 + v2 / 4) :: BitVec.ofNat 8 (v2 % 4 * 64 + v3) ::
          bytes)

/-- `s` decodes to `r` (R153): alphabet characters, then no "=", or one or two where the length of `s` is a multiple of 4. -/
def B64Decodes (s r : List Byte) : Prop :=
  ∃ chars padding, s = chars ++ padding ∧ B64Groups chars r ∧
    (padding = [] ∨ (padding = [0x3D] ∨ padding = [0x3D, 0x3D]) ∧ s.length % 4 = 0)

/-- The table of well-formed sequences of R154: each row the ranges of its bytes, bounds included. -/
def utf8Table : List (List (Nat × Nat)) :=
  [[(0x00, 0x7F)], [(0xC2, 0xDF), (0x80, 0xBF)], [(0xE0, 0xE0), (0xA0, 0xBF), (0x80, 0xBF)],
   [(0xE1, 0xEC), (0x80, 0xBF), (0x80, 0xBF)], [(0xED, 0xED), (0x80, 0x9F), (0x80, 0xBF)],
   [(0xEE, 0xEF), (0x80, 0xBF), (0x80, 0xBF)]] ++
  [[(0xF0, 0xF0), (0x90, 0xBF), (0x80, 0xBF), (0x80, 0xBF)], [(0xF1, 0xF3), (0x80, 0xBF), (0x80, 0xBF), (0x80, 0xBF)],
   [(0xF4, 0xF4), (0x80, 0x8F), (0x80, 0xBF), (0x80, 0xBF)]]

/-- One sequence of a row of the table. -/
def Utf8Sequence (q : List Byte) : Prop :=
  ∃ row ∈ utf8Table, List.Forall₂ (fun (r : Nat × Nat) (b : Byte) => r.1 ≤ b.toNat ∧ b.toNat ≤ r.2) row q

/-- Valid UTF-8 (R154): a concatenation of such sequences. -/
def Utf8 (s : List Byte) : Prop := ∃ parts : List (List Byte), (∀ q ∈ parts, Utf8Sequence q) ∧ s = parts.flatten

/-! ### Binary64 (R9, R95), by fields of the number -/

/-- The exponent field, bits 62:52. -/
def expField (x : DWord) : Nat := x.toNat / 2 ^ 52 % 2 ^ 11

/-- The fraction field, bits 51:0. -/
def fracField (x : DWord) : Nat := x.toNat % 2 ^ 52

/-- Finite: an exponent field below 2047. -/
def FiniteBits (x : DWord) : Prop := expField x < 2047

/-- An infinity of either sign. -/
def InfiniteBits (x : DWord) : Prop := expField x = 2047 ∧ fracField x = 0

/-- Not a number. -/
def NanBits (x : DWord) : Prop := expField x = 2047 ∧ fracField x ≠ 0

/-- The absolute value of a finite binary64 as a count of 2^-1074: the fraction alone where the exponent field is 0, else with
its leading 1 and by the exponent. -/
def exactUnits (x : DWord) : Nat :=
  if expField x = 0 then fracField x else (2 ^ 52 + fracField x) * 2 ^ (expField x - 1)

/-- The value of a finite binary64 as a count of 2^-1074, bit 63 its sign. -/
def exactValue (x : DWord) : Int := if x.msb then -(exactUnits x : Int) else exactUnits x

/-- Zero of a sign. -/
def signedZero (neg : Bool) : DWord := if neg then 0x8000000000000000 else 0

/-- Infinity of a sign. -/
def signedInf (neg : Bool) : DWord := if neg then 0xFFF0000000000000 else 0x7FF0000000000000

/-- `x` is what one rounding of R9 gives for the exact result `n / d`, in units of 2^-1074, with this sign: an infinity from
2^1024 - 2^970 on; below it finite, no finite binary64 being nearer, and even where another is equally near. -/
structure RoundsTo (neg : Bool) (n d : Nat) (x : DWord) : Prop where
  sign : x.msb = neg
  overflow : d * (2 ^ 2098 - 2 ^ 2044) ≤ n → InfiniteBits x
  finite : n < d * (2 ^ 2098 - 2 ^ 2044) → FiniteBits x
  nearest : n < d * (2 ^ 2098 - 2 ^ 2044) → ∀ y, FiniteBits y →
    ((exactUnits x : Int) * d - n).natAbs ≤ ((exactUnits y : Int) * d - n).natAbs ∧
    (exactUnits y ≠ exactUnits x →
      ((exactUnits x : Int) * d - n).natAbs = ((exactUnits y : Int) * d - n).natAbs → x.toNat % 2 = 0)

/-- One iteration of R110, with its polynomial written out. -/
def crcIteration (c : Word) : Word := if c &&& 1 = 1 then 0xEDB88320#32 ^^^ (c >>> 1) else c >>> 1

/-- The unit of a STOR command (R212 to R217). -/
def storUnitOf : Instr → Option StorUnit
  | .storReg => some .register
  | .storBit => some .bit
  | .storByte => some .byte
  | .storKb => some .kb
  | .storMb => some .mb
  | .storGb => some .gb
  | _ => none

/-- The source radix of a BCONV command (R183 to R186). -/
def bconvRadixOf : Instr → Option Radix
  | .bconvR2 => some .r2
  | .bconvR8 => some .r8
  | .bconvR10 => some .r10
  | .bconvR16 => some .r16
  | _ => none

/-- The seconds-equivalent of a CLK.PURE command's time unit, as the bits R250 gives. -/
def pureUnitOf : Instr → Option DWord
  | .clkPureS => some 0x3FF0000000000000
  | .clkPureMs => some 0x3F50624DD2F1A9FC
  | .clkPureUs => some 0x3EB0C6F7A0B5ED8D
  | .clkPureNs => some 0x3E112E0BE826D695
  | _ => none

/-- A valid frequency operand (R240), by its value: finite and greater than zero. -/
def PositiveFinite (x : DWord) : Prop := 0 < x.toNat ∧ x.toNat < 0x7FF0000000000000

/-- A valid duty operand (R240), by its bits: from +0 to 100.0 (0x4059000000000000), or -0. -/
def DutyInRange (x : DWord) : Prop := x.toNat ≤ 0x4059000000000000 ∨ x = 0x8000000000000000

end Sys2Proof.Machine
end

