-- ==== Sys2Proof/Certificates/Slice0/Obligations.lean ====
section
/-! DEFINITION. The statements for the provers. Each docstring names the rule of spec/ it comes from. -/

open Sys2Proof Sys2Proof.Machine

/-! ### Encoding -/

/-- R92: the 20 words of the table, and one word for each cause of R93, decode as they stand there. -/
def Obligations.TableWordsDecode : Prop :=
  decode 0x00000001 = .ok .crc32Text ∧ decode 0x00000101 = .ok .crc32Hex ∧ decode 0x00000002 = .ok .xorFold ∧
  decode 0x00000003 = .ok .b64Enc ∧ decode 0x00000103 = .ok .b64Dec ∧ decode 0x00000004 = .ok .bconvR2 ∧
  decode 0x00000104 = .ok .bconvR8 ∧ decode 0x00000204 = .ok .bconvR10 ∧ decode 0x00000304 = .ok .bconvR16 ∧
  decode 0x00000005 = .ok .storReg ∧ decode 0x00000105 = .ok .storBit ∧ decode 0x00000205 = .ok .storByte ∧
  decode 0x00000305 = .ok .storKb ∧ decode 0x00000405 = .ok .storMb ∧ decode 0x00000505 = .ok .storGb ∧
  decode 0x00000006 = .ok .clkSolve ∧ decode 0x00000007 = .ok .clkPureS ∧ decode 0x00000107 = .ok .clkPureMs ∧
  decode 0x00000207 = .ok .clkPureUs ∧ decode 0x00000307 = .ok .clkPureNs ∧
  decode 0x00000008 = .error .unknownOpc ∧ decode 0x00000601 = .error .unlistedSub ∧
  decode 0x00010001 = .error .reservedBits ∧ decode 0x00000000 = .error .unknownOpc

/-- R92, R93: a command is selected by its whole word, and by no other. -/
def Obligations.DecodeAndEncodeAgree : Prop :=
  (∀ i : Instr, i.wellFormed = true → decode (encode i) = .ok i) ∧ ∀ (w : Word) (i : Instr), decode w = .ok i → encode i = w

/-- R92, R93: the 20 words of the table select the commands that their rows name, and every other word encodes no command: one
with OPC 0x00 or 0x08 to 0xFF, a SUB that is not listed for its OPC, or a bit of RSV set. -/
def Obligations.WordsThatEncodeCommands : Prop :=
  commandTable.length = 20 ∧ (∀ row ∈ commandTable, decode row.1 = .ok row.2) ∧
  (∀ w : Word, w ∉ commandTable.map Prod.fst → ∃ why, decode w = .error why) ∧
  (∀ w : Word, (∃ why, decode w = .error why) ↔
    w.toNat / 2 ^ 12 ≠ 0 ∨ subsListed (w.toNat % 2 ^ 8) ≤ w.toNat / 2 ^ 8 % 2 ^ 4)

/-! ### The step -/

/-- R43, R64, R75: a step completes the command in flight when it is due, and is then exactly `exec` of the command its word
decodes to; otherwise it serves the next host event, or nothing when there is none. When a command is due (`wait` is 0 or
nothing is pending) is the model's own schedule, log entry 5: R311 leaves it open. -/
def Obligations.StepRunsTheCommandInFlight : Prop :=
  (∀ (s : State) (i : Instr), s.status.busy = true → s.wait = 0 ∨ s.pending = [] → decode s.cmd = .ok i → step s = exec i s) ∧
  (∀ s : State, s.status.busy = false → s.pending = [] → step s = .next s) ∧
  (∀ (s : State) (e : HostEvent) (rest : List HostEvent), ServesNext s e rest → step s = s.serve e rest)

/-- R94: a word that encodes no command completes with InvalidCommand; it is no stop and no no-op. -/
def Obligations.UnencodedWordCompletesWithInvalidCommand : Prop :=
  ∀ s : State, s.status.busy = true → s.wait = 0 ∨ s.pending = [] → (∀ i : Instr, encode i ≠ s.cmd) →
    ∃ t, step s = .next t ∧ Failed s t .invalidCommand 0 0

/-- R311, D41: within the events that the schedule lets come first, the block is idle again (the command has completed, or a
reset has abandoned it). The schedule is the model's own (log entry 5). -/
def Obligations.BusyEndsWithinTheSchedule : Prop :=
  ∀ s : State, s.inReset = false →
    ∃ (k : Nat) (t : State), k ≤ s.wait + 1 ∧ Sys2Proof.core.run k s = .next t ∧ t.status.busy = false

/-! ### Invariants of every step -/

/-- Every step keeps the memory canonical (the model's own form, log entry 2). -/
def Obligations.StepKeepsMemoryCanonical : Prop := ∀ s t : State, s.mem.wf → step s = .next t → t.mem.wf

/-- R23: every step keeps STATUS at a legal value; and, the model's own reading of R300 and R301 (log entry 7, DEDUCED), at its
reset value while reset is asserted. -/
def Obligations.StepKeepsStatusLegal : Prop := ∀ s t : State, StatusInv s → step s = .next t → StatusInv t

/-- R32, R218: every step keeps the output within OBUF, and what is written within the buffers. -/
def Obligations.StepKeepsOutputWithinBuffer : Prop := ∀ s t : State, OutputInv s → step s = .next t → OutputInv t

/-- R41: every step keeps this: after a completion OBUF holds the command's output below OUT_LEN. That it lists nothing at and
above OUT_LEN is the model's form of R41's "unspecified" (log entry 4, DEDUCED): a completion forgets older bytes. -/
def Obligations.StepKeepsOutputExact : Prop :=
  ∀ s t : State, OutputInv s → OutputListedInv s → step s = .next t → OutputListedInv t

/-- The invariants hold right after reset. -/
def Obligations.ResetMeetsTheInvariants : Prop :=
  State.reset.mem.wf ∧ StatusInv State.reset ∧ OutputInv State.reset ∧ OutputListedInv State.reset

/-- R303: no step changes the parameters. -/
def Obligations.StepKeepsParameters : Prop := ∀ s t : State, step s = .next t → t.params = s.params

/-- R64, R76, R79: results and OBUF change only by a completion or a reset. -/
def Obligations.ResultsChangeOnlyByCompletion : Prop :=
  ∀ s t : State, s.params.wellFormed = true → s.completesNow = false → step s = .next t → t.inReset = false → SameResults s t

/-- R62, R71: while a command is in flight no step but a reset changes CMD or its operands, the completion included. -/
def Obligations.OperandsAreFixedWhileBusy : Prop :=
  ∀ s t : State, s.params.wellFormed = true → s.status.busy = true → step s = .next t → t.inReset = false → SameOperands s t

/-! ### The bus -/

/-- R73: a read, of whatever offset and width, busy or idle, changes no state of the block: only the bus's answer. R100: the
polling loop is such reads of STATUS, and goes on (the event stays at the head: the model's form, log entry 15) exactly while
the word read has BUSY = 1. -/
def Obligations.ReadsHaveNoSideEffect : Prop :=
  (∀ (s : State) (off : Offset) (width : Nat) (rest : List HostEvent),
    ServesNext s (.transaction { access := .read, offset := off, width := width }) rest →
      ∃ r, step s = .next ((s.consume rest).answer r)) ∧
  (∀ (s : State) (rest : List HostEvent), ServesNext s .poll rest →
    step s = .next { (s.consume rest).answer (.okayData s.status.word) with
      pending := if s.status.word.toNat % 2 = 1 then .poll :: rest else rest })

/-- R67, R68, R69, R273: a misaligned, not 32 bits wide or unmapped transaction is answered ERROR and changes nothing. -/
def Obligations.BusErrorsChangeNothing : Prop :=
  ∀ (s : State) (x : Transaction) (rest : List HostEvent), ServesNext s (.transaction x) rest →
    (x.width ≠ 32 ∨ x.offset.toNat % 4 ≠ 0 ∨ Unmapped s.params x.offset.toNat) →
      step s = .next ((s.consume rest).answer .error)

/-- R70: a write to a read-only location is answered OKAY and has no effect, whether the block is busy or idle; IGN is not set. -/
def Obligations.ReadOnlyWritesChangeNothing : Prop :=
  ∀ (s : State) (off : Offset) (w : Word) (rest : List HostEvent), ServesNext s (storeEvent off w) rest →
    (off.toNat ∈ readOnlyOffsets ∨
      (off.toNat % 4 = 0 ∧ 0x20000 ≤ off.toNat ∧ off.toNat < 0x20000 + s.params.obufSize)) →
      step s = .next ((s.consume rest).answer .okay)

/-- R71: a busy write to CMD, IN_LEN, an ARG half or IBUF is answered OKAY, sets IGN and changes nothing else. -/
def Obligations.BusyWritesAreIgnored : Prop :=
  ∀ (s : State) (off : Offset) (w : Word) (rest : List HostEvent), s.params.wellFormed = true →
    ServesNext s (storeEvent off w) rest → s.status.busy = true →
    (off.toNat ∈ writableOffsets ∨
      (off.toNat % 4 = 0 ∧ 0x10000 ≤ off.toNat ∧ off.toNat < 0x10000 + s.params.ibufSize)) →
      ∃ t, step s = .next t ∧ t = { (s.consume rest).answer .okay with status := t.status } ∧
        t.status = { s.status with ign := true } ∧ SameOperands s t

/-- R22, R61: a write of any word to CMD while idle is an acceptance: CMD holds the word, STATUS is 0x00000001, and no operand,
result or buffer byte changes, those not written since reset (R302) included. -/
def Obligations.CmdWriteWhileIdleIsAccepted : Prop :=
  ∀ (s : State) (w : Word) (rest : List HostEvent), ServesNext s (storeEvent 0x000 w) rest → s.status.busy = false →
    ∃ t, step s = .next t ∧ t.cmd = w ∧ t.status.word = 0x00000001 ∧ t.response = some .okay ∧ t.inLen = s.inLen ∧
      t.arg0 = s.arg0 ∧ t.arg1 = s.arg1 ∧ t.arg2 = s.arg2 ∧ t.mem = s.mem ∧ t.epoch = s.epoch ∧
      (∀ i, t.ibByte i = s.ibByte i) ∧ t.params = s.params ∧ t.inReset = false ∧ t.pending = rest ∧ SameResults s t

/-- R30, R33, R66: idle writes of IN_LEN and of one half of an ARG register change that and nothing else. -/
def Obligations.OperandWritesTakeEffect : Prop :=
  (∀ (s : State) (w : Word) (rest : List HostEvent), ServesNext s (storeEvent 0x008 w) rest → s.status.busy = false →
    step s = .next { (s.consume rest).answer .okay with inLen := w }) ∧
  (∀ (s : State) (n : Fin 3) (hi : Bool) (w : Word) (rest : List HostEvent),
    ServesNext s (storeEvent (argOffset n hi) w) rest → s.status.busy = false →
    ∃ t, step s = .next t ∧ t = ((s.consume rest).answer .okay).setArg n (t.arg n) ∧
      (t.arg n).extractLsb' (if hi then 32 else 0) 32 = w ∧
      (t.arg n).extractLsb' (if hi then 0 else 32) 32 = (s.arg n).extractLsb' (if hi then 0 else 32) 32)

/-- R40, R65: an idle write of an IBUF word stores its four bytes, the low one first, and changes no other byte and nothing
else of the block. -/
def Obligations.IbufWritesAreLittleEndian : Prop :=
  ∀ (s : State) (i : Nat) (w : Word) (rest : List HostEvent), s.params.wellFormed = true → i % 4 = 0 →
    i < s.params.ibufSize → ServesNext s (storeEvent (BitVec.ofNat 18 (0x10000 + i)) w) rest → s.status.busy = false →
    ∃ t, step s = .next t ∧ t = { (s.consume rest).answer .okay with mem := t.mem } ∧
      (∀ k, k < 4 → t.ibByte (i + k) = w.extractLsb' (8 * k) 8) ∧
      (∀ off, ¬ (0x10000 + i ≤ off ∧ off < 0x10000 + i + 4) → t.mem.read? off = s.mem.read? off)

/-- R21, R72: what a read of each register returns while the block is idle. -/
def Obligations.IdleReadsReturnTheRegisters : Prop :=
  ∀ (s : State) (off : Offset) (v : Word) (rest : List HostEvent), ServesNext s (loadEvent off) rest → s.status.busy = false →
    (off.toNat, v) ∈
      [(0x000, s.cmd), (0x004, s.status.word), (0x008, s.inLen), (0x00C, s.errPos), (0x010, s.errLen), (0x014, s.outLen),
       (0x020, s.arg0.extractLsb' 0 32), (0x024, s.arg0.extractLsb' 32 32), (0x028, s.arg1.extractLsb' 0 32),
       (0x02C, s.arg1.extractLsb' 32 32), (0x030, s.arg2.extractLsb' 0 32), (0x034, s.arg2.extractLsb' 32 32),
       (0x040, s.res0.extractLsb' 0 32), (0x044, s.res0.extractLsb' 32 32), (0x048, s.res1.extractLsb' 0 32),
       (0x04C, s.res1.extractLsb' 32 32), (0x050, s.res2.extractLsb' 0 32), (0x054, s.res2.extractLsb' 32 32),
       (0x058, s.res3.extractLsb' 0 32), (0x05C, s.res3.extractLsb' 32 32), (0x060, s.res4.extractLsb' 0 32),
       (0x064, s.res4.extractLsb' 32 32)] →
    step s = .next ((s.consume rest).answer (.okayData v))

/-- R65, R72: an idle read of a buffer word returns its four bytes, the first in bits 7:0: every IBUF byte, and every OBUF byte
that the last completion wrote. -/
def Obligations.IdleBufferReadsAreLittleEndian : Prop :=
  (∀ (s : State) (i : Nat) (rest : List HostEvent), s.params.wellFormed = true → i % 4 = 0 → i < s.params.ibufSize →
    ServesNext s (loadEvent (BitVec.ofNat 18 (0x10000 + i))) rest → s.status.busy = false →
    ∃ v, step s = .next ((s.consume rest).answer (.okayData v)) ∧
      ∀ k, k < 4 → v.extractLsb' (8 * k) 8 = s.ibByte (i + k)) ∧
  (∀ (s : State) (i : Nat) (rest : List HostEvent), s.params.wellFormed = true → i % 4 = 0 → i < s.params.obufSize →
    ServesNext s (loadEvent (BitVec.ofNat 18 (0x20000 + i))) rest → s.status.busy = false →
    ∃ v, step s = .next ((s.consume rest).answer (.okayData v)) ∧
      ∀ k b, k < 4 → s.mem.read? (0x20000 + (i + k)) = some b → v.extractLsb' (8 * k) 8 = b)

/-- R36: while busy, reads of CMD, STATUS, IN_LEN, the ARG halves and IBUF return the current value, and reads of the result
registers and of OBUF are answered OKAY (with an unspecified word). -/
def Obligations.BusyReadsAreAnswered : Prop :=
  (∀ (s : State) (off : Offset) (v : Word) (rest : List HostEvent), ServesNext s (loadEvent off) rest → s.status.busy = true →
    (off.toNat, v) ∈
      [(0x000, s.cmd), (0x004, s.status.word), (0x008, s.inLen),
       (0x020, s.arg0.extractLsb' 0 32), (0x024, s.arg0.extractLsb' 32 32), (0x028, s.arg1.extractLsb' 0 32),
       (0x02C, s.arg1.extractLsb' 32 32), (0x030, s.arg2.extractLsb' 0 32), (0x034, s.arg2.extractLsb' 32 32)] →
    step s = .next ((s.consume rest).answer (.okayData v))) ∧
  (∀ (s : State) (i : Nat) (rest : List HostEvent), s.params.wellFormed = true → i % 4 = 0 → i < s.params.ibufSize →
    ServesNext s (loadEvent (BitVec.ofNat 18 (0x10000 + i))) rest → s.status.busy = true →
    ∃ v, step s = .next ((s.consume rest).answer (.okayData v)) ∧
      ∀ k, k < 4 → v.extractLsb' (8 * k) 8 = s.ibByte (i + k)) ∧
  (∀ (s : State) (off : Offset) (rest : List HostEvent), ServesNext s (loadEvent off) rest → s.status.busy = true →
    (off.toNat ∈ [0x00C, 0x010, 0x014, 0x040, 0x044, 0x048, 0x04C, 0x050, 0x054, 0x058, 0x05C, 0x060, 0x064] ∨
      (off.toNat % 4 = 0 ∧ 0x20000 ≤ off.toNat ∧ off.toNat < 0x20000 + s.params.obufSize)) →
    ∃ v, step s = .next ((s.consume rest).answer (.okayData v)))

/-! ### Reset -/

/-- R301: the state after reset; CMD = 0 is not an acceptance, and the block stays idle until a CMD write. -/
def Obligations.ResetState : Prop :=
  State.reset.cmd = 0 ∧ State.reset.status.word = 0 ∧ State.reset.inLen = 0 ∧ State.reset.errPos = 0 ∧
  State.reset.errLen = 0 ∧ State.reset.outLen = 0 ∧ State.reset.arg0 = 0 ∧ State.reset.arg1 = 0 ∧ State.reset.arg2 = 0 ∧
  State.reset.res0 = 0 ∧ State.reset.res1 = 0 ∧ State.reset.res2 = 0 ∧ State.reset.res3 = 0 ∧ State.reset.res4 = 0 ∧
  ∀ s t : State, s.status.busy = false → step s = .next t → t.status.busy = true →
    ∃ (w : Word) (rest : List HostEvent), s.pending = storeEvent 0x000 w :: rest

/-- R300, R301, R302: asserting reset, idle or busy, gives every register its reset value and abandons the command in flight;
the parameters stay (R303). Until it is released the block answers nothing. The model's own readings: that the registers change
at the assertion and that a transaction or a poll under reset is refused are log entry 7 (DEDUCED), and that no buffer byte is
listed then is the form of log entry 2. -/
def Obligations.ResetAbandonsTheCommand : Prop :=
  (∀ (s : State) (rest : List HostEvent), s.pending = .assertReset :: rest → (s.status.busy = true → s.wait ≠ 0) →
    ∃ t, step s = .next t ∧ t.cmd = 0 ∧ t.status.word = 0 ∧ t.inLen = 0 ∧ t.errPos = 0 ∧ t.errLen = 0 ∧ t.outLen = 0 ∧
      t.arg0 = 0 ∧ t.arg1 = 0 ∧ t.arg2 = 0 ∧ t.res0 = 0 ∧ t.res1 = 0 ∧ t.res2 = 0 ∧ t.res3 = 0 ∧ t.res4 = 0 ∧
      t.mem = [] ∧ t.params = s.params ∧ t.inReset = true ∧ t.pending = rest) ∧
  (∀ (s : State) (e : HostEvent) (rest : List HostEvent), s.inReset = true → s.status.busy = false → s.pending = e :: rest →
    (e = .poll ∨ ∃ x, e = .transaction x) → step s = .refused .resetAsserted) ∧
  (∀ (s : State) (rest : List HostEvent), s.status.busy = false → s.pending = .releaseReset :: rest →
    step s = .next { s.consume rest with inReset := false })

/-! ### Completions of every command -/

/-- R63, R64, R270: every command completes, with DONE set and BUSY clear, and leaves CMD, IN_LEN, ARG0 to ARG2, IGN, the
parameters, the model's own fields and every byte below OBUF as they were. That OBUF lists nothing at and above OUT_LEN is the
model's form of R41's "unspecified" (log entry 4, DEDUCED). -/
def Obligations.EveryCommandCompletesWithThisFrame : Prop :=
  ∀ (i : Instr) (s : State), s.params.wellFormed = true →
    ∃ t, exec i s = .next t ∧ t.status.busy = false ∧ t.status.done = true ∧ t.status.ign = s.status.ign ∧
      t.cmd = s.cmd ∧ t.inLen = s.inLen ∧ t.arg0 = s.arg0 ∧ t.arg1 = s.arg1 ∧ t.arg2 = s.arg2 ∧ t.params = s.params ∧
      t.inReset = s.inReset ∧ t.pending = s.pending ∧ t.latencies = s.latencies ∧ t.response = s.response ∧
      t.wait = s.wait ∧ t.draws = s.draws ∧ t.epoch = s.epoch ∧
      (∀ off, off < obufBase → t.mem.read? off = s.mem.read? off) ∧
      (∀ off, obufBase + t.outLen.toNat ≤ off → t.mem.read? off = none)

/-- R271, R272: the numbers of the error kinds, and the codes a command can complete with; any code not listed is never raised
by it. -/
def Obligations.CommandsRaiseOnlyTheirCodes : Prop :=
  [ErrorKind.emptyInput, .invalidHexFormat, .invalidToken, .invalidDigitForRadix, .invalidAlphabet, .invalidUtf8,
    .invalidRange, .invalidNumericFormat, .magnitudeOutOfRange, .inputTooLong, .invalidArgument, .invalidCommand].map
      ErrorKind.code = [1, 2, 3, 4, 5, 6, 7, 8, 9, 10, 11, 12] ∧
  ∀ (i : Instr) (s t : State), exec i s = .next t → t.status.errcode ∈ allowedCodes i

/-- R26, R27, R274: an error completion publishes no result, and ERR_POS and ERR_LEN only for InvalidToken and for
MagnitudeOutOfRange of XORFOLD; ERR is set exactly then, and OVF and UNF only by a CLK.SOLVE without error. -/
def Obligations.ErrorCompletionsPublishNothing : Prop :=
  ∀ (i : Instr) (s t : State), exec i s = .next t →
    (t.status.err = true ↔ t.status.errcode ≠ 0) ∧
    (t.status.errcode ≠ 0 → t.res0 = 0 ∧ t.res1 = 0 ∧ t.res2 = 0 ∧ t.res3 = 0 ∧ t.res4 = 0 ∧ t.outLen = 0 ∧
      t.status.ovf = false ∧ t.status.unf = false) ∧
    (¬ (t.status.errcode = 3 ∨ (t.status.errcode = 9 ∧ i = .xorFold)) → t.errPos = 0 ∧ t.errLen = 0) ∧
    (i ≠ .clkSolve → t.status.ovf = false ∧ t.status.unf = false)

/-- R62, R275: a command that reads IBUF checks its length before everything else. -/
def Obligations.InputLengthIsCheckedFirst : Prop :=
  ∀ (i : Instr) (s : State), readsInput i = true → s.params.ibufSize < s.inLen.toNat →
    ∃ t, exec i s = .next t ∧ Failed s t .inputTooLong 0 0

/-- R64, R95: the outcome is a function of the command and its operands alone. -/
def Obligations.OutcomeDependsOnOperandsOnly : Prop :=
  ∀ (i : Instr) (s t s' t' : State), SameOperandsFor i s t → exec i s = .next s' → exec i t = .next t' →
    t'.res0 = s'.res0 ∧ t'.res1 = s'.res1 ∧ t'.res2 = s'.res2 ∧ t'.res3 = s'.res3 ∧ t'.res4 = s'.res4 ∧
    t'.outLen = s'.outLen ∧ t'.errPos = s'.errPos ∧ t'.errLen = s'.errLen ∧ t'.outBytes = s'.outBytes ∧
    t'.status = { s'.status with ign := t.status.ign }

/-! ### CRC-32 -/

/-- R110, R112: a table entry is eight iterations of the shift by 0xEDB88320, and the table-driven checksum is the bit-serial
one: each byte is xored into the low bits of the register, then eight iterations. -/
def Obligations.CrcTableMatchesBitSerial : Prop :=
  (∀ i : Byte, crcTable i = crcIteration^[8] (i.setWidth 32)) ∧
  ∀ bs : List Byte, crcBytes bs = ~~~(bs.foldl (fun c b => crcIteration^[8] (c ^^^ b.setWidth 32)) 0xFFFFFFFF#32)

/-- R113, R115: CRC32.TEXT on input that is not all whitespace. -/
def Obligations.CrcTextResult : Prop :=
  ∀ s : State, s.inLen.toNat ≤ s.params.ibufSize → (∃ c ∈ s.inBytes, isWs c = false) →
    ∃ t digits, exec .crc32Text s = .next t ∧
      Succeeded s t ((crcBytes s.inBytes).setWidth 64) 0 0 0 0 (digits ++ [lf]) false false ∧
      digits.length = 8 ∧ (∀ c ∈ digits, (isDec c || between 0x41 0x46 c) = true) ∧
      digitsVal 16 digits = (crcBytes s.inBytes).toNat

/-- R114, R116: CRC32.HEX on a string whose bytes other than whitespace spell `bs`, at least one byte. -/
def Obligations.CrcHexResult : Prop :=
  ∀ (s : State) (bs : List Byte), s.inLen.toNat ≤ s.params.ibufSize → bs ≠ [] →
    Spells (s.inBytes.filter (fun c => !isWs c)) bs →
    ∃ t digits, exec .crc32Hex s = .next t ∧
      Succeeded s t ((crcBytes bs).setWidth 64) 0 0 0 0 (digits ++ [lf]) false false ∧
      digits.length = 8 ∧ (∀ c ∈ digits, (isDec c || between 0x41 0x46 c) = true) ∧
      digitsVal 16 digits = (crcBytes bs).toNat

/-- R115, R116, R118: the errors of the CRC commands. -/
def Obligations.CrcErrors : Prop :=
  (∀ s : State, s.inLen.toNat ≤ s.params.ibufSize → (∀ c ∈ s.inBytes, isWs c = true) →
    (∃ t, exec .crc32Text s = .next t ∧ Failed s t .emptyInput 0 0) ∧
    (∃ t, exec .crc32Hex s = .next t ∧ Failed s t .emptyInput 0 0)) ∧
  (∀ s : State, s.inLen.toNat ≤ s.params.ibufSize →
    (∃ c ∈ s.inBytes, isWs c = false ∧ isHex c = false) ∨ (s.inBytes.filter (fun c => !isWs c)).length % 2 = 1 →
    ∃ t, exec .crc32Hex s = .next t ∧ Failed s t .invalidHexFormat 0 0)

/-- R117: on the same byte sequence, as text and spelled in hex with any whitespace, both modes give the same RES0 and output. -/
def Obligations.CrcModesAgree : Prop :=
  ∀ s u : State, s.inLen.toNat ≤ s.params.ibufSize → u.inLen.toNat ≤ u.params.ibufSize →
    (∃ c ∈ s.inBytes, isWs c = false) → Spells (u.inBytes.filter (fun c => !isWs c)) s.inBytes →
    ∃ t v, exec .crc32Text s = .next t ∧ exec .crc32Hex u = .next v ∧ t.status.errcode = 0 ∧ v.status.errcode = 0 ∧
      v.res0 = t.res0 ∧ v.outBytes = t.outBytes

/-! ### XOR fold -/

/-- R130: the tokens are the strings between runs of separators (`Tokenizes`), and nothing else is; each stands in the input at
its recorded offset with no separator in it, and they stand in input order. -/
def Obligations.TokensAreStretchesOfTheInput : Prop :=
  ∀ bs : List Byte,
    (∀ ts, Tokenizes 0 bs ts ↔ ts = tokens bs) ∧
    (∀ k ∈ tokens bs, k.text ≠ [] ∧ (bs.drop k.pos).take k.text.length = k.text ∧
      (∀ c ∈ k.text, isWs c = false ∧ c ≠ 0x2C) ∧ ¬ [0xEF, 0xBC, 0x8C] <:+: k.text) ∧
    (tokens bs).Pairwise (fun a b => a.pos + a.text.length < b.pos)

/-- R131, R132, R133, R134: XORFOLD on at least one token, which denote the values `vs`, all within 64 bits. -/
def Obligations.XorFoldResult : Prop :=
  ∀ (s : State) (vs : List Nat), s.inLen.toNat ≤ s.params.ibufSize → vs ≠ [] → (∀ v ∈ vs, v ≤ 2 ^ 64 - 1) →
    List.Forall₂ Denotes (tokenTexts s.inBytes) vs →
    ∃ t, exec .xorFold s = .next t ∧
      Succeeded s t (BitVec.ofNat 64 (xorAll vs)) 0 0 0 0
        (renderDec (xorAll vs) ++ [0x0A, 0x30, 0x78] ++ renderHex (xorAll vs) ++ [0x0A, 0x30, 0x62] ++
          renderBin (xorAll vs) ++ [0x0A]) false false

/-- R131, R134: XORFOLD reports the first token, in input order, that is of no class or too large; and EmptyInput where there
is none. -/
def Obligations.XorFoldReportsTheFirstBadToken : Prop :=
  (∀ s : State, s.inLen.toNat ≤ s.params.ibufSize → tokens s.inBytes = [] →
    ∃ t, exec .xorFold s = .next t ∧ Failed s t .emptyInput 0 0) ∧
  (∀ (s : State) (before after : List Token) (k : Token), s.inLen.toNat ≤ s.params.ibufSize →
    tokens s.inBytes = before ++ k :: after → (∀ g ∈ before, GoodToken g.text) →
    ((∀ v, ¬ Denotes k.text v) → ∃ t, exec .xorFold s = .next t ∧ Failed s t .invalidToken k.pos k.text.length) ∧
    (∀ v, Denotes k.text v → 2 ^ 64 - 1 < v →
      ∃ t, exec .xorFold s = .next t ∧ Failed s t .magnitudeOutOfRange k.pos k.text.length))

/-- R135: for any permutation of the same valid tokens XORFOLD gives the same RES0 and output; which error it reports depends
on the order: the same tokens, two of them bad, give InvalidToken in one order and MagnitudeOutOfRange in another. -/
def Obligations.XorFoldIsOrderIndependent : Prop :=
  (∀ s u : State, s.inLen.toNat ≤ s.params.ibufSize → u.inLen.toNat ≤ u.params.ibufSize →
    (tokenTexts s.inBytes).Perm (tokenTexts u.inBytes) → tokenTexts s.inBytes ≠ [] →
    (∀ k ∈ tokenTexts s.inBytes, GoodToken k) →
    ∃ t v, exec .xorFold s = .next t ∧ exec .xorFold u = .next v ∧ t.status.errcode = 0 ∧ v.status.errcode = 0 ∧
      v.res0 = t.res0 ∧ v.outBytes = t.outBytes) ∧
  (∃ s u t v : State, s.params = u.params ∧ s.inLen.toNat ≤ s.params.ibufSize ∧ u.inLen.toNat ≤ u.params.ibufSize ∧
    (tokenTexts s.inBytes).Perm (tokenTexts u.inBytes) ∧ exec .xorFold s = .next t ∧ exec .xorFold u = .next v ∧
    t.status.errcode = 3 ∧ v.status.errcode = 9)

/-! ### Base64 -/

/-- R150, R151, R152: B64.ENC on any bytes, the empty string included. -/
def Obligations.B64EncResult : Prop :=
  ∀ s : State, s.params.wellFormed = true → s.inLen.toNat ≤ s.params.ibufSize →
    ∃ t chars, exec .b64Enc s = .next t ∧ B64Encodes s.inBytes chars ∧ Succeeded s t 0 0 0 0 0 chars false false ∧
      t.outLen.toNat = 4 * ((s.inLen.toNat + 2) / 3)

/-- R150, R153, R154, R155: B64.DEC, its three outcomes. Input that decodes to nothing is InvalidAlphabet, a byte outside the
alphabet among it. -/
def Obligations.B64DecResult : Prop :=
  ∀ s : State, s.params.wellFormed = true → s.inLen.toNat ≤ s.params.ibufSize →
    ((∃ c ∈ s.inBytes, c ≠ 0x3D ∧ ∀ v, ¬ SixBits c v) ∨ (∀ r, ¬ B64Decodes s.inBytes r) →
      ∃ t, exec .b64Dec s = .next t ∧ Failed s t .invalidAlphabet 0 0) ∧
    (∀ r, B64Decodes s.inBytes r →
      (¬ Utf8 r → ∃ t, exec .b64Dec s = .next t ∧ Failed s t .invalidUtf8 0 0) ∧
      (Utf8 r → ∃ t, exec .b64Dec s = .next t ∧ Succeeded s t 0 0 0 0 0 r false false))

/-- R156: decoding what B64.ENC put out for valid UTF-8 gives the input back. -/
def Obligations.B64RoundTrip : Prop :=
  ∀ s u t : State, s.params.wellFormed = true → u.params.wellFormed = true → s.inLen.toNat ≤ s.params.ibufSize →
    Utf8 s.inBytes → exec .b64Enc s = .next t → u.inBytes = t.outBytes → u.inLen.toNat ≤ u.params.ibufSize →
    ∃ v, exec .b64Dec u = .next v ∧ v.status.errcode = 0 ∧ v.outBytes = s.inBytes

/-! ### Radix conversion -/

/-- R12: rendering in the four radixes: digits of the radix whose value is the number, without a leading zero but for 0,
and no letter in lower case. R11: the character classes and the values of digits, which these statements speak of. -/
def Obligations.RenderingIsCanonical : Prop :=
  (∀ c : Byte, (isWs c = true ↔ c.toNat ∈ [0x09, 0x0A, 0x0B, 0x0C, 0x0D, 0x20]) ∧
    (isDec c = true ↔ 0x30 ≤ c.toNat ∧ c.toNat ≤ 0x39) ∧ (isOct c = true ↔ 0x30 ≤ c.toNat ∧ c.toNat ≤ 0x37) ∧
    (isBin c = true ↔ c.toNat = 0x30 ∨ c.toNat = 0x31) ∧
    (isHex c = true ↔ 0x30 ≤ c.toNat ∧ c.toNat ≤ 0x39 ∨ 0x41 ≤ c.toNat ∧ c.toNat ≤ 0x46 ∨ 0x61 ≤ c.toNat ∧ c.toNat ≤ 0x66) ∧
    (0x30 ≤ c.toNat ∧ c.toNat ≤ 0x39 → digitVal c = c.toNat - 0x30) ∧
    (0x41 ≤ c.toNat ∧ c.toNat ≤ 0x46 → digitVal c = 10 + (c.toNat - 0x41)) ∧
    (0x61 ≤ c.toNat ∧ c.toNat ≤ 0x66 → digitVal c = 10 + (c.toNat - 0x61))) ∧
  [Radix.r2, .r8, .r10, .r16].map radixBase = [2, 8, 10, 16] ∧
  [Radix.r2, .r8, .r10, .r16].map radixDigit = [isBin, isOct, isDec, isHex] ∧
  (∀ (r : Nat) (s : List Byte) (c : Byte), digitsVal r [] = 0 ∧ digitsVal r (s ++ [c]) = digitsVal r s * r + digitVal c) ∧
  ∀ (q : Radix) (m : Nat), Digits (radixDigit q) (radixDigits q m) ∧ digitsVal (radixBase q) (radixDigits q m) = m ∧
    (m ≠ 0 → (radixDigits q m).head? ≠ some 0x30) ∧ (m = 0 → radixDigits q m = [0x30]) ∧
    ∀ c ∈ radixDigits q m, c.toNat < 0x61

/-- R181 to R186: BCONV on a non-empty string of digits of its radix, of magnitude at most 2^64 - 1: RES0 and three lines. -/
def Obligations.BconvResult : Prop :=
  ∀ (i : Instr) (r : Radix) (s : State), bconvRadixOf i = some r → s.inLen.toNat ≤ s.params.ibufSize →
    Digits (radixDigit r) s.inBytes → digitsVal (radixBase r) s.inBytes ≤ 2 ^ 64 - 1 →
    ∃ t, exec i s = .next t ∧
      Succeeded s t (BitVec.ofNat 64 (digitsVal (radixBase r) s.inBytes)) 0 0 0 0
        ((if r = .r2 then [] else [0x30, 0x62] ++ renderBin (digitsVal (radixBase r) s.inBytes) ++ [0x0A]) ++
          (if r = .r8 then [] else [0x30, 0x6F] ++ renderOct (digitsVal (radixBase r) s.inBytes) ++ [0x0A]) ++
          (if r = .r10 then [] else renderDec (digitsVal (radixBase r) s.inBytes) ++ [0x0A]) ++
          (if r = .r16 then [] else [0x30, 0x78] ++ renderHex (digitsVal (radixBase r) s.inBytes) ++ [0x0A])) false false

/-- R180, R181: the errors of BCONV, in order. -/
def Obligations.BconvErrors : Prop :=
  ∀ (i : Instr) (r : Radix) (s : State), bconvRadixOf i = some r → s.inLen.toNat ≤ s.params.ibufSize →
    (s.inLen = 0 → ∃ t, exec i s = .next t ∧ Failed s t .emptyInput 0 0) ∧
    ((∃ c ∈ s.inBytes, radixDigit r c = false) → ∃ t, exec i s = .next t ∧ Failed s t .invalidDigitForRadix 0 0) ∧
    (Digits (radixDigit r) s.inBytes → 2 ^ 64 - 1 < digitsVal (radixBase r) s.inBytes →
      ∃ t, exec i s = .next t ∧ Failed s t .magnitudeOutOfRange 0 0)

/-- R187: the digits that a radix's line shows for a magnitude, converted from that radix, give the magnitude back and show every
other radix's canonical line. -/
def Obligations.BconvRoundTrip : Prop :=
  ∀ (i : Instr) (q r : Radix) (m : Nat) (s : State), bconvRadixOf i = some q → r ≠ q → m ≤ 2 ^ 64 - 1 →
    s.inLen.toNat ≤ s.params.ibufSize → s.inBytes = radixDigits q m →
    ∃ t, exec i s = .next t ∧ t.status.errcode = 0 ∧ t.res0 = BitVec.ofNat 64 m ∧
      ∃ above below, t.outBytes = above ++ (radixMark r ++ radixDigits r m ++ [lf]) ++ below ∧
        (above = [] ∨ above.getLast? = some lf)

/-! ### Storage units -/

/-- What a STOR command leaves for a number of bytes (R205, R209, R210). -/
def StorLeaves (s t : State) (bytes : DWord) : Prop :=
  Succeeded s t (F64.mul bytes (F64.ofNat 8)) bytes (F64.div bytes (F64.ofNat 1024)) (F64.div bytes (F64.ofNat 1048576))
    (F64.div bytes (F64.ofNat 1073741824)) (storLines bytes) false false

/-- R201, R202, R212: STOR.REG on each of its three shapes, with whitespace around. -/
def Obligations.StorRegResult : Prop :=
  ∀ (s : State) (lead core trail : List Byte), s.inLen.toNat ≤ s.params.ibufSize → s.inBytes = lead ++ core ++ trail →
    (∀ c ∈ lead ++ trail, isWs c = true) →
    (Digits isDec core → digitsVal 10 core ≤ 2 ^ 64 - 1 →
      ∃ t, exec .storReg s = .next t ∧ StorLeaves s t (F64.ofNat (digitsVal 10 core))) ∧
    (∀ h, core = [0x30, 0x78] ++ h → Digits isHex h → digitsVal 16 h ≤ 2 ^ 64 - 1 →
      ∃ t, exec .storReg s = .next t ∧ StorLeaves s t (F64.ofNat (digitsVal 16 h))) ∧
    (∀ hs w1 w2 he, core = [0x30, 0x78] ++ hs ++ w1 ++ [0x2D] ++ w2 ++ [0x30, 0x78] ++ he → Digits isHex hs → Digits isHex he →
      (∀ c ∈ w1 ++ w2, isWs c = true) → digitsVal 16 hs ≤ digitsVal 16 he → digitsVal 16 he ≤ 2 ^ 64 - 1 →
      digitsVal 16 he - digitsVal 16 hs + 1 ≤ 2 ^ 64 - 1 →
      ∃ t, exec .storReg s = .next t ∧ StorLeaves s t (F64.ofNat (digitsVal 16 he - digitsVal 16 hs + 1)))

/-- R200, R201, R202, R212: the errors of STOR.REG, whatever whitespace stands around the input: a count above 64 bits, the range
errors in their order, and input of no shape. -/
def Obligations.StorRegErrors : Prop :=
  ∀ (s : State) (lead core trail : List Byte), s.inLen.toNat ≤ s.params.ibufSize → s.inBytes = lead ++ core ++ trail →
    (∀ c ∈ lead ++ trail, isWs c = true) → Trimmed core →
    (¬ RegisterShape core → ∃ t, exec .storReg s = .next t ∧ Failed s t .invalidNumericFormat 0 0) ∧
    (Digits isDec core → 2 ^ 64 - 1 < digitsVal 10 core →
      ∃ t, exec .storReg s = .next t ∧ Failed s t .magnitudeOutOfRange 0 0) ∧
    (∀ h, HexShape core h → 2 ^ 64 - 1 < digitsVal 16 h →
      ∃ t, exec .storReg s = .next t ∧ Failed s t .magnitudeOutOfRange 0 0) ∧
    (∀ hs he, RangeShape core hs he →
      (2 ^ 64 - 1 < digitsVal 16 hs ∨ 2 ^ 64 - 1 < digitsVal 16 he →
        ∃ t, exec .storReg s = .next t ∧ Failed s t .magnitudeOutOfRange 0 0) ∧
      (digitsVal 16 hs ≤ 2 ^ 64 - 1 → digitsVal 16 he < digitsVal 16 hs →
        ∃ t, exec .storReg s = .next t ∧ Failed s t .invalidRange 0 0) ∧
      (digitsVal 16 hs = 0 → digitsVal 16 he = 2 ^ 64 - 1 →
        ∃ t, exec .storReg s = .next t ∧ Failed s t .magnitudeOutOfRange 0 0))

/-- R203, R204, R213 to R217: the five unit commands on a plain number, whole or with a fraction, whose value and bits are
finite. -/
def Obligations.StorUnitResult : Prop :=
  ∀ (i : Instr) (s : State) (lead core trail whole frac : List Byte) (bytes : DWord), s.inLen.toNat ≤ s.params.ibufSize →
    s.inBytes = lead ++ core ++ trail → (∀ c ∈ lead ++ trail, isWs c = true) → PlainNumber core whole frac →
    UnitBytes i (plainF64 whole frac) bytes → F64.isFinite (plainF64 whole frac) = true →
    F64.isFinite (F64.mul bytes (F64.ofNat 8)) = true →
    ∃ t, exec i s = .next t ∧ StorLeaves s t bytes

/-- R200, R203, R204, R205: the errors of the unit commands. Input of another shape than a plain number (with another byte, a
misplaced point, whitespace inside, or empty) is InvalidNumericFormat; a value, a number of bytes or a number of bits that is
infinite is MagnitudeOutOfRange. -/
def Obligations.StorUnitRejects : Prop :=
  ∀ (i : Instr) (s : State) (lead core trail : List Byte), (storUnitOf i).isSome = true → i ≠ .storReg →
    s.inLen.toNat ≤ s.params.ibufSize → s.inBytes = lead ++ core ++ trail → (∀ c ∈ lead ++ trail, isWs c = true) →
    Trimmed core →
    ((∀ whole frac, ¬ PlainNumber core whole frac) →
      ∃ t, exec i s = .next t ∧ Failed s t .invalidNumericFormat 0 0) ∧
    ((∃ c ∈ core, (isDec c || c == 0x2E) = false) ∨ core = [] →
      ∃ t, exec i s = .next t ∧ Failed s t .invalidNumericFormat 0 0) ∧
    (∀ whole frac bytes, PlainNumber core whole frac → UnitBytes i (plainF64 whole frac) bytes →
      F64.isInf (plainF64 whole frac) = true ∨ F64.isInf bytes = true ∨ F64.isInf (F64.mul bytes (F64.ofNat 8)) = true →
      ∃ t, exec i s = .next t ∧ Failed s t .magnitudeOutOfRange 0 0)

/-- R219: the inclusive range "0x0000-0x4000" sizes to 16385 bytes, with the registers and text of the spec's vector S1. -/
def Obligations.InclusiveRangeSizes : Prop :=
  ∀ s : State, s.inLen.toNat ≤ s.params.ibufSize →
    s.inBytes = [0x30, 0x78, 0x30, 0x30, 0x30, 0x30, 0x2D, 0x30, 0x78, 0x34, 0x30, 0x30, 0x30] →
    ∃ t, exec .storReg s = .next t ∧
      Succeeded s t 0x4100004000000000 0x40D0004000000000 0x4030004000000000 0x3F90004000000000 0x3EF0004000000000
        [0x62, 0x69, 0x74, 0x73, 0x3D, 0x31, 0x33, 0x31, 0x30, 0x38, 0x30, 0x0A, 0x62, 0x79, 0x74, 0x65, 0x73, 0x3D,
         0x31, 0x36, 0x33, 0x38, 0x35, 0x0A, 0x4B, 0x42, 0x3D, 0x31, 0x36, 0x2E, 0x30, 0x0A, 0x4D, 0x42, 0x3D, 0x30,
         0x2E, 0x30, 0x31, 0x36, 0x0A] false false

/-- R13: fixed-point text shows the integer nearest to `x * 10^k`, ties to the larger, with exactly `k` digits after the point. -/
def Obligations.FixedPointText : Prop :=
  ∀ (x : DWord) (k : Nat), F64.isFinite x = true → F64.sign x = false →
    ∃ m : Nat, 2 * m * 2 ^ 1074 ≤ 2 * (F64.units x * 10 ^ k) + 2 ^ 1074 ∧
      2 * (F64.units x * 10 ^ k) + 2 ^ 1074 < 2 * (m + 1) * 2 ^ 1074 ∧
      (k = 0 → F64.fixed x k = renderDec m) ∧
      (k ≠ 0 → ∃ digits : List Byte, digits.length = k ∧ (∀ c ∈ digits, isDec c = true) ∧ digitsVal 10 digits = m % 10 ^ k ∧
        F64.fixed x k = renderDec (m / 10 ^ k) ++ [0x2E] ++ digits)

/-- R206, R207, R208, R210: which lines a storage command puts out and with how many places, by the exact values. -/
def Obligations.StorageLinesFollowTheValues : Prop :=
  storThreshold = 0x3F50624DD2F1A9FC ∧
  (∀ (name : List Byte) (x : DWord), F64.isFinite x = true → F64.sign x = false →
    unitLine name x =
      if F64.units storThreshold ≤ F64.units x then
        name ++ [0x3D] ++
          F64.fixed x (if 100 * 2 ^ 1074 ≤ F64.units x then 0 else if 10 * 2 ^ 1074 ≤ F64.units x then 1 else 3) ++ [0x0A]
      else []) ∧
  (∀ x : DWord, (2 ^ 1074 ∣ F64.units x → countText x = F64.fixed x 0) ∧
    (¬ 2 ^ 1074 ∣ F64.units x → countText x = F64.fixed x 3)) ∧
  (∀ bytes : DWord, storLines bytes =
    [0x62, 0x69, 0x74, 0x73, 0x3D] ++ countText (F64.mul bytes (F64.ofNat 8)) ++ [0x0A] ++
      [0x62, 0x79, 0x74, 0x65, 0x73, 0x3D] ++ countText bytes ++ [0x0A] ++
      unitLine [0x4B, 0x42] (F64.div bytes (F64.ofNat 1024)) ++ unitLine [0x4D, 0x42] (F64.div bytes (F64.ofNat 1048576)) ++
      unitLine [0x47, 0x42] (F64.div bytes (F64.ofNat 1073741824)))

/-! ### Binary64 and the clock solver -/

/-- R9, R95: the model reads a pattern's class, sign and exact value from its fields. -/
def PatternsAreBinary64 : Prop :=
  ∀ x : DWord, (F64.isFinite x = true ↔ FiniteBits x) ∧ (F64.isInf x = true ↔ InfiniteBits x) ∧
    (F64.isNaN x = true ↔ NanBits x) ∧ F64.sign x = x.msb ∧ F64.units x = exactUnits x

/-- R9: `toF64`, of a rational (`ofRat`, `toF64`) and of an integer, is one rounding; R10: `roundHalfUp` gives the integer nearest
to the exact value, ties upward. For a negative rational R9 gives +infinity too, and where it is nearest to zero the sign is
log entry 21 and is not stated. -/
def ConversionsRoundOnce : Prop :=
  (∀ n d, 0 < d → RoundsTo false (n * 2 ^ 1074) d (F64.ofRat n d)) ∧
  (∀ n, RoundsTo false (n * 2 ^ 1074) 1 (F64.ofNat n)) ∧
  (∀ r : Rat, r.den * (2 ^ 1024 - 2 ^ 970) ≤ r.num.natAbs → F64.toF64 r = 0x7FF0000000000000) ∧
  (∀ r : Rat, r.num.natAbs < r.den * (2 ^ 1024 - 2 ^ 970) → 0 ≤ r ∨ exactUnits (F64.toF64 r) ≠ 0 →
    RoundsTo (decide (r < 0)) (r.num.natAbs * 2 ^ 1074) r.den (F64.toF64 r)) ∧
  (∀ q, FiniteBits q → q.msb = false → ∃ n : Nat, F64.roundHalfUp q = .int n ∧
    2 * n * 2 ^ 1074 ≤ 2 * exactUnits q + 2 ^ 1074 ∧ 2 * exactUnits q + 2 ^ 1074 < 2 * (n + 1) * 2 ^ 1074) ∧
  F64.roundHalfUp 0x7FF0000000000000 = .infinite

/-- R9: `fl(a / b)`, one rounding of the exact quotient, and IEEE 754's special results. -/
def QuotientsRoundOnce : Prop :=
  ∀ a b : DWord,
    (FiniteBits a → FiniteBits b → exactUnits b ≠ 0 →
      RoundsTo (a.msb ^^ b.msb) (exactUnits a * 2 ^ 1074) (exactUnits b) (F64.div a b)) ∧
    (FiniteBits a → exactUnits a ≠ 0 → FiniteBits b → exactUnits b = 0 → F64.div a b = signedInf (a.msb ^^ b.msb)) ∧
    (FiniteBits a → exactUnits a = 0 → FiniteBits b → exactUnits b = 0 → F64.div a b = 0x7FF8000000000000) ∧
    (InfiniteBits a → FiniteBits b → F64.div a b = signedInf (a.msb ^^ b.msb)) ∧
    (FiniteBits a → InfiniteBits b → F64.div a b = signedZero (a.msb ^^ b.msb)) ∧
    (InfiniteBits a → InfiniteBits b → F64.div a b = 0x7FF8000000000000) ∧
    (NanBits a ∨ NanBits b → F64.div a b = 0x7FF8000000000000)

/-- R9: `fl(a * b)`, one rounding of the exact product, and IEEE 754's special results. -/
def ProductsRoundOnce : Prop :=
  ∀ a b : DWord,
    (FiniteBits a → FiniteBits b → RoundsTo (a.msb ^^ b.msb) (exactUnits a * exactUnits b) (2 ^ 1074) (F64.mul a b)) ∧
    (InfiniteBits a → InfiniteBits b ∨ FiniteBits b ∧ exactUnits b ≠ 0 → F64.mul a b = signedInf (a.msb ^^ b.msb)) ∧
    (InfiniteBits b → InfiniteBits a ∨ FiniteBits a ∧ exactUnits a ≠ 0 → F64.mul a b = signedInf (a.msb ^^ b.msb)) ∧
    (InfiniteBits a → FiniteBits b → exactUnits b = 0 → F64.mul a b = 0x7FF8000000000000) ∧
    (FiniteBits a → exactUnits a = 0 → InfiniteBits b → F64.mul a b = 0x7FF8000000000000) ∧
    (NanBits a ∨ NanBits b → F64.mul a b = 0x7FF8000000000000)

/-- R9: `fl(a + b)` and `fl(a - b)`, one rounding of the exact sum or difference, and IEEE 754's special results. An exact zero
is +0, but for the sum of two negative zeros and -0 less +0. -/
def SumsRoundOnce : Prop :=
  ∀ a b : DWord,
    (FiniteBits a → FiniteBits b →
      (exactValue a + exactValue b ≠ 0 →
        RoundsTo (decide (exactValue a + exactValue b < 0)) (exactValue a + exactValue b).natAbs 1 (F64.add a b)) ∧
      (exactValue a + exactValue b = 0 → F64.add a b = signedZero (a.msb && b.msb)) ∧
      (exactValue a - exactValue b ≠ 0 →
        RoundsTo (decide (exactValue a - exactValue b < 0)) (exactValue a - exactValue b).natAbs 1 (F64.sub a b)) ∧
      (exactValue a - exactValue b = 0 → F64.sub a b = signedZero (a.msb && !b.msb))) ∧
    (InfiniteBits a → FiniteBits b → F64.add a b = a ∧ F64.sub a b = a) ∧
    (FiniteBits a → InfiniteBits b → F64.add a b = b ∧ F64.sub a b = signedInf (!b.msb)) ∧
    (InfiniteBits a → InfiniteBits b → a.msb = b.msb → F64.add a b = a ∧ F64.sub a b = 0x7FF8000000000000) ∧
    (InfiniteBits a → InfiniteBits b → a.msb ≠ b.msb → F64.add a b = 0x7FF8000000000000 ∧ F64.sub a b = a) ∧
    (NanBits a ∨ NanBits b → F64.add a b = 0x7FF8000000000000 ∧ F64.sub a b = 0x7FF8000000000000)

/-- R9, R10: rounding gives the nearest binary64 (no finite one is nearer), the even one of two equally near, and infinity
exactly from 2^1024 - 2^970 on (in units of 2^-1074); and each conversion and operation of R9 is exactly one such rounding of
its exact result. The signs of zeros and the special results are IEEE 754's, which R9 names (log entry 12, PRESUMED). -/
def Obligations.RoundingIsNearestEven : Prop :=
  (∀ n d : Nat, 0 < d →
    (F64.roundMag n d < F64.infMag → ∀ m, m < F64.infMag →
      ((F64.magUnits (F64.roundMag n d) : Int) * d - n).natAbs ≤ ((F64.magUnits m : Int) * d - n).natAbs ∧
      (m ≠ F64.roundMag n d →
        ((F64.magUnits (F64.roundMag n d) : Int) * d - n).natAbs = ((F64.magUnits m : Int) * d - n).natAbs →
        F64.roundMag n d % 2 = 0)) ∧
    (F64.roundMag n d = F64.infMag ↔ d * (2 ^ 2098 - 2 ^ 2044) ≤ n)) ∧
  PatternsAreBinary64 ∧ ConversionsRoundOnce ∧ QuotientsRoundOnce ∧ ProductsRoundOnce ∧ SumsRoundOnce

/-- R240: an operand outside its domain makes every clock command complete with InvalidArgument. -/
def Obligations.ClockOperandsAreChecked : Prop :=
  ∀ s : State,
    (¬ PositiveFinite s.arg0 ∨ ¬ PositiveFinite s.arg1 ∨ ¬ DutyInRange s.arg2 →
      ∃ t, exec .clkSolve s = .next t ∧ Failed s t .invalidArgument 0 0) ∧
    (∀ i u, pureUnitOf i = some u →
      ¬ PositiveFinite s.arg0 ∨ ¬ PositiveFinite s.arg1 ∨ s.arg2.extractLsb' 0 32 = 0 →
      ∃ t, exec i s = .next t ∧ Failed s t .invalidArgument 0 0)

/-- R241 to R248: CLK.SOLVE on valid operands: the first divider that fits; else divider 1 with UNF where p(1) < 0; else
divider 128 with OVF; and the duty register `dr` of R246, nearest to fl(fl(p * duty) / 100) with ties upward (R10, in units of
2^-1074). -/
def Obligations.ClkSolveResult : Prop :=
  Config.ladder = [1, 2, 4, 8, 16, 32, 64, 128] ∧
  ∀ s : State, PositiveFinite s.arg0 → PositiveFinite s.arg1 → DutyInRange s.arg2 →
    (∀ d, period s.arg0 s.arg1 d =
      match F64.roundHalfUp (F64.div (F64.div s.arg0 (F64.ofNat d)) s.arg1) with
      | .int n => some ((n : Int) - 1)
      | .infinite => none) ∧
    ∃ t d p dr ratio ovf unf, exec .clkSolve s = .next t ∧
      Succeeded s t (BitVec.ofNat 64 d) (BitVec.ofNat 64 p) (BitVec.ofNat 64 dr)
        (F64.div (F64.div s.arg0 (F64.ofNat d)) (F64.ofNat (p + 1))) 0 [] ovf unf ∧
      ratio = F64.div (F64.mul (F64.ofNat p) s.arg2) (F64.ofNat 100) ∧ F64.isFinite ratio = true ∧
      2 * dr * 2 ^ 1074 ≤ 2 * F64.units ratio + 2 ^ 1074 ∧ 2 * F64.units ratio + 2 ^ 1074 < 2 * (dr + 1) * 2 ^ 1074 ∧
      ((∃ before after, Config.ladder = before ++ d :: after ∧ period s.arg0 s.arg1 d = some (p : Int) ∧ p ≤ 65535 ∧
          (∀ d' ∈ before, ∀ p', period s.arg0 s.arg1 d' = some p' → p' < 0 ∨ 65535 < p') ∧ ovf = false ∧ unf = false) ∨
       ((∀ d' ∈ Config.ladder, ∀ p', period s.arg0 s.arg1 d' = some p' → p' < 0 ∨ 65535 < p') ∧
          (((∃ p', period s.arg0 s.arg1 1 = some p' ∧ p' < 0) ∧ d = 1 ∧ p = 0 ∧ ovf = false ∧ unf = true) ∨
           ((∀ p', period s.arg0 s.arg1 1 = some p' → 0 ≤ p') ∧ d = 128 ∧ p = 65535 ∧ ovf = true ∧ unf = false))))

/-- R249: p(d) does not rise along the ladder; a divider after one with p(d) >= 65536 has p(2d) >= 32766; and when no divider
fits then every p(d) is above 65535 or every p(d) is below 0. -/
def Obligations.LadderIsConsistent : Prop :=
  ∀ src tgt : DWord, PositiveFinite src → PositiveFinite tgt →
    (∀ d ∈ Config.ladder, ∀ d' ∈ Config.ladder, d ≤ d' → ∀ p, period src tgt d = some p →
      ∃ p', period src tgt d' = some p' ∧ p' ≤ p) ∧
    (∀ d ∈ Config.ladder, 2 * d ∈ Config.ladder → (∀ p, period src tgt d = some p → 65536 ≤ p) →
      ∀ p', period src tgt (2 * d) = some p' → 32766 ≤ p') ∧
    ((∀ d ∈ Config.ladder, ∀ p, period src tgt d = some p → p < 0 ∨ 65535 < p) →
      (∀ d ∈ Config.ladder, ∀ p, period src tgt d = some p → 65535 < p) ∨
      (∀ d ∈ Config.ladder, ∃ p, period src tgt d = some p ∧ p < 0))

/-- R255: for every valid operand triple CLK.SOLVE completes without error with a period of 16 bits, a duty register not above
it, a divider of the ladder, and OVF only when every divider gives p(d) > 65535. -/
def Obligations.ClkSolveStaysInRange : Prop :=
  ∀ s : State, PositiveFinite s.arg0 → PositiveFinite s.arg1 → DutyInRange s.arg2 →
    ∃ t, exec .clkSolve s = .next t ∧ t.status.errcode = 0 ∧ t.res1.toNat ≤ 65535 ∧ t.res2.toNat ≤ t.res1.toNat ∧
      t.res0.toNat ∈ Config.ladder ∧
      (t.status.ovf = true → ∀ d ∈ Config.ladder, ∀ p, period s.arg0 s.arg1 d = some p → 65535 < p)

/-- R250 to R254: the pure mode in each time unit, one binary64 operation at a time. -/
def Obligations.ClkPureResult : Prop :=
  ∀ (i : Instr) (u : DWord) (s : State), pureUnitOf i = some u → PositiveFinite s.arg0 → PositiveFinite s.arg1 →
    s.arg2.extractLsb' 0 32 ≠ 0 →
    ∃ t n p ach, exec i s = .next t ∧
      Succeeded s t ((s.arg2.extractLsb' 0 32).setWidth 64) p 0 ach (F64.div (F64.div (F64.ofNat 1) ach) u) [] false false ∧
      (n = match F64.roundHalfUp (F64.div (F64.div s.arg0 (F64.ofNat (s.arg2.extractLsb' 0 32).toNat)) s.arg1) with
        | .int k => F64.ofNat k
        | .infinite => 0x7FF0000000000000) ∧
      p = F64.sub n (F64.ofNat 1) ∧
      ach = F64.div (F64.div s.arg0 (F64.ofNat (s.arg2.extractLsb' 0 32).toNat)) (F64.add p (F64.ofNat 1))
end

