-- ==== Sys2Proof/Laws/Base64.lean ====
section
/-! SUPPORT. The Base64 coder and the UTF-8 check agree with the shapes of Safety.lean: one lemma per function. -/

namespace Sys2Proof.Machine

/-! ### The alphabet (R150) -/

theorem enc6_sixBits {v : Nat} (h : v < 64) : SixBits (enc6 v) v := by
  have : ∀ v : Fin 64, SixBits (enc6 v) v := by unfold SixBits; decide
  exact this ⟨v, h⟩

/-- A character stands for a value exactly where it is in `B64`, and then for its `dec6`. -/
theorem sixBits_iff {c : Byte} {v : Nat} : SixBits c v ↔ isB64 c = true ∧ v = dec6 c := by
  have hv : SixBits c v → v < 64 := by unfold SixBits; omega
  have : ∀ (c : Byte) (v : Fin 64), SixBits c v ↔ isB64 c = true ∧ v.val = dec6 c := by unfold SixBits; decide +kernel
  have hd : ∀ c : Byte, isB64 c = true → dec6 c < 64 := by decide
  exact ⟨fun h => (this c ⟨v, hv h⟩).1 h, fun h => (this c ⟨v, h.2 ▸ hd c h.1⟩).2 h⟩

theorem dec6_lt {c : Byte} (h : isB64 c = true) : dec6 c < 64 := by
  revert c; decide

/-! ### Encoding (R151) -/

/-- `b64encode` gives the Base64 text of any bytes. -/
theorem b64Encode_encodes : ∀ s : List Byte, B64Encodes s (b64Encode s)
  | [] => .nil
  | [a] => by
    have ha := a.isLt
    simp only [b64Encode, groupValue, sextet]
    exact .one _ _ _ (by convert enc6_sixBits (v := a.toNat / 4) (by omega) using 2; simp; omega)
      (by convert enc6_sixBits (v := a.toNat % 4 * 16) (by omega) using 2; simp; omega)
  | [a, b] => by
    have ha := a.isLt
    have hb := b.isLt
    simp only [b64Encode, groupValue, sextet]
    exact .two _ _ _ _ _ (by convert enc6_sixBits (v := a.toNat / 4) (by omega) using 2; simp; omega)
      (by convert enc6_sixBits (v := a.toNat % 4 * 16 + b.toNat / 16) (by omega) using 2; simp; omega)
      (by convert enc6_sixBits (v := b.toNat % 16 * 4) (by omega) using 2; simp; omega)
  | a :: b :: c :: rest => by
    have ha := a.isLt
    have hb := b.isLt
    have hc := c.isLt
    simp only [b64Encode, groupValue, sextet]
    exact .three _ _ _ _ _ _ _ _ _ (by convert enc6_sixBits (v := a.toNat / 4) (by omega) using 2; simp; omega)
      (by convert enc6_sixBits (v := a.toNat % 4 * 16 + b.toNat / 16) (by omega) using 2; simp; omega)
      (by convert enc6_sixBits (v := b.toNat % 16 * 4 + c.toNat / 64) (by omega) using 2; simp; omega)
      (by convert enc6_sixBits (v := c.toNat % 64) (by omega) using 2; simp; omega) (b64Encode_encodes rest)

/-! ### Decoding (R153) -/

/-- The bit loop over one group of four characters, whatever bits stand above it. -/
theorem b64Bits_four (bits : Nat) {c0 c1 c2 c3 : Byte} (h0 : isB64 c0 = true) (h1 : isB64 c1 = true) (h2 : isB64 c2 = true)
    (h3 : isB64 c3 = true) (s : List Byte) :
    b64Bits bits 0 (c0 :: c1 :: c2 :: c3 :: s) =
      BitVec.ofNat 8 (dec6 c0 * 4 + dec6 c1 / 16) :: BitVec.ofNat 8 (dec6 c1 % 16 * 16 + dec6 c2 / 4) ::
        BitVec.ofNat 8 (dec6 c2 % 4 * 64 + dec6 c3) ::
          b64Bits ((((bits * 64 + dec6 c0) * 64 + dec6 c1) * 64 + dec6 c2) * 64 + dec6 c3) 0 s := by
  have := dec6_lt h0; have := dec6_lt h1; have := dec6_lt h2; have := dec6_lt h3
  simp only [b64Bits, Nat.reduceAdd, Nat.reduceLeDiff, if_true, if_false, Nat.reduceSub, Nat.reducePow, List.cons.injEq,
    and_true]
  refine ⟨?_, ?_, ?_⟩ <;> (apply BitVec.eq_of_toNat_eq; simp only [BitVec.toNat_ofNat]; omega)

theorem b64Bits_three (bits : Nat) {c0 c1 c2 : Byte} (h0 : isB64 c0 = true) (h1 : isB64 c1 = true) (h2 : isB64 c2 = true) :
    b64Bits bits 0 [c0, c1, c2] =
      [BitVec.ofNat 8 (dec6 c0 * 4 + dec6 c1 / 16), BitVec.ofNat 8 (dec6 c1 % 16 * 16 + dec6 c2 / 4)] := by
  have := dec6_lt h0; have := dec6_lt h1; have := dec6_lt h2
  simp only [b64Bits, Nat.reduceAdd, Nat.reduceLeDiff, if_true, if_false, Nat.reduceSub, Nat.reducePow, List.cons.injEq,
    and_true]
  refine ⟨?_, ?_⟩ <;> (apply BitVec.eq_of_toNat_eq; simp only [BitVec.toNat_ofNat]; omega)

theorem b64Bits_two (bits : Nat) {c0 c1 : Byte} (h0 : isB64 c0 = true) (h1 : isB64 c1 = true) :
    b64Bits bits 0 [c0, c1] = [BitVec.ofNat 8 (dec6 c0 * 4 + dec6 c1 / 16)] := by
  have := dec6_lt h0; have := dec6_lt h1
  simp only [b64Bits, Nat.reduceAdd, Nat.reduceLeDiff, if_true, if_false, Nat.reduceSub, Nat.reducePow, List.cons.injEq,
    and_true]
  apply BitVec.eq_of_toNat_eq; simp only [BitVec.toNat_ofNat]; omega

theorem b64Groups_of_all : ∀ (s : List Byte) (bits : Nat), s.length % 4 ≠ 1 → (∀ c ∈ s, isB64 c = true) →
    B64Groups s (b64Bits bits 0 s)
  | [], _, _, _ => .nil
  | [_], _, hl, _ => absurd rfl hl
  | [c0, c1], bits, _, ha => by
    have h0 := ha c0 (by simp); have h1 := ha c1 (by simp)
    rw [b64Bits_two bits h0 h1]
    exact .two _ _ _ _ (sixBits_iff.2 ⟨h0, rfl⟩) (sixBits_iff.2 ⟨h1, rfl⟩)
  | [c0, c1, c2], bits, _, ha => by
    have h0 := ha c0 (by simp); have h1 := ha c1 (by simp); have h2 := ha c2 (by simp)
    rw [b64Bits_three bits h0 h1 h2]
    exact .three _ _ _ _ _ _ (sixBits_iff.2 ⟨h0, rfl⟩) (sixBits_iff.2 ⟨h1, rfl⟩) (sixBits_iff.2 ⟨h2, rfl⟩)
  | c0 :: c1 :: c2 :: c3 :: s, bits, hl, ha => by
    have h0 := ha c0 (by simp); have h1 := ha c1 (by simp); have h2 := ha c2 (by simp); have h3 := ha c3 (by simp)
    rw [b64Bits_four bits h0 h1 h2 h3]
    exact .four _ _ _ _ _ _ _ _ _ _ (sixBits_iff.2 ⟨h0, rfl⟩) (sixBits_iff.2 ⟨h1, rfl⟩) (sixBits_iff.2 ⟨h2, rfl⟩)
      (sixBits_iff.2 ⟨h3, rfl⟩)
      (b64Groups_of_all s _ (by simp only [List.length_cons] at hl; omega) fun c hc => ha c (by simp [hc]))

/-- The groups of a string of characters are what the bit loop puts out, from a group's start on. -/
theorem b64Groups_iff {s r : List Byte} (bits : Nat) :
    B64Groups s r ↔ s.length % 4 ≠ 1 ∧ (∀ c ∈ s, isB64 c = true) ∧ b64Bits bits 0 s = r := by
  refine ⟨fun h => ?_, fun h => h.2.2 ▸ b64Groups_of_all s bits h.1 h.2.1⟩
  induction h generalizing bits with
  | nil => simp [b64Bits]
  | two c0 c1 v0 v1 h0 h1 =>
    obtain ⟨k0, rfl⟩ := sixBits_iff.1 h0
    obtain ⟨k1, rfl⟩ := sixBits_iff.1 h1
    exact ⟨by simp, by simp [k0, k1], b64Bits_two bits k0 k1⟩
  | three c0 c1 c2 v0 v1 v2 h0 h1 h2 =>
    obtain ⟨k0, rfl⟩ := sixBits_iff.1 h0
    obtain ⟨k1, rfl⟩ := sixBits_iff.1 h1
    obtain ⟨k2, rfl⟩ := sixBits_iff.1 h2
    exact ⟨by simp, by simp [k0, k1, k2], b64Bits_three bits k0 k1 k2⟩
  | four c0 c1 c2 c3 v0 v1 v2 v3 chars bytes h0 h1 h2 h3 rest ih =>
    obtain ⟨k0, rfl⟩ := sixBits_iff.1 h0
    obtain ⟨k1, rfl⟩ := sixBits_iff.1 h1
    obtain ⟨k2, rfl⟩ := sixBits_iff.1 h2
    obtain ⟨k3, rfl⟩ := sixBits_iff.1 h3
    obtain ⟨hl, ha, -⟩ := ih 0
    refine ⟨by simp only [List.length_cons]; omega, ?_, ?_⟩
    · simpa [k0, k1, k2, k3] using ha
    · rw [b64Bits_four bits k0 k1 k2 k3, (ih _).2.2]

theorem isB64_pad : isB64 pad = false := by decide

theorem isB64Pad_iff {c : Byte} : isB64Pad c = true ↔ isB64 c = true ∨ c = pad := by
  simp [isB64Pad]

theorem pad_not_mem {chars : List Byte} (h : ∀ c ∈ chars, isB64 c = true) : pad ∉ chars := fun hm =>
  Bool.false_ne_true (isB64_pad.symm.trans (h pad hm))

/-- What `unpad` takes off is padding that R153 allows. -/
theorem unpad_spec (s : List Byte) : ∃ padding, s = unpad s ++ padding ∧
    (padding = [] ∨ (padding = [pad] ∨ padding = [pad, pad]) ∧ s.length % 4 = 0) := by
  unfold unpad
  split_ifs with h0 h2 h1
  · exact ⟨_, (List.take_append_drop _ _).symm, .inr ⟨.inr h2, h0⟩⟩
  · exact ⟨_, (List.take_append_drop _ _).symm, .inr ⟨.inl h1, h0⟩⟩
  · exact ⟨[], by simp, .inl rfl⟩
  · exact ⟨[], by simp, .inl rfl⟩

/-- Characters of the alphabet with padding that R153 allows lose just that padding. -/
theorem unpad_append {chars padding : List Byte} (hc : ∀ c ∈ chars, isB64 c = true)
    (hp : padding = [] ∨ (padding = [pad] ∨ padding = [pad, pad]) ∧ (chars ++ padding).length % 4 = 0) :
    unpad (chars ++ padding) = chars := by
  have hd : ∀ k l, pad ∈ l → chars.drop k ≠ l := fun k l hl he =>
    pad_not_mem hc (List.mem_of_mem_drop (he ▸ hl))
  rcases hp with rfl | ⟨rfl | rfl, h0⟩
  · rw [List.append_nil]
    unfold unpad
    rw [if_neg (hd _ _ (by simp)), if_neg (hd _ _ (by simp)), ite_self]
  · unfold unpad
    rw [if_pos h0, if_neg, if_pos]
    · simp
    · simp
    · intro h
      have hl : 3 ≤ chars.length := by simp at h0; omega
      have : (chars ++ [pad]).drop ((chars ++ [pad]).length - 2) = chars.drop (chars.length - 1) ++ [pad] := by
        rw [List.drop_append_of_le_length (by simp)]; simp
      rw [this] at h
      exact hd (chars.length - 1) [pad] (by simp) (List.append_cancel_right (bs := [pad]) h)
  · unfold unpad
    rw [if_pos h0, if_pos]
    · simp
    · simp

/-- `b64decode` on `B64PAD` bytes finds exactly what the structure of R153 gives. -/
theorem b64Decode_iff {s r : List Byte} :
    (∀ c ∈ s, isB64Pad c = true) ∧ b64Decode s = some r ↔ B64Decodes s r := by
  constructor
  · rintro ⟨ha, h⟩
    unfold b64Decode at h
    split_ifs at h with h1 h2
    cases h
    obtain ⟨padding, hs, hp⟩ := unpad_spec s
    refine ⟨unpad s, padding, hs, (b64Groups_iff 0).2 ⟨h1, fun c hc => ?_, rfl⟩, hp⟩
    rcases isB64Pad_iff.1 (ha c (by rw [hs]; simp [hc])) with h | rfl
    · exact h
    · exact absurd hc (by simpa using h2)
  · rintro ⟨chars, padding, rfl, hg, hp⟩
    obtain ⟨hl, ha, hb⟩ := (b64Groups_iff 0).1 hg
    refine ⟨fun c hc => isB64Pad_iff.2 ?_, ?_⟩
    · rcases List.mem_append.1 hc with h | h
      · exact .inl (ha c h)
      · rcases hp with rfl | ⟨rfl | rfl, -⟩ <;> simp at h
        · exact .inr h
        · exact .inr h
    · unfold b64Decode
      rw [unpad_append ha hp, if_neg hl, if_neg (by simpa using pad_not_mem ha), hb]

/-! ### UTF-8 (R154) -/

/-- The rows of the table by their first byte. -/
theorem utf8Lead_eq_some {b : Byte} {more : List (Nat × Nat)} :
    utf8Lead b = some more ↔ ∃ r, r :: more ∈ utf8Table ∧ r.1 ≤ b.toNat ∧ b.toNat ≤ r.2 := by
  constructor
  · have : ∀ b : Byte, ∀ more ∈ utf8Lead b, ∃ row ∈ utf8Table, row.tail = more ∧
        ∃ r ∈ row.head?, r.1 ≤ b.toNat ∧ b.toNat ≤ r.2 := by decide +kernel
    intro h
    obtain ⟨row, hr, ht, r, hh, hb⟩ := this b more h
    obtain ⟨t, rfl⟩ := List.head?_eq_some_iff.1 hh
    exact ⟨r, by rw [← ht]; exact hr, hb⟩
  · have : ∀ b : Byte, ∀ row ∈ utf8Table, ∀ r ∈ row.head?, r.1 ≤ b.toNat ∧ b.toNat ≤ r.2 → utf8Lead b = some row.tail := by
      decide +kernel
    rintro ⟨r, hr, hb⟩
    exact this b _ hr r rfl hb

/-- While the ranges `expected` are due, the rest of a sequence stands next and valid UTF-8 follows. -/
theorem utf8From_iff : ∀ {s : List Byte} {expected : List (Nat × Nat)},
    utf8From expected s = true ↔ ∃ q rest, s = q ++ rest ∧
      List.Forall₂ (fun (r : Nat × Nat) (b : Byte) => r.1 ≤ b.toNat ∧ b.toNat ≤ r.2) expected q ∧ Utf8 rest := by
  intro s
  induction s with
  | nil =>
    intro expected
    constructor
    · intro h
      cases expected with
      | nil => exact ⟨[], [], rfl, .nil, [], by simp, rfl⟩
      | cons a l => cases h
    · rintro ⟨q, rest, h, hq, -⟩
      obtain ⟨rfl, rfl⟩ := List.append_eq_nil_iff.1 h.symm
      cases hq; rfl
  | cons b s ih =>
    intro expected
    cases expected with
    | cons r more =>
      obtain ⟨lo, hi⟩ := r
      simp only [utf8From, Bool.and_eq_true, between, decide_eq_true_eq, ih]
      constructor
      · rintro ⟨hb, q, rest, rfl, hq, hr⟩
        exact ⟨b :: q, rest, rfl, .cons hb hq, hr⟩
      · rintro ⟨q, rest, h, hq, hr⟩
        cases hq with
        | cons hb hq =>
          cases h
          exact ⟨hb, _, _, rfl, hq, hr⟩
    | nil =>
      constructor
      · intro h
        simp only [utf8From] at h
        split at h
        · rename_i more hl
          obtain ⟨q, rest, rfl, hq, parts, hp, rfl⟩ := ih.1 h
          obtain ⟨r, hr, hb⟩ := utf8Lead_eq_some.1 hl
          refine ⟨[], b :: (q ++ parts.flatten), rfl, .nil, (b :: q) :: parts, ?_, by simp⟩
          intro q' hq'
          rcases List.mem_cons.1 hq' with rfl | hq'
          · exact ⟨_, hr, .cons hb hq⟩
          · exact hp _ hq'
        · cases h
      · rintro ⟨q, rest, h, hq, parts, hp, rfl⟩
        cases hq
        rw [List.nil_append] at h
        have hne : ∀ row ∈ utf8Table, row ≠ [] := by decide
        cases parts with
        | nil => cases h
        | cons p parts =>
          obtain ⟨row, hr, hf⟩ := hp p (by simp)
          cases hf with
          | nil => exact absurd rfl (hne _ hr)
          | cons hb hf =>
            simp only [List.flatten_cons, List.cons_append, List.cons.injEq] at h
            obtain ⟨rfl, rfl⟩ := h
            simp only [utf8From, utf8Lead_eq_some.2 ⟨_, hr, hb⟩]
            exact ih.2 ⟨_, _, rfl, hf, parts, fun q hq => hp q (by simp [hq]), rfl⟩

/-- The check finds exactly the concatenations of sequences of the table. -/
theorem validUtf8_iff {s : List Byte} : validUtf8 s = true ↔ Utf8 s := by
  unfold validUtf8
  rw [utf8From_iff]
  constructor
  · rintro ⟨q, rest, rfl, hq, h⟩; cases hq; exact h
  · exact fun h => ⟨[], s, rfl, .nil, h⟩

end Sys2Proof.Machine
end

