-- ==== Sys2Proof/Laws/Memory.lean ====
section
/-! SUPPORT. The laws of the byte memory: a read after a write to the same place gives the value written, a write leaves every
other place alone, and every operation keeps the canonical form. -/

namespace Sys2Proof.Machine

@[simp] theorem Memory.read?_write_same (m : Memory) (x : Nat) (v : Byte) : (m.write x v).read? x = some v := by
  induction m with
  | nil => simp [Memory.write, Memory.read?]
  | cons c m ih =>
    obtain ⟨a, b⟩ := c
    simp only [Memory.write]
    split_ifs <;> simp_all [Memory.read?]

theorem Memory.read?_write_other (m : Memory) {x y : Nat} (v : Byte) (h : y ≠ x) : (m.write x v).read? y = m.read? y := by
  induction m with
  | nil => simp [Memory.write, Memory.read?, h]
  | cons c m ih =>
    obtain ⟨a, b⟩ := c
    simp only [Memory.write]
    split_ifs <;> simp_all [Memory.read?]

/-- What one write does to every read. -/
theorem Memory.read?_write (m : Memory) (x y : Nat) (v : Byte) :
    (m.write x v).read? y = if y = x then some v else m.read? y := by
  split_ifs with h
  · rw [h, Memory.read?_write_same]
  · exact Memory.read?_write_other m v h

/-- What a write of several bytes does to every read. -/
theorem Memory.read?_writeBytes (bs : List Byte) : ∀ (m : Memory) (x y : Nat),
    (m.writeBytes x bs).read? y = if x ≤ y ∧ y < x + bs.length then bs[y - x]? else m.read? y := by
  induction bs with
  | nil =>
    intro m x y
    have h : ¬ (x ≤ y ∧ y < x + ([] : List Byte).length) := by simp only [List.length_nil]; omega
    rw [if_neg h]; rfl
  | cons b bs ih =>
    intro m x y
    simp only [Memory.writeBytes, ih, Memory.read?_write, List.length_cons]
    by_cases h1 : y = x
    · subst h1; simp
    · by_cases h2 : x + 1 ≤ y ∧ y < x + 1 + bs.length
      · have h3 : x ≤ y ∧ y < x + (bs.length + 1) := by omega
        have h4 : y - x = (y - (x + 1)) + 1 := by omega
        rw [if_pos h2, if_pos h3, h4, List.getElem?_cons_succ]
      · have h3 : ¬ (x ≤ y ∧ y < x + (bs.length + 1)) := by omega
        rw [if_neg h2, if_neg h1, if_neg h3]

/-- What forgetting a region does to every read. -/
theorem Memory.read?_forgetFrom (m : Memory) (lo y : Nat) :
    (m.forgetFrom lo).read? y = if y < lo then m.read? y else none := by
  induction m with
  | nil => simp [Memory.forgetFrom, Memory.read?]
  | cons c m ih =>
    obtain ⟨a, b⟩ := c
    simp only [Memory.forgetFrom, List.filter_cons] at ih ⊢
    by_cases ha : a < lo
    · simp only [ha, decide_true, if_true, Memory.read?, ih]
      split_ifs <;> first | rfl | omega
    · simp only [ha, decide_false, Bool.false_eq_true, if_false, Memory.read?, ih]
      split_ifs <;> first | rfl | omega

/-- Every address of a memory after a write is the one written or was there before. -/
theorem Memory.mem_write {m : Memory} {x : Nat} {v : Byte} {c : Host.Cell} (h : c ∈ m.write x v) : c = (x, v) ∨ c ∈ m := by
  induction m with
  | nil => simp_all [Memory.write]
  | cons d m ih =>
    obtain ⟨a, b⟩ := d
    simp only [Memory.write] at h
    split_ifs at h <;> simp only [List.mem_cons] at h ⊢ <;> tauto

theorem Memory.write_wf {m : Memory} (x : Nat) (v : Byte) (h : m.wf) : (m.write x v).wf := by
  induction m with
  | nil => simp [Memory.write, Memory.wf]
  | cons d m ih =>
    obtain ⟨a, b⟩ := d
    simp only [Memory.wf, List.pairwise_cons] at h ih
    obtain ⟨hhead, htail⟩ := h
    simp only [Memory.write]
    split_ifs with h1 h2
    · refine List.pairwise_cons.2 ⟨?_, List.pairwise_cons.2 ⟨hhead, htail⟩⟩
      intro c hc
      rcases List.mem_cons.1 hc with rfl | hc
      · exact h1
      · exact lt_trans h1 (hhead c hc)
    · subst h2
      exact List.pairwise_cons.2 ⟨hhead, htail⟩
    · refine List.pairwise_cons.2 ⟨?_, ih htail⟩
      intro c hc
      rcases Memory.mem_write hc with rfl | hc
      · change a < x
        omega
      · exact hhead c hc

theorem Memory.writeBytes_wf (bs : List Byte) : ∀ {m : Memory} (x : Nat), m.wf → (m.writeBytes x bs).wf := by
  induction bs with
  | nil => exact fun _ h => h
  | cons b bs ih => exact fun x h => ih (x + 1) (Memory.write_wf x b h)

theorem Memory.forgetFrom_wf {m : Memory} (lo : Nat) (h : m.wf) : (m.forgetFrom lo).wf := List.Pairwise.filter _ h

/-- In canonical form a cell of the list is what a read finds. -/
theorem Memory.read?_of_mem {m : Memory} (h : m.wf) {c : Host.Cell} (hc : c ∈ m) : m.read? c.1 = some c.2 := by
  induction m with
  | nil => cases hc
  | cons d m ih =>
    obtain ⟨a, b⟩ := d
    simp only [Memory.wf, List.pairwise_cons] at h
    rcases List.mem_cons.1 hc with rfl | hc
    · simp [Memory.read?]
    · have := h.1 c hc
      simp only [Memory.read?]
      rw [if_neg (by omega)]
      exact ih h.2 hc

theorem State.reset_mem_wf : State.reset.mem.wf := List.Pairwise.nil

end Sys2Proof.Machine
end

