-- ==== Sys2Proof/Laws/State.lean ====
section
/-! SUPPORT. Each named update of State, field by field (all true by definition), so that no proof unfolds a record update. -/

namespace Sys2Proof.Machine

/-! ### `State.accept` (R61) -/

@[simp] theorem State.accept_params (s : State) (w : Word) : (s.accept w).params = s.params := rfl

@[simp] theorem State.accept_cmd (s : State) (w : Word) : (s.accept w).cmd = w := rfl

@[simp] theorem State.accept_status (s : State) (w : Word) : (s.accept w).status = Status.accepted := rfl

@[simp] theorem State.accept_inLen (s : State) (w : Word) : (s.accept w).inLen = s.inLen := rfl

@[simp] theorem State.accept_errPos (s : State) (w : Word) : (s.accept w).errPos = s.errPos := rfl

@[simp] theorem State.accept_errLen (s : State) (w : Word) : (s.accept w).errLen = s.errLen := rfl

@[simp] theorem State.accept_outLen (s : State) (w : Word) : (s.accept w).outLen = s.outLen := rfl

@[simp] theorem State.accept_arg0 (s : State) (w : Word) : (s.accept w).arg0 = s.arg0 := rfl

@[simp] theorem State.accept_arg1 (s : State) (w : Word) : (s.accept w).arg1 = s.arg1 := rfl

@[simp] theorem State.accept_arg2 (s : State) (w : Word) : (s.accept w).arg2 = s.arg2 := rfl

@[simp] theorem State.accept_res0 (s : State) (w : Word) : (s.accept w).res0 = s.res0 := rfl

@[simp] theorem State.accept_res1 (s : State) (w : Word) : (s.accept w).res1 = s.res1 := rfl

@[simp] theorem State.accept_res2 (s : State) (w : Word) : (s.accept w).res2 = s.res2 := rfl

@[simp] theorem State.accept_res3 (s : State) (w : Word) : (s.accept w).res3 = s.res3 := rfl

@[simp] theorem State.accept_res4 (s : State) (w : Word) : (s.accept w).res4 = s.res4 := rfl

@[simp] theorem State.accept_mem (s : State) (w : Word) : (s.accept w).mem = s.mem := rfl

@[simp] theorem State.accept_inReset (s : State) (w : Word) : (s.accept w).inReset = s.inReset := rfl

@[simp] theorem State.accept_pending (s : State) (w : Word) : (s.accept w).pending = s.pending := rfl

@[simp] theorem State.accept_latencies (s : State) (w : Word) : (s.accept w).latencies = s.latencies.tail := rfl

@[simp] theorem State.accept_wait (s : State) (w : Word) : (s.accept w).wait = s.latencies.headD 0 := rfl

@[simp] theorem State.accept_response (s : State) (w : Word) : (s.accept w).response = s.response := rfl

@[simp] theorem State.accept_draws (s : State) (w : Word) : (s.accept w).draws = s.draws := rfl

@[simp] theorem State.accept_epoch (s : State) (w : Word) : (s.accept w).epoch = s.epoch := rfl

/-! ### `State.publish` (R64) -/

@[simp] theorem State.publish_params (s : State) (r : Result) : (s.publish r).params = s.params := rfl

@[simp] theorem State.publish_cmd (s : State) (r : Result) : (s.publish r).cmd = s.cmd := rfl

@[simp] theorem State.publish_status (s : State) (r : Result) : (s.publish r).status = Status.completed s.status.ign r.ovf r.unf 0 := rfl

@[simp] theorem State.publish_inLen (s : State) (r : Result) : (s.publish r).inLen = s.inLen := rfl

@[simp] theorem State.publish_errPos (s : State) (r : Result) : (s.publish r).errPos = 0 := rfl

@[simp] theorem State.publish_errLen (s : State) (r : Result) : (s.publish r).errLen = 0 := rfl

@[simp] theorem State.publish_outLen (s : State) (r : Result) : (s.publish r).outLen = BitVec.ofNat 32 r.out.length := rfl

@[simp] theorem State.publish_arg0 (s : State) (r : Result) : (s.publish r).arg0 = s.arg0 := rfl

@[simp] theorem State.publish_arg1 (s : State) (r : Result) : (s.publish r).arg1 = s.arg1 := rfl

@[simp] theorem State.publish_arg2 (s : State) (r : Result) : (s.publish r).arg2 = s.arg2 := rfl

@[simp] theorem State.publish_res0 (s : State) (r : Result) : (s.publish r).res0 = r.res0 := rfl

@[simp] theorem State.publish_res1 (s : State) (r : Result) : (s.publish r).res1 = r.res1 := rfl

@[simp] theorem State.publish_res2 (s : State) (r : Result) : (s.publish r).res2 = r.res2 := rfl

@[simp] theorem State.publish_res3 (s : State) (r : Result) : (s.publish r).res3 = r.res3 := rfl

@[simp] theorem State.publish_res4 (s : State) (r : Result) : (s.publish r).res4 = r.res4 := rfl

@[simp] theorem State.publish_mem (s : State) (r : Result) : (s.publish r).mem = (s.mem.forgetFrom obufBase).writeBytes obufBase r.out := rfl

@[simp] theorem State.publish_inReset (s : State) (r : Result) : (s.publish r).inReset = s.inReset := rfl

@[simp] theorem State.publish_pending (s : State) (r : Result) : (s.publish r).pending = s.pending := rfl

@[simp] theorem State.publish_latencies (s : State) (r : Result) : (s.publish r).latencies = s.latencies := rfl

@[simp] theorem State.publish_wait (s : State) (r : Result) : (s.publish r).wait = s.wait := rfl

@[simp] theorem State.publish_response (s : State) (r : Result) : (s.publish r).response = s.response := rfl

@[simp] theorem State.publish_draws (s : State) (r : Result) : (s.publish r).draws = s.draws := rfl

@[simp] theorem State.publish_epoch (s : State) (r : Result) : (s.publish r).epoch = s.epoch := rfl

/-! ### `State.fail` (R274) -/

@[simp] theorem State.fail_params (s : State) (e : Raised) : (s.fail e).params = s.params := rfl

@[simp] theorem State.fail_cmd (s : State) (e : Raised) : (s.fail e).cmd = s.cmd := rfl

@[simp] theorem State.fail_status (s : State) (e : Raised) : (s.fail e).status = Status.completed s.status.ign false false e.kind.code := rfl

@[simp] theorem State.fail_inLen (s : State) (e : Raised) : (s.fail e).inLen = s.inLen := rfl

@[simp] theorem State.fail_errPos (s : State) (e : Raised) : (s.fail e).errPos = BitVec.ofNat 32 e.pos := rfl

@[simp] theorem State.fail_errLen (s : State) (e : Raised) : (s.fail e).errLen = BitVec.ofNat 32 e.len := rfl

@[simp] theorem State.fail_outLen (s : State) (e : Raised) : (s.fail e).outLen = 0 := rfl

@[simp] theorem State.fail_arg0 (s : State) (e : Raised) : (s.fail e).arg0 = s.arg0 := rfl

@[simp] theorem State.fail_arg1 (s : State) (e : Raised) : (s.fail e).arg1 = s.arg1 := rfl

@[simp] theorem State.fail_arg2 (s : State) (e : Raised) : (s.fail e).arg2 = s.arg2 := rfl

@[simp] theorem State.fail_res0 (s : State) (e : Raised) : (s.fail e).res0 = 0 := rfl

@[simp] theorem State.fail_res1 (s : State) (e : Raised) : (s.fail e).res1 = 0 := rfl

@[simp] theorem State.fail_res2 (s : State) (e : Raised) : (s.fail e).res2 = 0 := rfl

@[simp] theorem State.fail_res3 (s : State) (e : Raised) : (s.fail e).res3 = 0 := rfl

@[simp] theorem State.fail_res4 (s : State) (e : Raised) : (s.fail e).res4 = 0 := rfl

@[simp] theorem State.fail_mem (s : State) (e : Raised) : (s.fail e).mem = s.mem.forgetFrom obufBase := rfl

@[simp] theorem State.fail_inReset (s : State) (e : Raised) : (s.fail e).inReset = s.inReset := rfl

@[simp] theorem State.fail_pending (s : State) (e : Raised) : (s.fail e).pending = s.pending := rfl

@[simp] theorem State.fail_latencies (s : State) (e : Raised) : (s.fail e).latencies = s.latencies := rfl

@[simp] theorem State.fail_wait (s : State) (e : Raised) : (s.fail e).wait = s.wait := rfl

@[simp] theorem State.fail_response (s : State) (e : Raised) : (s.fail e).response = s.response := rfl

@[simp] theorem State.fail_draws (s : State) (e : Raised) : (s.fail e).draws = s.draws := rfl

@[simp] theorem State.fail_epoch (s : State) (e : Raised) : (s.fail e).epoch = s.epoch := rfl

/-! ### `State.ignoreWrite` (R71) -/

@[simp] theorem State.ignoreWrite_params (s : State) : (s.ignoreWrite).params = s.params := rfl

@[simp] theorem State.ignoreWrite_cmd (s : State) : (s.ignoreWrite).cmd = s.cmd := rfl

@[simp] theorem State.ignoreWrite_status (s : State) : (s.ignoreWrite).status = s.status.ignored := rfl

@[simp] theorem State.ignoreWrite_inLen (s : State) : (s.ignoreWrite).inLen = s.inLen := rfl

@[simp] theorem State.ignoreWrite_errPos (s : State) : (s.ignoreWrite).errPos = s.errPos := rfl

@[simp] theorem State.ignoreWrite_errLen (s : State) : (s.ignoreWrite).errLen = s.errLen := rfl

@[simp] theorem State.ignoreWrite_outLen (s : State) : (s.ignoreWrite).outLen = s.outLen := rfl

@[simp] theorem State.ignoreWrite_arg0 (s : State) : (s.ignoreWrite).arg0 = s.arg0 := rfl

@[simp] theorem State.ignoreWrite_arg1 (s : State) : (s.ignoreWrite).arg1 = s.arg1 := rfl

@[simp] theorem State.ignoreWrite_arg2 (s : State) : (s.ignoreWrite).arg2 = s.arg2 := rfl

@[simp] theorem State.ignoreWrite_res0 (s : State) : (s.ignoreWrite).res0 = s.res0 := rfl

@[simp] theorem State.ignoreWrite_res1 (s : State) : (s.ignoreWrite).res1 = s.res1 := rfl

@[simp] theorem State.ignoreWrite_res2 (s : State) : (s.ignoreWrite).res2 = s.res2 := rfl

@[simp] theorem State.ignoreWrite_res3 (s : State) : (s.ignoreWrite).res3 = s.res3 := rfl

@[simp] theorem State.ignoreWrite_res4 (s : State) : (s.ignoreWrite).res4 = s.res4 := rfl

@[simp] theorem State.ignoreWrite_mem (s : State) : (s.ignoreWrite).mem = s.mem := rfl

@[simp] theorem State.ignoreWrite_inReset (s : State) : (s.ignoreWrite).inReset = s.inReset := rfl

@[simp] theorem State.ignoreWrite_pending (s : State) : (s.ignoreWrite).pending = s.pending := rfl

@[simp] theorem State.ignoreWrite_latencies (s : State) : (s.ignoreWrite).latencies = s.latencies := rfl

@[simp] theorem State.ignoreWrite_wait (s : State) : (s.ignoreWrite).wait = s.wait := rfl

@[simp] theorem State.ignoreWrite_response (s : State) : (s.ignoreWrite).response = s.response := rfl

@[simp] theorem State.ignoreWrite_draws (s : State) : (s.ignoreWrite).draws = s.draws := rfl

@[simp] theorem State.ignoreWrite_epoch (s : State) : (s.ignoreWrite).epoch = s.epoch := rfl

/-! ### `State.setInLen` (R30) -/

@[simp] theorem State.setInLen_params (s : State) (w : Word) : (s.setInLen w).params = s.params := rfl

@[simp] theorem State.setInLen_cmd (s : State) (w : Word) : (s.setInLen w).cmd = s.cmd := rfl

@[simp] theorem State.setInLen_status (s : State) (w : Word) : (s.setInLen w).status = s.status := rfl

@[simp] theorem State.setInLen_inLen (s : State) (w : Word) : (s.setInLen w).inLen = w := rfl

@[simp] theorem State.setInLen_errPos (s : State) (w : Word) : (s.setInLen w).errPos = s.errPos := rfl

@[simp] theorem State.setInLen_errLen (s : State) (w : Word) : (s.setInLen w).errLen = s.errLen := rfl

@[simp] theorem State.setInLen_outLen (s : State) (w : Word) : (s.setInLen w).outLen = s.outLen := rfl

@[simp] theorem State.setInLen_arg0 (s : State) (w : Word) : (s.setInLen w).arg0 = s.arg0 := rfl

@[simp] theorem State.setInLen_arg1 (s : State) (w : Word) : (s.setInLen w).arg1 = s.arg1 := rfl

@[simp] theorem State.setInLen_arg2 (s : State) (w : Word) : (s.setInLen w).arg2 = s.arg2 := rfl

@[simp] theorem State.setInLen_res0 (s : State) (w : Word) : (s.setInLen w).res0 = s.res0 := rfl

@[simp] theorem State.setInLen_res1 (s : State) (w : Word) : (s.setInLen w).res1 = s.res1 := rfl

@[simp] theorem State.setInLen_res2 (s : State) (w : Word) : (s.setInLen w).res2 = s.res2 := rfl

@[simp] theorem State.setInLen_res3 (s : State) (w : Word) : (s.setInLen w).res3 = s.res3 := rfl

@[simp] theorem State.setInLen_res4 (s : State) (w : Word) : (s.setInLen w).res4 = s.res4 := rfl

@[simp] theorem State.setInLen_mem (s : State) (w : Word) : (s.setInLen w).mem = s.mem := rfl

@[simp] theorem State.setInLen_inReset (s : State) (w : Word) : (s.setInLen w).inReset = s.inReset := rfl

@[simp] theorem State.setInLen_pending (s : State) (w : Word) : (s.setInLen w).pending = s.pending := rfl

@[simp] theorem State.setInLen_latencies (s : State) (w : Word) : (s.setInLen w).latencies = s.latencies := rfl

@[simp] theorem State.setInLen_wait (s : State) (w : Word) : (s.setInLen w).wait = s.wait := rfl

@[simp] theorem State.setInLen_response (s : State) (w : Word) : (s.setInLen w).response = s.response := rfl

@[simp] theorem State.setInLen_draws (s : State) (w : Word) : (s.setInLen w).draws = s.draws := rfl

@[simp] theorem State.setInLen_epoch (s : State) (w : Word) : (s.setInLen w).epoch = s.epoch := rfl

/-! ### `State.writeIbuf` (R40) -/

@[simp] theorem State.writeIbuf_params (s : State) (i : Nat) (w : Word) : (s.writeIbuf i w).params = s.params := rfl

@[simp] theorem State.writeIbuf_cmd (s : State) (i : Nat) (w : Word) : (s.writeIbuf i w).cmd = s.cmd := rfl

@[simp] theorem State.writeIbuf_status (s : State) (i : Nat) (w : Word) : (s.writeIbuf i w).status = s.status := rfl

@[simp] theorem State.writeIbuf_inLen (s : State) (i : Nat) (w : Word) : (s.writeIbuf i w).inLen = s.inLen := rfl

@[simp] theorem State.writeIbuf_errPos (s : State) (i : Nat) (w : Word) : (s.writeIbuf i w).errPos = s.errPos := rfl

@[simp] theorem State.writeIbuf_errLen (s : State) (i : Nat) (w : Word) : (s.writeIbuf i w).errLen = s.errLen := rfl

@[simp] theorem State.writeIbuf_outLen (s : State) (i : Nat) (w : Word) : (s.writeIbuf i w).outLen = s.outLen := rfl

@[simp] theorem State.writeIbuf_arg0 (s : State) (i : Nat) (w : Word) : (s.writeIbuf i w).arg0 = s.arg0 := rfl

@[simp] theorem State.writeIbuf_arg1 (s : State) (i : Nat) (w : Word) : (s.writeIbuf i w).arg1 = s.arg1 := rfl

@[simp] theorem State.writeIbuf_arg2 (s : State) (i : Nat) (w : Word) : (s.writeIbuf i w).arg2 = s.arg2 := rfl

@[simp] theorem State.writeIbuf_res0 (s : State) (i : Nat) (w : Word) : (s.writeIbuf i w).res0 = s.res0 := rfl

@[simp] theorem State.writeIbuf_res1 (s : State) (i : Nat) (w : Word) : (s.writeIbuf i w).res1 = s.res1 := rfl

@[simp] theorem State.writeIbuf_res2 (s : State) (i : Nat) (w : Word) : (s.writeIbuf i w).res2 = s.res2 := rfl

@[simp] theorem State.writeIbuf_res3 (s : State) (i : Nat) (w : Word) : (s.writeIbuf i w).res3 = s.res3 := rfl

@[simp] theorem State.writeIbuf_res4 (s : State) (i : Nat) (w : Word) : (s.writeIbuf i w).res4 = s.res4 := rfl

@[simp] theorem State.writeIbuf_mem (s : State) (i : Nat) (w : Word) : (s.writeIbuf i w).mem = s.mem.writeBytes (ibufBase + i) (bytesOfWord w) := rfl

@[simp] theorem State.writeIbuf_inReset (s : State) (i : Nat) (w : Word) : (s.writeIbuf i w).inReset = s.inReset := rfl

@[simp] theorem State.writeIbuf_pending (s : State) (i : Nat) (w : Word) : (s.writeIbuf i w).pending = s.pending := rfl

@[simp] theorem State.writeIbuf_latencies (s : State) (i : Nat) (w : Word) : (s.writeIbuf i w).latencies = s.latencies := rfl

@[simp] theorem State.writeIbuf_wait (s : State) (i : Nat) (w : Word) : (s.writeIbuf i w).wait = s.wait := rfl

@[simp] theorem State.writeIbuf_response (s : State) (i : Nat) (w : Word) : (s.writeIbuf i w).response = s.response := rfl

@[simp] theorem State.writeIbuf_draws (s : State) (i : Nat) (w : Word) : (s.writeIbuf i w).draws = s.draws := rfl

@[simp] theorem State.writeIbuf_epoch (s : State) (i : Nat) (w : Word) : (s.writeIbuf i w).epoch = s.epoch := rfl

/-! ### `State.answer` (R61) -/

@[simp] theorem State.answer_params (s : State) (r : Response) : (s.answer r).params = s.params := rfl

@[simp] theorem State.answer_cmd (s : State) (r : Response) : (s.answer r).cmd = s.cmd := rfl

@[simp] theorem State.answer_status (s : State) (r : Response) : (s.answer r).status = s.status := rfl

@[simp] theorem State.answer_inLen (s : State) (r : Response) : (s.answer r).inLen = s.inLen := rfl

@[simp] theorem State.answer_errPos (s : State) (r : Response) : (s.answer r).errPos = s.errPos := rfl

@[simp] theorem State.answer_errLen (s : State) (r : Response) : (s.answer r).errLen = s.errLen := rfl

@[simp] theorem State.answer_outLen (s : State) (r : Response) : (s.answer r).outLen = s.outLen := rfl

@[simp] theorem State.answer_arg0 (s : State) (r : Response) : (s.answer r).arg0 = s.arg0 := rfl

@[simp] theorem State.answer_arg1 (s : State) (r : Response) : (s.answer r).arg1 = s.arg1 := rfl

@[simp] theorem State.answer_arg2 (s : State) (r : Response) : (s.answer r).arg2 = s.arg2 := rfl

@[simp] theorem State.answer_res0 (s : State) (r : Response) : (s.answer r).res0 = s.res0 := rfl

@[simp] theorem State.answer_res1 (s : State) (r : Response) : (s.answer r).res1 = s.res1 := rfl

@[simp] theorem State.answer_res2 (s : State) (r : Response) : (s.answer r).res2 = s.res2 := rfl

@[simp] theorem State.answer_res3 (s : State) (r : Response) : (s.answer r).res3 = s.res3 := rfl

@[simp] theorem State.answer_res4 (s : State) (r : Response) : (s.answer r).res4 = s.res4 := rfl

@[simp] theorem State.answer_mem (s : State) (r : Response) : (s.answer r).mem = s.mem := rfl

@[simp] theorem State.answer_inReset (s : State) (r : Response) : (s.answer r).inReset = s.inReset := rfl

@[simp] theorem State.answer_pending (s : State) (r : Response) : (s.answer r).pending = s.pending := rfl

@[simp] theorem State.answer_latencies (s : State) (r : Response) : (s.answer r).latencies = s.latencies := rfl

@[simp] theorem State.answer_wait (s : State) (r : Response) : (s.answer r).wait = s.wait := rfl

@[simp] theorem State.answer_response (s : State) (r : Response) : (s.answer r).response = some r := rfl

@[simp] theorem State.answer_draws (s : State) (r : Response) : (s.answer r).draws = s.draws := rfl

@[simp] theorem State.answer_epoch (s : State) (r : Response) : (s.answer r).epoch = s.epoch := rfl

/-! ### `State.assertReset` (R300 to R303) -/

@[simp] theorem State.assertReset_params (s : State) : (s.assertReset).params = s.params := rfl

@[simp] theorem State.assertReset_cmd (s : State) : (s.assertReset).cmd = State.reset.cmd := rfl

@[simp] theorem State.assertReset_status (s : State) : (s.assertReset).status = State.reset.status := rfl

@[simp] theorem State.assertReset_inLen (s : State) : (s.assertReset).inLen = State.reset.inLen := rfl

@[simp] theorem State.assertReset_errPos (s : State) : (s.assertReset).errPos = State.reset.errPos := rfl

@[simp] theorem State.assertReset_errLen (s : State) : (s.assertReset).errLen = State.reset.errLen := rfl

@[simp] theorem State.assertReset_outLen (s : State) : (s.assertReset).outLen = State.reset.outLen := rfl

@[simp] theorem State.assertReset_arg0 (s : State) : (s.assertReset).arg0 = State.reset.arg0 := rfl

@[simp] theorem State.assertReset_arg1 (s : State) : (s.assertReset).arg1 = State.reset.arg1 := rfl

@[simp] theorem State.assertReset_arg2 (s : State) : (s.assertReset).arg2 = State.reset.arg2 := rfl

@[simp] theorem State.assertReset_res0 (s : State) : (s.assertReset).res0 = State.reset.res0 := rfl

@[simp] theorem State.assertReset_res1 (s : State) : (s.assertReset).res1 = State.reset.res1 := rfl

@[simp] theorem State.assertReset_res2 (s : State) : (s.assertReset).res2 = State.reset.res2 := rfl

@[simp] theorem State.assertReset_res3 (s : State) : (s.assertReset).res3 = State.reset.res3 := rfl

@[simp] theorem State.assertReset_res4 (s : State) : (s.assertReset).res4 = State.reset.res4 := rfl

@[simp] theorem State.assertReset_mem (s : State) : (s.assertReset).mem = State.reset.mem := rfl

@[simp] theorem State.assertReset_inReset (s : State) : (s.assertReset).inReset = true := rfl

@[simp] theorem State.assertReset_pending (s : State) : (s.assertReset).pending = s.pending := rfl

@[simp] theorem State.assertReset_latencies (s : State) : (s.assertReset).latencies = s.latencies := rfl

@[simp] theorem State.assertReset_wait (s : State) : (s.assertReset).wait = State.reset.wait := rfl

@[simp] theorem State.assertReset_response (s : State) : (s.assertReset).response = State.reset.response := rfl

@[simp] theorem State.assertReset_draws (s : State) : (s.assertReset).draws = s.draws := rfl

@[simp] theorem State.assertReset_epoch (s : State) : (s.assertReset).epoch = s.epoch + 1 := rfl

/-! ### `State.releaseReset` (R300) -/

@[simp] theorem State.releaseReset_params (s : State) : (s.releaseReset).params = s.params := rfl

@[simp] theorem State.releaseReset_cmd (s : State) : (s.releaseReset).cmd = s.cmd := rfl

@[simp] theorem State.releaseReset_status (s : State) : (s.releaseReset).status = s.status := rfl

@[simp] theorem State.releaseReset_inLen (s : State) : (s.releaseReset).inLen = s.inLen := rfl

@[simp] theorem State.releaseReset_errPos (s : State) : (s.releaseReset).errPos = s.errPos := rfl

@[simp] theorem State.releaseReset_errLen (s : State) : (s.releaseReset).errLen = s.errLen := rfl

@[simp] theorem State.releaseReset_outLen (s : State) : (s.releaseReset).outLen = s.outLen := rfl

@[simp] theorem State.releaseReset_arg0 (s : State) : (s.releaseReset).arg0 = s.arg0 := rfl

@[simp] theorem State.releaseReset_arg1 (s : State) : (s.releaseReset).arg1 = s.arg1 := rfl

@[simp] theorem State.releaseReset_arg2 (s : State) : (s.releaseReset).arg2 = s.arg2 := rfl

@[simp] theorem State.releaseReset_res0 (s : State) : (s.releaseReset).res0 = s.res0 := rfl

@[simp] theorem State.releaseReset_res1 (s : State) : (s.releaseReset).res1 = s.res1 := rfl

@[simp] theorem State.releaseReset_res2 (s : State) : (s.releaseReset).res2 = s.res2 := rfl

@[simp] theorem State.releaseReset_res3 (s : State) : (s.releaseReset).res3 = s.res3 := rfl

@[simp] theorem State.releaseReset_res4 (s : State) : (s.releaseReset).res4 = s.res4 := rfl

@[simp] theorem State.releaseReset_mem (s : State) : (s.releaseReset).mem = s.mem := rfl

@[simp] theorem State.releaseReset_inReset (s : State) : (s.releaseReset).inReset = false := rfl

@[simp] theorem State.releaseReset_pending (s : State) : (s.releaseReset).pending = s.pending := rfl

@[simp] theorem State.releaseReset_latencies (s : State) : (s.releaseReset).latencies = s.latencies := rfl

@[simp] theorem State.releaseReset_wait (s : State) : (s.releaseReset).wait = s.wait := rfl

@[simp] theorem State.releaseReset_response (s : State) : (s.releaseReset).response = s.response := rfl

@[simp] theorem State.releaseReset_draws (s : State) : (s.releaseReset).draws = s.draws := rfl

@[simp] theorem State.releaseReset_epoch (s : State) : (s.releaseReset).epoch = s.epoch := rfl

/-! ### `State.consume` (R75) -/

@[simp] theorem State.consume_params (s : State) (rest : List HostEvent) : (s.consume rest).params = s.params := rfl

@[simp] theorem State.consume_cmd (s : State) (rest : List HostEvent) : (s.consume rest).cmd = s.cmd := rfl

@[simp] theorem State.consume_status (s : State) (rest : List HostEvent) : (s.consume rest).status = s.status := rfl

@[simp] theorem State.consume_inLen (s : State) (rest : List HostEvent) : (s.consume rest).inLen = s.inLen := rfl

@[simp] theorem State.consume_errPos (s : State) (rest : List HostEvent) : (s.consume rest).errPos = s.errPos := rfl

@[simp] theorem State.consume_errLen (s : State) (rest : List HostEvent) : (s.consume rest).errLen = s.errLen := rfl

@[simp] theorem State.consume_outLen (s : State) (rest : List HostEvent) : (s.consume rest).outLen = s.outLen := rfl

@[simp] theorem State.consume_arg0 (s : State) (rest : List HostEvent) : (s.consume rest).arg0 = s.arg0 := rfl

@[simp] theorem State.consume_arg1 (s : State) (rest : List HostEvent) : (s.consume rest).arg1 = s.arg1 := rfl

@[simp] theorem State.consume_arg2 (s : State) (rest : List HostEvent) : (s.consume rest).arg2 = s.arg2 := rfl

@[simp] theorem State.consume_res0 (s : State) (rest : List HostEvent) : (s.consume rest).res0 = s.res0 := rfl

@[simp] theorem State.consume_res1 (s : State) (rest : List HostEvent) : (s.consume rest).res1 = s.res1 := rfl

@[simp] theorem State.consume_res2 (s : State) (rest : List HostEvent) : (s.consume rest).res2 = s.res2 := rfl

@[simp] theorem State.consume_res3 (s : State) (rest : List HostEvent) : (s.consume rest).res3 = s.res3 := rfl

@[simp] theorem State.consume_res4 (s : State) (rest : List HostEvent) : (s.consume rest).res4 = s.res4 := rfl

@[simp] theorem State.consume_mem (s : State) (rest : List HostEvent) : (s.consume rest).mem = s.mem := rfl

@[simp] theorem State.consume_inReset (s : State) (rest : List HostEvent) : (s.consume rest).inReset = s.inReset := rfl

@[simp] theorem State.consume_pending (s : State) (rest : List HostEvent) : (s.consume rest).pending = rest := rfl

@[simp] theorem State.consume_latencies (s : State) (rest : List HostEvent) : (s.consume rest).latencies = s.latencies := rfl

@[simp] theorem State.consume_wait (s : State) (rest : List HostEvent) : (s.consume rest).wait = s.wait - 1 := rfl

@[simp] theorem State.consume_response (s : State) (rest : List HostEvent) : (s.consume rest).response = s.response := rfl

@[simp] theorem State.consume_draws (s : State) (rest : List HostEvent) : (s.consume rest).draws = s.draws + 1 := rfl

@[simp] theorem State.consume_epoch (s : State) (rest : List HostEvent) : (s.consume rest).epoch = s.epoch := rfl

/-! ### `State.again` (R100) -/

@[simp] theorem State.again_params (s : State) (e : HostEvent) : (s.again e).params = s.params := rfl

@[simp] theorem State.again_cmd (s : State) (e : HostEvent) : (s.again e).cmd = s.cmd := rfl

@[simp] theorem State.again_status (s : State) (e : HostEvent) : (s.again e).status = s.status := rfl

@[simp] theorem State.again_inLen (s : State) (e : HostEvent) : (s.again e).inLen = s.inLen := rfl

@[simp] theorem State.again_errPos (s : State) (e : HostEvent) : (s.again e).errPos = s.errPos := rfl

@[simp] theorem State.again_errLen (s : State) (e : HostEvent) : (s.again e).errLen = s.errLen := rfl

@[simp] theorem State.again_outLen (s : State) (e : HostEvent) : (s.again e).outLen = s.outLen := rfl

@[simp] theorem State.again_arg0 (s : State) (e : HostEvent) : (s.again e).arg0 = s.arg0 := rfl

@[simp] theorem State.again_arg1 (s : State) (e : HostEvent) : (s.again e).arg1 = s.arg1 := rfl

@[simp] theorem State.again_arg2 (s : State) (e : HostEvent) : (s.again e).arg2 = s.arg2 := rfl

@[simp] theorem State.again_res0 (s : State) (e : HostEvent) : (s.again e).res0 = s.res0 := rfl

@[simp] theorem State.again_res1 (s : State) (e : HostEvent) : (s.again e).res1 = s.res1 := rfl

@[simp] theorem State.again_res2 (s : State) (e : HostEvent) : (s.again e).res2 = s.res2 := rfl

@[simp] theorem State.again_res3 (s : State) (e : HostEvent) : (s.again e).res3 = s.res3 := rfl

@[simp] theorem State.again_res4 (s : State) (e : HostEvent) : (s.again e).res4 = s.res4 := rfl

@[simp] theorem State.again_mem (s : State) (e : HostEvent) : (s.again e).mem = s.mem := rfl

@[simp] theorem State.again_inReset (s : State) (e : HostEvent) : (s.again e).inReset = s.inReset := rfl

@[simp] theorem State.again_pending (s : State) (e : HostEvent) : (s.again e).pending = e :: s.pending := rfl

@[simp] theorem State.again_latencies (s : State) (e : HostEvent) : (s.again e).latencies = s.latencies := rfl

@[simp] theorem State.again_wait (s : State) (e : HostEvent) : (s.again e).wait = s.wait := rfl

@[simp] theorem State.again_response (s : State) (e : HostEvent) : (s.again e).response = s.response := rfl

@[simp] theorem State.again_draws (s : State) (e : HostEvent) : (s.again e).draws = s.draws := rfl

@[simp] theorem State.again_epoch (s : State) (e : HostEvent) : (s.again e).epoch = s.epoch := rfl

/-! ### `State.withFetchWord` -/

@[simp] theorem State.withFetchWord_params (s : State) (n w : Nat) : (s.withFetchWord n w).params = s.params := rfl

@[simp] theorem State.withFetchWord_cmd (s : State) (n w : Nat) : (s.withFetchWord n w).cmd = BitVec.ofNat 32 (w % 2 ^ n) := rfl

@[simp] theorem State.withFetchWord_status (s : State) (n w : Nat) : (s.withFetchWord n w).status = Status.accepted := rfl

@[simp] theorem State.withFetchWord_inLen (s : State) (n w : Nat) : (s.withFetchWord n w).inLen = s.inLen := rfl

@[simp] theorem State.withFetchWord_errPos (s : State) (n w : Nat) : (s.withFetchWord n w).errPos = s.errPos := rfl

@[simp] theorem State.withFetchWord_errLen (s : State) (n w : Nat) : (s.withFetchWord n w).errLen = s.errLen := rfl

@[simp] theorem State.withFetchWord_outLen (s : State) (n w : Nat) : (s.withFetchWord n w).outLen = s.outLen := rfl

@[simp] theorem State.withFetchWord_arg0 (s : State) (n w : Nat) : (s.withFetchWord n w).arg0 = s.arg0 := rfl

@[simp] theorem State.withFetchWord_arg1 (s : State) (n w : Nat) : (s.withFetchWord n w).arg1 = s.arg1 := rfl

@[simp] theorem State.withFetchWord_arg2 (s : State) (n w : Nat) : (s.withFetchWord n w).arg2 = s.arg2 := rfl

@[simp] theorem State.withFetchWord_res0 (s : State) (n w : Nat) : (s.withFetchWord n w).res0 = s.res0 := rfl

@[simp] theorem State.withFetchWord_res1 (s : State) (n w : Nat) : (s.withFetchWord n w).res1 = s.res1 := rfl

@[simp] theorem State.withFetchWord_res2 (s : State) (n w : Nat) : (s.withFetchWord n w).res2 = s.res2 := rfl

@[simp] theorem State.withFetchWord_res3 (s : State) (n w : Nat) : (s.withFetchWord n w).res3 = s.res3 := rfl

@[simp] theorem State.withFetchWord_res4 (s : State) (n w : Nat) : (s.withFetchWord n w).res4 = s.res4 := rfl

@[simp] theorem State.withFetchWord_mem (s : State) (n w : Nat) : (s.withFetchWord n w).mem = s.mem := rfl

@[simp] theorem State.withFetchWord_inReset (s : State) (n w : Nat) : (s.withFetchWord n w).inReset = false := rfl

@[simp] theorem State.withFetchWord_pending (s : State) (n w : Nat) : (s.withFetchWord n w).pending = s.pending := rfl

@[simp] theorem State.withFetchWord_latencies (s : State) (n w : Nat) : (s.withFetchWord n w).latencies = s.latencies := rfl

@[simp] theorem State.withFetchWord_wait (s : State) (n w : Nat) : (s.withFetchWord n w).wait = 0 := rfl

@[simp] theorem State.withFetchWord_response (s : State) (n w : Nat) : (s.withFetchWord n w).response = s.response := rfl

@[simp] theorem State.withFetchWord_draws (s : State) (n w : Nat) : (s.withFetchWord n w).draws = s.draws := rfl

@[simp] theorem State.withFetchWord_epoch (s : State) (n w : Nat) : (s.withFetchWord n w).epoch = s.epoch := rfl

/-! ### `State.setArg` (R33): one ARG register, nothing else -/

@[simp] theorem State.setArg_arg (s : State) (n : Fin 3) (v : DWord) : (s.setArg n v).arg n = v := by
  fin_cases n <;> rfl

theorem State.setArg_arg_other (s : State) (n k : Fin 3) (v : DWord) (h : k ≠ n) : (s.setArg n v).arg k = s.arg k := by
  fin_cases n <;> fin_cases k <;> first | rfl | exact absurd rfl h

@[simp] theorem State.setArg_params (s : State) (n : Fin 3) (v : DWord) : (s.setArg n v).params = s.params := by
  fin_cases n <;> rfl

@[simp] theorem State.setArg_cmd (s : State) (n : Fin 3) (v : DWord) : (s.setArg n v).cmd = s.cmd := by
  fin_cases n <;> rfl

@[simp] theorem State.setArg_status (s : State) (n : Fin 3) (v : DWord) : (s.setArg n v).status = s.status := by
  fin_cases n <;> rfl

@[simp] theorem State.setArg_inLen (s : State) (n : Fin 3) (v : DWord) : (s.setArg n v).inLen = s.inLen := by
  fin_cases n <;> rfl

@[simp] theorem State.setArg_errPos (s : State) (n : Fin 3) (v : DWord) : (s.setArg n v).errPos = s.errPos := by
  fin_cases n <;> rfl

@[simp] theorem State.setArg_errLen (s : State) (n : Fin 3) (v : DWord) : (s.setArg n v).errLen = s.errLen := by
  fin_cases n <;> rfl

@[simp] theorem State.setArg_outLen (s : State) (n : Fin 3) (v : DWord) : (s.setArg n v).outLen = s.outLen := by
  fin_cases n <;> rfl

@[simp] theorem State.setArg_res0 (s : State) (n : Fin 3) (v : DWord) : (s.setArg n v).res0 = s.res0 := by
  fin_cases n <;> rfl

@[simp] theorem State.setArg_res1 (s : State) (n : Fin 3) (v : DWord) : (s.setArg n v).res1 = s.res1 := by
  fin_cases n <;> rfl

@[simp] theorem State.setArg_res2 (s : State) (n : Fin 3) (v : DWord) : (s.setArg n v).res2 = s.res2 := by
  fin_cases n <;> rfl

@[simp] theorem State.setArg_res3 (s : State) (n : Fin 3) (v : DWord) : (s.setArg n v).res3 = s.res3 := by
  fin_cases n <;> rfl

@[simp] theorem State.setArg_res4 (s : State) (n : Fin 3) (v : DWord) : (s.setArg n v).res4 = s.res4 := by
  fin_cases n <;> rfl

@[simp] theorem State.setArg_mem (s : State) (n : Fin 3) (v : DWord) : (s.setArg n v).mem = s.mem := by
  fin_cases n <;> rfl

@[simp] theorem State.setArg_inReset (s : State) (n : Fin 3) (v : DWord) : (s.setArg n v).inReset = s.inReset := by
  fin_cases n <;> rfl

@[simp] theorem State.setArg_pending (s : State) (n : Fin 3) (v : DWord) : (s.setArg n v).pending = s.pending := by
  fin_cases n <;> rfl

@[simp] theorem State.setArg_latencies (s : State) (n : Fin 3) (v : DWord) : (s.setArg n v).latencies = s.latencies := by
  fin_cases n <;> rfl

@[simp] theorem State.setArg_wait (s : State) (n : Fin 3) (v : DWord) : (s.setArg n v).wait = s.wait := by
  fin_cases n <;> rfl

@[simp] theorem State.setArg_response (s : State) (n : Fin 3) (v : DWord) : (s.setArg n v).response = s.response := by
  fin_cases n <;> rfl

@[simp] theorem State.setArg_draws (s : State) (n : Fin 3) (v : DWord) : (s.setArg n v).draws = s.draws := by
  fin_cases n <;> rfl

@[simp] theorem State.setArg_epoch (s : State) (n : Fin 3) (v : DWord) : (s.setArg n v).epoch = s.epoch := by
  fin_cases n <;> rfl

/-! ### `State.complete`: what every completion leaves alone (R63, R64) -/

@[simp] theorem State.complete_params (s : State) (c : Except Raised Result) : (s.complete c).params = s.params := by
  cases c <;> rfl

@[simp] theorem State.complete_cmd (s : State) (c : Except Raised Result) : (s.complete c).cmd = s.cmd := by
  cases c <;> rfl

@[simp] theorem State.complete_inLen (s : State) (c : Except Raised Result) : (s.complete c).inLen = s.inLen := by
  cases c <;> rfl

@[simp] theorem State.complete_arg0 (s : State) (c : Except Raised Result) : (s.complete c).arg0 = s.arg0 := by
  cases c <;> rfl

@[simp] theorem State.complete_arg1 (s : State) (c : Except Raised Result) : (s.complete c).arg1 = s.arg1 := by
  cases c <;> rfl

@[simp] theorem State.complete_arg2 (s : State) (c : Except Raised Result) : (s.complete c).arg2 = s.arg2 := by
  cases c <;> rfl

@[simp] theorem State.complete_inReset (s : State) (c : Except Raised Result) : (s.complete c).inReset = s.inReset := by
  cases c <;> rfl

@[simp] theorem State.complete_pending (s : State) (c : Except Raised Result) : (s.complete c).pending = s.pending := by
  cases c <;> rfl

@[simp] theorem State.complete_latencies (s : State) (c : Except Raised Result) : (s.complete c).latencies = s.latencies := by
  cases c <;> rfl

@[simp] theorem State.complete_wait (s : State) (c : Except Raised Result) : (s.complete c).wait = s.wait := by
  cases c <;> rfl

@[simp] theorem State.complete_response (s : State) (c : Except Raised Result) : (s.complete c).response = s.response := by
  cases c <;> rfl

@[simp] theorem State.complete_draws (s : State) (c : Except Raised Result) : (s.complete c).draws = s.draws := by
  cases c <;> rfl

@[simp] theorem State.complete_epoch (s : State) (c : Except Raised Result) : (s.complete c).epoch = s.epoch := by
  cases c <;> rfl

theorem State.complete_ok (s : State) (r : Result) : s.complete (.ok r) = s.publish r := rfl

theorem State.complete_error (s : State) (e : Raised) : s.complete (.error e) = s.fail e := rfl

@[simp] theorem State.complete_status_busy (s : State) (c : Except Raised Result) : (s.complete c).status.busy = false := by
  cases c <;> rfl

@[simp] theorem State.complete_status_done (s : State) (c : Except Raised Result) : (s.complete c).status.done = true := by
  cases c <;> rfl

@[simp] theorem State.complete_status_ign (s : State) (c : Except Raised Result) : (s.complete c).status.ign = s.status.ign := by
  cases c <;> rfl

end Sys2Proof.Machine
end

