-- ==== Sys2Proof/Laws/Exec.lean ====
section
/-! SUPPORT. What a command's completion and a step can do, said once. -/

namespace Sys2Proof.Machine

/-- What command `i` computes in state `s`: its result or the error it raises first. -/
def outcomeOf (i : Instr) (s : State) : Except Raised Result :=
  match i with
  | .crc32Text => s.input.bind crc32TextOf
  | .crc32Hex => s.input.bind crc32HexOf
  | .xorFold => s.input.bind xorFoldOf
  | .b64Enc => s.input.bind b64EncOf
  | .b64Dec => s.input.bind b64DecOf
  | .bconvR2 => s.input.bind (bconvOf .r2)
  | .bconvR8 => s.input.bind (bconvOf .r8)
  | .bconvR10 => s.input.bind (bconvOf .r10)
  | .bconvR16 => s.input.bind (bconvOf .r16)
  | .storReg => s.input.bind (storOf .register)
  | .storBit => s.input.bind (storOf .bit)
  | .storByte => s.input.bind (storOf .byte)
  | .storKb => s.input.bind (storOf .kb)
  | .storMb => s.input.bind (storOf .mb)
  | .storGb => s.input.bind (storOf .gb)
  | .clkSolve => clkSolveOf s.src s.tgt s.duty
  | .clkPureS => clkPureOf unitS s.src s.tgt s.div
  | .clkPureMs => clkPureOf unitMs s.src s.tgt s.div
  | .clkPureUs => clkPureOf unitUs s.src s.tgt s.div
  | .clkPureNs => clkPureOf unitNs s.src s.tgt s.div

/-- Every command ends in one completion step with its outcome. -/
theorem exec_eq_complete (i : Instr) (s : State) : exec i s = .next (s.complete (outcomeOf i s)) := by
  cases i <;> rfl

/-- The input string of a command that reads IBUF, when it is not too long. -/
theorem State.input_of_le {s : State} (h : s.inLen.toNat ≤ s.params.ibufSize) : s.input = .ok s.inBytes := by
  simp [State.input, Nat.not_lt.2 h]

theorem State.input_of_lt {s : State} (h : s.params.ibufSize < s.inLen.toNat) :
    s.input = .error { kind := .inputTooLong } := by
  simp [State.input, h, raise]

/-- A step is the completion of the command in flight, or nothing, or one host event. -/
theorem step_cases (s : State) :
    (s.completesNow = true ∧ ∃ c, step s = .next (s.complete c) ∧
      ((∃ i, decode s.cmd = .ok i ∧ c = outcomeOf i s) ∨ c = .error { kind := .invalidCommand })) ∨
    (s.completesNow = false ∧ s.pending = [] ∧ step s = .next s) ∨
    (s.completesNow = false ∧ ∃ e rest, s.pending = e :: rest ∧ step s = s.serve e rest) := by
  unfold step
  by_cases h : s.completesNow = true
  · refine .inl ⟨h, ?_⟩
    rw [if_pos h]
    unfold State.runInFlight State.inFlight
    cases hd : decode s.cmd with
    | error e => exact ⟨_, rfl, .inr rfl⟩
    | ok i => exact ⟨_, exec_eq_complete i s, .inl ⟨i, rfl, rfl⟩⟩
  · have hf : s.completesNow = false := by simpa using h
    refine .inr ?_
    rw [hf]
    cases hp : s.pending with
    | nil => exact .inl ⟨rfl, rfl, by simp [State.hostStep, hp]⟩
    | cons e rest => exact .inr ⟨rfl, e, rest, rfl, by simp [State.hostStep, hp]⟩

/-- What writing a location can do: nothing, set IGN, accept a command, or write one operand place. -/
theorem State.writeLocation_cases (s : State) (l : Location) (w : Word) :
    s.writeLocation l w = s ∨ (s.status.busy = true ∧ s.writeLocation l w = s.ignoreWrite) ∨
    (s.status.busy = false ∧ l = .cmd ∧ s.writeLocation l w = s.accept w) ∨
    (s.status.busy = false ∧ l = .inLen ∧ s.writeLocation l w = s.setInLen w) ∨
    (s.status.busy = false ∧ ∃ n hi, l = .arg n hi ∧ s.writeLocation l w = s.setArg n (withHalf (s.arg n) hi w)) ∨
    (s.status.busy = false ∧ ∃ i, l = .ibuf i ∧ s.writeLocation l w = s.writeIbuf i w) := by
  by_cases hr : readOnly l = true
  · exact .inl (by simp [State.writeLocation, hr])
  · cases hb : s.status.busy with
    | true => exact .inr (.inl ⟨rfl, by simp [State.writeLocation, hr, hb]⟩)
    | false =>
      refine .inr (.inr ?_)
      cases l with
      | cmd => exact .inl ⟨rfl, rfl, by simp [State.writeLocation, readOnly, hb]⟩
      | inLen => exact .inr (.inl ⟨rfl, rfl, by simp [State.writeLocation, readOnly, hb]⟩)
      | arg n hi => exact .inr (.inr (.inl ⟨rfl, n, hi, rfl, by simp [State.writeLocation, readOnly, hb]⟩))
      | ibuf i => exact .inr (.inr (.inr ⟨rfl, i, rfl, by simp [State.writeLocation, readOnly, hb]⟩))
      | status | errPos | errLen | outLen | res n hi | obuf i => exact absurd rfl hr

/-- What a transaction can do: an answer, after a write to a location that the window map gives. -/
theorem State.transact_cases (s : State) (t : Transaction) :
    (∃ r, s.transact t = s.answer r) ∨
    (∃ l w, t.width = 32 ∧ t.offset.toNat % 4 = 0 ∧ locate s.params t.offset.toNat = some l ∧
      s.transact t = (s.writeLocation l w).answer .okay) := by
  unfold State.transact
  split_ifs with h
  · exact .inl ⟨_, rfl⟩
  · split
    · exact .inl ⟨_, rfl⟩
    · rename_i l hl
      split
      · exact .inl ⟨_, rfl⟩
      · exact .inr ⟨l, _, by omega, by omega, hl, rfl⟩

/-- What serving a host event can do when it answers a next state. -/
theorem State.serve_cases {s t : State} {e : HostEvent} {rest : List HostEvent} (h : s.serve e rest = .next t) :
    (s.inReset = false ∧ ∃ x, t = (s.consume rest).transact x) ∨
    (s.inReset = false ∧ s.status.busy = true ∧ t = ((s.consume rest).transact statusRead).again .poll) ∨
    t = (s.consume rest).assertReset ∨ t = (s.consume rest).releaseReset := by
  cases e <;> simp only [State.serve] at h
  · split at h <;> simp_all
    exact .inl ⟨_, h.symm⟩
  · split at h
    · cases h
    · split at h <;> simp_all
      exact .inl ⟨_, h.symm⟩
  · simp_all
  · simp_all

/-- An IBUF word that the window map gives lies inside IBUF, when IBUF_SIZE is a multiple of 4 (R6). -/
theorem locate_ibuf {p : Params} {off i : Nat} (hp : p.ibufSize % 4 = 0) (ha : off % 4 = 0)
    (h : locate p off = some (.ibuf i)) : off = ibufBase + i ∧ i + 3 < p.ibufSize ∧ i % 4 = 0 := by
  unfold locate at h
  split_ifs at h with h1 h2 h3
  · exfalso
    revert h
    unfold registerMap
    simp only [List.cons_append, List.nil_append, List.lookup]
    intro h
    repeat' split at h
    all_goals simp at h
  · simp only [Option.some.injEq, Location.ibuf.injEq] at h
    simp only [ibufBase] at *
    omega
  · cases h

end Sys2Proof.Machine
end

