-- ==== Sys2Proof/Laws/Kernels.lean ====
section
/-! SUPPORT. What each kernel answers when it succeeds, one lemma per kernel, and the binds of its checks taken apart. -/

namespace Sys2Proof.Machine

theorem bind_eq_ok {α β : Type} {x : Except Raised α} {f : α → Except Raised β} {b : β} (h : x.bind f = .ok b) :
    ∃ a, x = .ok a ∧ f a = .ok b := by
  cases x with
  | error e => cases h
  | ok a => exact ⟨a, rfl, h⟩

theorem map_eq_ok {α β : Type} {x : Except Raised α} {f : α → β} {b : β} (h : x.map f = .ok b) :
    ∃ a, x = .ok a ∧ b = f a := by
  cases x with
  | error e => cases h
  | ok a => cases h; exact ⟨a, rfl, rfl⟩

theorem bind_eq_error {α β : Type} {x : Except Raised α} {f : α → Except Raised β} {e : Raised} (h : x.bind f = .error e) :
    x = .error e ∨ ∃ a, x = .ok a ∧ f a = .error e := by
  cases x with
  | error e' => cases h; exact .inl rfl
  | ok a => exact .inr ⟨a, rfl, h⟩

theorem map_eq_error {α β : Type} {x : Except Raised α} {f : α → β} {e : Raised} (h : x.map f = .error e) : x = .error e := by
  cases x with
  | error e' => cases h; rfl
  | ok a => cases h

theorem raise_ne_ok {α : Type} {k : ErrorKind} {a : α} : raise k ≠ .ok a := by
  intro h; cases h

theorem State.input_eq_ok {s : State} {bs : List Byte} (h : s.input = .ok bs) :
    s.inLen.toNat ≤ s.params.ibufSize ∧ bs = s.inBytes := by
  unfold State.input at h
  split_ifs at h with hl
  · exact absurd h raise_ne_ok
  · cases h; exact ⟨Nat.not_lt.1 hl, rfl⟩

theorem State.inBytes_length (s : State) : s.inBytes.length = s.inLen.toNat := by simp [State.inBytes]

theorem crc32TextOf_ok {bs : List Byte} {r : Result} (h : crc32TextOf bs = .ok r) : r = crcDeliver (crcBytes bs) := by
  unfold crc32TextOf at h
  split_ifs at h
  · exact absurd h raise_ne_ok
  · cases h; rfl

theorem crc32HexOf_ok {bs : List Byte} {r : Result} (h : crc32HexOf bs = .ok r) :
    r = crcDeliver (crcBytes (hexDecode (stripWs bs))) := by
  unfold crc32HexOf at h
  split_ifs at h
  all_goals first | exact absurd h raise_ne_ok | (cases h; rfl)

theorem xorFoldOf_ok {bs : List Byte} {r : Result} (h : xorFoldOf bs = .ok r) :
    ∃ acc, foldTokens 0 (tokens bs) = .ok acc ∧ r = xorDeliver acc := by
  unfold xorFoldOf at h
  split_ifs at h
  · exact absurd h raise_ne_ok
  · exact map_eq_ok h

theorem b64EncOf_ok {bs : List Byte} {r : Result} (h : b64EncOf bs = .ok r) : r = { out := b64Encode bs } := by
  cases h; rfl

theorem b64DecOf_ok {bs : List Byte} {r : Result} (h : b64DecOf bs = .ok r) :
    ∃ out, b64Decode bs = some out ∧ validUtf8 out = true ∧ r = { out := out } := by
  unfold b64DecOf at h
  split_ifs at h with h1
  · exact absurd h raise_ne_ok
  · split at h
    · exact absurd h raise_ne_ok
    · rename_i out ho
      split_ifs at h with h2
      · cases h; exact ⟨out, ho, h2, rfl⟩
      · exact absurd h raise_ne_ok

theorem bconvOf_ok {q : Radix} {bs : List Byte} {r : Result} (h : bconvOf q bs = .ok r) :
    digitsVal (radixBase q) bs ≤ Config.magMax ∧
      r = { res0 := BitVec.ofNat 64 (digitsVal (radixBase q) bs), out := radixLines q (digitsVal (radixBase q) bs) } := by
  obtain ⟨m, hm, rfl⟩ := map_eq_ok h
  unfold bconvValue at hm
  split_ifs at hm with h1 h2 h3
  all_goals first | exact absurd hm raise_ne_ok | (cases hm; exact ⟨Nat.not_lt.1 h3, rfl⟩)

theorem storDeliver_ok {bytes : DWord} {r : Result} (h : storDeliver bytes = .ok r) :
    F64.isInf (storBits bytes) = false ∧
      r = { res0 := storBits bytes, res1 := bytes, res2 := storKB bytes, res3 := storMB bytes, res4 := storGB bytes
            out := storLines bytes } := by
  unfold storDeliver at h
  split_ifs at h with h1
  · exact absurd h raise_ne_ok
  · cases h; exact ⟨by simpa using h1, rfl⟩

theorem storOf_ok {u : StorUnit} {bs : List Byte} {r : Result} (h : storOf u bs = .ok r) :
    ∃ bytes, storBytes u (trimWs bs) = .ok bytes ∧ storDeliver bytes = .ok r := bind_eq_ok h

theorem clkSolveOf_ok {src tgt duty : DWord} {r : Result} (h : clkSolveOf src tgt duty = .ok r) :
    r = solveDeliver src duty (solveChoice src tgt) := by
  unfold clkSolveOf at h
  split_ifs at h
  · cases h; rfl
  · exact absurd h raise_ne_ok

theorem clkPureOf_ok {u src tgt : DWord} {d : Nat} {r : Result} (h : clkPureOf u src tgt d = .ok r) :
    r = { res0 := BitVec.ofNat 64 d, res1 := purePeriod src tgt d, res3 := pureAchieved src tgt d
          res4 := pureTime u src tgt d } := by
  unfold clkPureOf at h
  split_ifs at h
  · cases h; rfl
  · exact absurd h raise_ne_ok

/-- The ladder search sets at most one warning. -/
theorem solveChoice_warnings (src tgt : DWord) :
    ((solveChoice src tgt).ovf && (solveChoice src tgt).unf) = false := by
  unfold solveChoice
  generalize searchLadder src tgt Config.ladder = o
  generalize tooHigh src tgt = b
  cases o <;> cases b <;> rfl

/-- A command that succeeds sets no warning, but for CLK.SOLVE, which sets at most one. -/
theorem outcomeOf_warnings {i : Instr} {s : State} {r : Result} (h : outcomeOf i s = .ok r) :
    (r.ovf && r.unf) = false ∧ (r.ovf = true ∨ r.unf = true → i = .clkSolve) := by
  cases i <;> simp only [outcomeOf] at h
  case crc32Text => obtain ⟨_, _, h⟩ := bind_eq_ok h; rw [crc32TextOf_ok h]; simp [crcDeliver]
  case crc32Hex => obtain ⟨_, _, h⟩ := bind_eq_ok h; rw [crc32HexOf_ok h]; simp [crcDeliver]
  case xorFold => obtain ⟨_, _, h⟩ := bind_eq_ok h; obtain ⟨_, _, rfl⟩ := xorFoldOf_ok h; simp [xorDeliver]
  case b64Enc => obtain ⟨_, _, h⟩ := bind_eq_ok h; rw [b64EncOf_ok h]; simp
  case b64Dec => obtain ⟨_, _, h⟩ := bind_eq_ok h; obtain ⟨_, _, _, rfl⟩ := b64DecOf_ok h; simp
  case clkSolve =>
    obtain rfl := clkSolveOf_ok h
    clear h
    have hw := solveChoice_warnings s.src s.tgt
    generalize solveChoice s.src s.tgt = c at hw ⊢
    exact ⟨hw, fun _ => rfl⟩
  case bconvR2 | bconvR8 | bconvR10 | bconvR16 => obtain ⟨_, _, h⟩ := bind_eq_ok h; rw [(bconvOf_ok h).2]; simp
  case storReg | storBit | storByte | storKb | storMb | storGb =>
    obtain ⟨_, _, h⟩ := bind_eq_ok h
    obtain ⟨_, _, h⟩ := storOf_ok h
    rw [(storDeliver_ok h).2]
    simp
  case clkPureS | clkPureMs | clkPureUs | clkPureNs => rw [clkPureOf_ok h]; simp

end Sys2Proof.Machine
end

