-- ==== Sys2Proof/Laws/Completion.lean ====
section
/-! SUPPORT. What a completion leaves, in the words of the claims: `Succeeded` for a result, `Failed` for an error; and how many
digits a rendered number has. -/

namespace Sys2Proof.Machine

theorem F64.one_eq : F64.one = 2 ^ 1074 := by unfold F64.one; rfl

theorem completed_word_ok (ign ovf unf : Bool) :
    (Status.completed ign ovf unf 0).word = completionWord 0 ign unf ovf := by
  cases ign <;> cases ovf <;> cases unf <;> decide

theorem completed_word_error (ign : Bool) (k : ErrorKind) :
    (Status.completed ign false false k.code).word = completionWord k.code ign false false := by
  cases ign <;> cases k <;> decide

/-- The OBUF bytes of a completion: the output below OUT_LEN and nothing from there on. -/
theorem State.publish_read_obuf (s : State) (r : Result) (i : Nat) :
    (s.publish r).mem.read? (obufBase + i) = r.out[i]? := by
  rw [State.publish_mem, Memory.read?_writeBytes, Memory.read?_forgetFrom]
  by_cases h : i < r.out.length
  · rw [if_pos (by omega), Nat.add_sub_cancel_left]
  · rw [if_neg (by omega), if_neg (by omega), List.getElem?_eq_none (by omega)]

theorem State.publish_read_below (s : State) (r : Result) {off : Nat} (h : off < obufBase) :
    (s.publish r).mem.read? off = s.mem.read? off := by
  rw [State.publish_mem, Memory.read?_writeBytes, if_neg (by omega), Memory.read?_forgetFrom, if_pos h]

theorem State.fail_read_obuf (s : State) (e : Raised) (i : Nat) : (s.fail e).mem.read? (obufBase + i) = none := by
  rw [State.fail_mem, Memory.read?_forgetFrom, if_neg (by omega)]

theorem State.fail_read_below (s : State) (e : Raised) {off : Nat} (h : off < obufBase) :
    (s.fail e).mem.read? off = s.mem.read? off := by
  rw [State.fail_mem, Memory.read?_forgetFrom, if_pos h]

theorem State.publish_outBytes (s : State) (r : Result) (h : r.out.length < 2 ^ 32) : (s.publish r).outBytes = r.out := by
  have hl : (BitVec.ofNat 32 r.out.length).toNat = r.out.length := by simp [BitVec.toNat_ofNat]; omega
  refine List.ext_getElem (by simp [State.outBytes, hl]) fun i h1 h2 => ?_
  simp only [State.outBytes, List.getElem_map, List.getElem_range, State.obByte, State.publish_read_obuf,
    List.getElem?_eq_getElem h2]

/-- A completion with a result, as a host finds it. -/
theorem State.publish_succeeded (s : State) (r : Result) (h : r.out.length < 2 ^ 32) :
    Succeeded s (s.publish r) r.res0 r.res1 r.res2 r.res3 r.res4 r.out r.ovf r.unf where
  res0 := rfl
  res1 := rfl
  res2 := rfl
  res3 := rfl
  res4 := rfl
  outLen := by rw [State.publish_outLen, BitVec.toNat_ofNat, Nat.mod_eq_of_lt h]
  output := State.publish_outBytes s r h
  errPos := rfl
  errLen := rfl
  status := completed_word_ok _ _ _

/-- An error completion, as a host finds it. -/
theorem State.fail_failed (s : State) (e : Raised) : Failed s (s.fail e) e.kind e.pos e.len where
  res0 := rfl
  res1 := rfl
  res2 := rfl
  res3 := rfl
  res4 := rfl
  outLen := rfl
  errPos := rfl
  errLen := rfl
  status := completed_word_error _ _

/-- A command whose outcome is a result completes with it. -/
theorem exec_succeeds {i : Instr} {s : State} {r : Result} (h : outcomeOf i s = .ok r) (hl : r.out.length < 2 ^ 32) :
    exec i s = .next (s.publish r) ∧ Succeeded s (s.publish r) r.res0 r.res1 r.res2 r.res3 r.res4 r.out r.ovf r.unf := by
  rw [exec_eq_complete, h]
  exact ⟨rfl, State.publish_succeeded s r hl⟩

/-- A command whose outcome is an error completes with that error. -/
theorem exec_fails {i : Instr} {s : State} {e : Raised} (h : outcomeOf i s = .error e) :
    exec i s = .next (s.fail e) ∧ Failed s (s.fail e) e.kind e.pos e.len := by
  rw [exec_eq_complete, h]
  exact ⟨rfl, State.fail_failed s e⟩

theorem renderAux_length_le {r k : Nat} : ∀ (fuel n : Nat) (acc : List Byte), n < r ^ k → 0 < k →
    (renderAux r fuel n acc).length ≤ k + acc.length := by
  induction k with
  | zero => intro _ _ _ _ h; exact absurd h (by omega)
  | succ k ih =>
    intro fuel n acc hn _
    cases fuel with
    | zero => simp [renderAux]
    | succ fuel =>
      rw [renderAux]
      split_ifs with h
      · simp only [List.length_cons]; omega
      · have hk : 0 < k := by
          rcases Nat.eq_zero_or_pos k with rfl | hk
          · rw [Nat.zero_add, pow_one] at hn; omega
          · exact hk
        have := ih fuel (n / r) (digitByte (n % r) :: acc)
          (Nat.div_lt_of_lt_mul (by rwa [pow_succ, Nat.mul_comm] at hn)) hk
        simp only [List.length_cons] at this
        omega

/-- A number below `r^k` has at most `k` digits in radix `r`. -/
theorem render_length_le {r n k : Nat} (hn : n < r ^ k) (hk : 0 < k) : (render r n).length ≤ k := by
  simpa [render] using renderAux_length_le (n.log2 + 1) n [] hn hk

end Sys2Proof.Machine
end

