-- ==== Sys2Proof/Laws/Binary64.lean ====
section
/-! SUPPORT. How the binary64 patterns of Machine/Binary64.lean read by the fields of Safety.lean, and what `make` and `neg` put
together. -/

namespace Sys2Proof.Machine.F64

/-! ### Patterns by fields -/

theorem fracField_lt (x : DWord) : fracField x < 2 ^ 52 := by unfold fracField; omega

theorem expField_lt (x : DWord) : expField x < 2 ^ 11 := by unfold expField; omega

theorem mag_eq (x : DWord) : mag x = expField x * 2 ^ 52 + fracField x := by unfold mag expField fracField; omega

theorem mag_lt (x : DWord) : mag x < 2 ^ 63 := by unfold mag; omega

theorem isFinite_iff {x : DWord} : isFinite x = true ↔ FiniteBits x := by
  have h := mag_eq x; have hf := fracField_lt x
  unfold isFinite infMag FiniteBits; rw [decide_eq_true_iff]; omega

theorem isInf_iff {x : DWord} : isInf x = true ↔ InfiniteBits x := by
  have h := mag_eq x; have hf := fracField_lt x
  unfold isInf infMag InfiniteBits; rw [decide_eq_true_iff]; omega

theorem isNaN_iff {x : DWord} : isNaN x = true ↔ NanBits x := by
  have h := mag_eq x; have hf := fracField_lt x; have he := expField_lt x
  unfold isNaN infMag NanBits; rw [decide_eq_true_iff]; omega

theorem units_eq (x : DWord) : units x = exactUnits x := by
  have h := mag_eq x; have hf := fracField_lt x
  have h1 : mag x / 2 ^ 52 = expField x := by omega
  have h2 : mag x % 2 ^ 52 = fracField x := by omega
  unfold units magUnits exactUnits
  rw [h1, h2]
  split_ifs with h0
  · rw [h, h0]; simp
  · rfl

theorem value_eq (x : DWord) : value x = exactValue x := by unfold value exactValue; rw [units_eq]; rfl

/-- A finite pattern is no NaN and no infinity. -/
theorem of_finite {x : DWord} (h : FiniteBits x) : isNaN x = false ∧ isInf x = false := by
  rw [← Bool.not_eq_true, ← Bool.not_eq_true, isNaN_iff, isInf_iff]
  unfold FiniteBits at h; unfold NanBits InfiniteBits; omega

/-- An infinity is no NaN. -/
theorem of_infinite {x : DWord} (h : InfiniteBits x) : isNaN x = false ∧ isInf x = true := by
  refine ⟨?_, isInf_iff.2 h⟩
  rw [← Bool.not_eq_true, isNaN_iff]
  unfold InfiniteBits at h; unfold NanBits; omega

theorem infinite_eq {x : DWord} (h : InfiniteBits x) : x = signedInf x.msb := by
  apply BitVec.eq_of_toNat_eq
  unfold InfiniteBits expField fracField at h
  have hx := x.isLt
  rw [BitVec.msb_eq_decide]
  by_cases h' : 2 ^ 63 ≤ x.toNat
  · rw [decide_eq_true h']; show x.toNat = 0xFFF0000000000000; omega
  · rw [decide_eq_false h']; show x.toNat = 0x7FF0000000000000; omega

/-! ### Patterns put together -/

theorem make_toNat (s : Bool) {m : Nat} (h : m < 2 ^ 63) : (make s m).toNat = (if s then 2 ^ 63 else 0) + m := by
  unfold make; rw [BitVec.toNat_ofNat]; cases s <;> simp <;> omega

theorem make_msb (s : Bool) {m : Nat} (h : m < 2 ^ 63) : (make s m).msb = s := by
  rw [BitVec.msb_eq_decide, make_toNat s h]; cases s <;> simp; omega

theorem make_mag (s : Bool) {m : Nat} (h : m < 2 ^ 63) : mag (make s m) = m := by
  unfold mag; rw [make_toNat s h]; cases s <;> simp <;> omega

theorem make_exactUnits (s : Bool) {m : Nat} (h : m < 2 ^ 63) : exactUnits (make s m) = magUnits m := by
  rw [← units_eq, units, make_mag s h]

theorem inf_eq (s : Bool) : inf s = signedInf s := by cases s <;> decide

theorem make_zero (s : Bool) : make s 0 = signedZero s := by cases s <;> decide

theorem roundMag_le (n d : Nat) : roundMag n d ≤ infMag := by unfold roundMag; exact Nat.min_le_right _ _

theorem neg_msb (x : DWord) : (neg x).msb = !x.msb := by
  have : (0x8000000000000000#64).msb = true := by decide
  unfold neg; rw [BitVec.msb_xor, this, Bool.xor_true]

theorem neg_mag (x : DWord) : mag (neg x) = mag x := by
  have h : ∀ y : DWord, mag y = (y.setWidth 63).toNat := fun y => by unfold mag; simp
  rw [h, h]
  congr 1
  ext i hi
  unfold neg
  simp

theorem neg_value (x : DWord) : value (neg x) = - value x := by
  unfold value units sign
  rw [neg_mag, neg_msb]
  cases x.msb <;> simp

end Sys2Proof.Machine.F64
end

