-- ==== Sys2Proof/Laws/HostAsm.lean ====
section
/-! SUPPORT. What `toF64` of R9 gives on each side of zero, and the two forms of `ldarg` (R100). -/

namespace Sys2Proof.Machine

/-- On a rational that is not negative `toF64` is the conversion that the commands use. -/
theorem F64.toF64_of_nonneg {r : Rat} (h : 0 ≤ r) : F64.toF64 r = F64.ofRat r.num.natAbs r.den := by
  have : ¬ r.num < 0 := Int.not_lt.2 (Rat.num_nonneg.2 h)
  unfold F64.toF64 F64.ofRat
  simp [this]

theorem F64.toF64_natCast (n : Nat) : F64.toF64 (n : Rat) = F64.ofNat n := by
  rw [F64.toF64_of_nonneg (Rat.natCast_nonneg), F64.ofNat]; rfl

/-- A rational at least 2^1024 - 2^970 in absolute value, of either sign, gives +infinity (R9). -/
theorem F64.toF64_of_overflow {r : Rat} (h : F64.roundMag (r.num.natAbs * F64.one) r.den = F64.infMag) :
    F64.toF64 r = F64.inf false := by
  unfold F64.toF64 F64.inf
  simp [h]

/-- A negative rational below the overflow threshold gives the opposite sign of its absolute value's pattern. -/
theorem F64.toF64_of_neg {r : Rat} (h : r < 0) (hf : F64.roundMag (r.num.natAbs * F64.one) r.den ≠ F64.infMag) :
    F64.toF64 r = F64.make true (F64.roundMag (r.num.natAbs * F64.one) r.den) := by
  have : r.num < 0 := Rat.num_neg.2 h
  unfold F64.toF64
  simp [this, hf]

/-- `ldarg ARGn, f64(r)` writes the bits of `toF64(r)` (R100). -/
theorem expand_ldargF64 (n : Fin 3) (r : Rat) : expand (.ldargF64 n r) = expand (.ldarg n (F64.toF64 r)) := rfl

end Sys2Proof.Machine
end

