-- ==== Sys2Proof/Laws/PerInstr.lean ====
section
/-! SUPPORT. What holds of every command as syntax: the fields of its word (R90 to R93). -/

namespace Sys2Proof.Laws.EncodedShape

/-- The word of a command has RSV = 0, the command's OPC and SUB, and a SUB that is listed for its OPC (R90 to R93). -/
def Statement (i : Instr) : Prop :=
  i.wellFormed = true ∧ rsvField (encode i) = 0 ∧ opcField (encode i) = i.opc ∧ subField (encode i) = i.sub ∧
    i.sub.toNat < Sys2Proof.Machine.subsListed i.opc.toNat

theorem crc32Text : Statement .crc32Text := by unfold Statement; decide
theorem crc32Hex : Statement .crc32Hex := by unfold Statement; decide
theorem xorFold : Statement .xorFold := by unfold Statement; decide
theorem b64Enc : Statement .b64Enc := by unfold Statement; decide
theorem b64Dec : Statement .b64Dec := by unfold Statement; decide
theorem bconvR2 : Statement .bconvR2 := by unfold Statement; decide
theorem bconvR8 : Statement .bconvR8 := by unfold Statement; decide
theorem bconvR10 : Statement .bconvR10 := by unfold Statement; decide
theorem bconvR16 : Statement .bconvR16 := by unfold Statement; decide
theorem storReg : Statement .storReg := by unfold Statement; decide
theorem storBit : Statement .storBit := by unfold Statement; decide
theorem storByte : Statement .storByte := by unfold Statement; decide
theorem storKb : Statement .storKb := by unfold Statement; decide
theorem storMb : Statement .storMb := by unfold Statement; decide
theorem storGb : Statement .storGb := by unfold Statement; decide
theorem clkSolve : Statement .clkSolve := by unfold Statement; decide
theorem clkPureS : Statement .clkPureS := by unfold Statement; decide
theorem clkPureMs : Statement .clkPureMs := by unfold Statement; decide
theorem clkPureUs : Statement .clkPureUs := by unfold Statement; decide
theorem clkPureNs : Statement .clkPureNs := by unfold Statement; decide

end Sys2Proof.Laws.EncodedShape
end

