-- ==== Sys2Proof/Laws/Shapes.lean ====
section
/-! SUPPORT. The parsers of the string commands agree with the input shapes of Safety.lean: one lemma per parser. -/

namespace Sys2Proof.Machine

theorem ascii_0x : ascii "0x" = [0x30, 0x78] := by decide

theorem ascii_0b : ascii "0b" = [0x30, 0x62] := by decide

theorem digits_iff {p : Byte → Bool} {s : List Byte} : Digits p s ↔ s ≠ [] ∧ s.all p = true := by
  simp [Digits, List.all_eq_true]

/-! ### Token classes (R131) -/

theorem classValue_eq_some {p : Byte → Bool} {r v : Nat} {s : List Byte} :
    classValue p r s = some v ↔ Digits p s ∧ v = digitsVal r s := by
  unfold classValue
  split_ifs with h
  · rw [Option.some.injEq, eq_comm, and_iff_right (digits_iff.2 h)]
  · exact ⟨(fun e => nomatch e), fun e => absurd (digits_iff.1 e.1) h⟩

theorem take_two_eq {a b : Byte} {t : List Byte} (h : t.take 2 = [a, b]) : t = [a, b] ++ t.drop 2 := by
  rw [← h, List.take_append_drop]

/-- `tokenValue` gives exactly the values that tokens of the classes of R131 denote. -/
theorem tokenValue_eq_some {t : List Byte} {v : Nat} : tokenValue t = some v ↔ Denotes t v := by
  unfold tokenValue
  rw [ascii_0x, ascii_0b]
  constructor
  · intro h
    split_ifs at h with h1 h2
    · obtain ⟨hd, rfl⟩ := classValue_eq_some.1 h
      rw [take_two_eq h1]; exact .hex _ hd
    · obtain ⟨hd, rfl⟩ := classValue_eq_some.1 h
      rw [take_two_eq h2]; exact .bin _ hd
    · obtain ⟨hd, rfl⟩ := classValue_eq_some.1 h
      exact .dec _ hd
  · intro h
    cases h with
    | hex h hd => exact (if_pos (by simp)).trans (classValue_eq_some.2 ⟨hd, rfl⟩)
    | bin h hd =>
      rw [if_neg (by simp), if_pos (by simp)]
      exact classValue_eq_some.2 ⟨hd, rfl⟩
    | dec h hd =>
      have hx : ∀ b : Byte, isDec b = false → t.take 2 ≠ [0x30, b] := by
        intro b hb he
        rw [hd.2 b (List.take_subset 2 t (by rw [he]; simp))] at hb
        exact Bool.noConfusion hb
      rw [if_neg (hx _ (by decide)), if_neg (hx _ (by decide))]
      exact classValue_eq_some.2 ⟨hd, rfl⟩

/-- A token of no class of R131. -/
theorem tokenValue_eq_none {t : List Byte} : tokenValue t = none ↔ ∀ v, ¬ Denotes t v := by
  simp only [← tokenValue_eq_some, Option.eq_none_iff_forall_ne_some, ne_eq]

/-! ### Trimming (R11) -/

theorem dropWhile_append_of_all {p : Byte → Bool} {l m : List Byte} (h : ∀ c ∈ l, p c = true) :
    (l ++ m).dropWhile p = m.dropWhile p := by
  induction l with
  | nil => rfl
  | cons a l ih =>
    rw [List.cons_append, List.dropWhile_cons_of_pos (h a (by simp)), ih fun c hc => h c (by simp [hc])]

theorem dropWhile_of_head {p : Byte → Bool} {l : List Byte} (h : ∀ c, l.head? = some c → p c = false) :
    l.dropWhile p = l := by
  cases l with
  | nil => rfl
  | cons a l => rw [List.dropWhile_cons_of_neg]; simp [h a rfl]

theorem takeWhile_append_of_all {p : Byte → Bool} {l m : List Byte} (h : ∀ c ∈ l, p c = true)
    (hm : ∀ c, m.head? = some c → p c = false) : (l ++ m).takeWhile p = l := by
  induction l with
  | nil =>
    cases m with
    | nil => rfl
    | cons a m => rw [List.nil_append, List.takeWhile_cons_of_neg]; simp [hm a rfl]
  | cons a l ih =>
    rw [List.cons_append, List.takeWhile_cons_of_pos (h a (by simp)), ih fun c hc => h c (by simp [hc])]

/-- `trimWS` takes the whitespace around off and leaves the rest. -/
theorem trimWs_eq {lead core trail : List Byte} (h : ∀ c ∈ lead ++ trail, isWs c = true) (hc : Trimmed core) :
    trimWs (lead ++ core ++ trail) = core := by
  have hl : ∀ c ∈ lead, isWs c = true := fun c m => h c (by simp [m])
  have ht : ∀ c ∈ trail.reverse, isWs c = true := fun c m => h c (by simp [List.mem_reverse.1 m])
  have hr : core.reverse.dropWhile isWs = core.reverse :=
    dropWhile_of_head fun c e => hc c (.inr (by rwa [List.head?_reverse] at e))
  unfold trimWs
  rw [List.append_assoc, dropWhile_append_of_all hl]
  by_cases hn : core = []
  · subst hn
    have : trail.dropWhile isWs = [] := by
      rw [← List.append_nil trail, dropWhile_append_of_all fun c m => h c (by simp [m])]; rfl
    rw [List.nil_append, this]; rfl
  · have hcore : (core ++ trail).dropWhile isWs = core ++ trail := dropWhile_of_head fun c e => hc c (.inl (by
      cases core with
      | nil => exact absurd rfl hn
      | cons a l => exact e))
    rw [hcore, List.reverse_append, dropWhile_append_of_all ht, hr, List.reverse_reverse]

/-! ### Storage shapes (R201, R203) -/

/-- `plainShape` finds exactly the plain numbers. -/
theorem plainShape_eq_some {s whole frac : List Byte} : plainShape s = some (whole, frac) ↔ PlainNumber s whole frac := by
  have hdot : isDec 0x2E = false := by decide
  constructor
  · intro h
    unfold plainShape at h
    split_ifs at h with h0
    have hs := List.takeWhile_append_dropWhile (p := isDec) (l := s)
    have hall : ∀ c ∈ s.takeWhile isDec, isDec c = true := fun c hc => List.mem_takeWhile_imp hc
    split at h
    · rename_i hd
      cases h
      rw [hd, List.append_nil] at hs
      rw [hs] at hall h0
      exact ⟨⟨h0, hall⟩, .inl ⟨rfl, rfl⟩⟩
    · rename_i c f hd
      split_ifs at h with hc
      cases h
      rw [hd, hc.1] at hs
      have hf : Digits isDec frac := by simpa [decShape, digits_iff] using hc.2
      exact ⟨⟨h0, hall⟩, .inr ⟨hf, by rw [List.append_assoc]; exact hs.symm⟩⟩
  · rintro ⟨hw, ⟨rfl, rfl⟩ | ⟨hf, rfl⟩⟩
    · have ht : s.takeWhile isDec = s := by
        simpa using takeWhile_append_of_all (m := []) hw.2 (by simp)
      have hd : s.dropWhile isDec = [] := by
        simpa using dropWhile_append_of_all (m := []) hw.2
      unfold plainShape
      rw [ht, hd, if_neg hw.1]
    · have ht : (whole ++ [0x2E] ++ frac).takeWhile isDec = whole := by
        rw [List.append_assoc]
        exact takeWhile_append_of_all hw.2 fun c e => by cases e; exact hdot
      have hd : (whole ++ [0x2E] ++ frac).dropWhile isDec = 0x2E :: frac := by
        rw [List.append_assoc, dropWhile_append_of_all hw.2]; rfl
      unfold plainShape
      rw [ht, hd, if_neg hw.1]
      have : decShape frac = true := by simpa [decShape, digits_iff] using hf
      simp [this]

/-- `takeHexNumber` reads "0x" and all the hex digits that follow, at least one. -/
theorem takeHexNumber_eq_some {s h rest : List Byte} :
    takeHexNumber s = some (h, rest) ↔
      s = [0x30, 0x78] ++ h ++ rest ∧ Digits isHex h ∧ ∀ c, rest.head? = some c → isHex c = false := by
  unfold takeHexNumber
  rw [ascii_0x]
  constructor
  · intro e
    split_ifs at e with h0
    cases e
    refine ⟨?_, ⟨h0.2, fun c hc => List.mem_takeWhile_imp hc⟩, fun c hc => ?_⟩
    · rw [List.append_assoc, List.takeWhile_append_dropWhile]; exact take_two_eq h0.1
    · have := List.head?_dropWhile_not isHex (s.drop 2)
      rw [hc] at this; simpa using this
  · rintro ⟨rfl, hd, hr⟩
    have e : ([0x30, 0x78] ++ h ++ rest : List Byte).drop 2 = h ++ rest := by simp
    have ht := takeWhile_append_of_all hd.2 hr
    have hw : (h ++ rest).dropWhile isHex = rest := by rw [dropWhile_append_of_all hd.2, dropWhile_of_head hr]
    rw [e, ht, hw, if_pos ⟨by simp, hd.1⟩]

/-- `takeDash` reads a "-" with whitespace around it. -/
theorem takeDash_eq_some {s rest : List Byte} :
    takeDash s = some rest ↔ (∀ c, rest.head? = some c → isWs c = false) ∧
      ∃ w1 w2, (∀ c ∈ w1 ++ w2, isWs c = true) ∧ s = w1 ++ [0x2D] ++ w2 ++ rest := by
  have hdash : isWs 0x2D = false := by decide
  constructor
  · intro e
    unfold takeDash at e
    have hs := List.takeWhile_append_dropWhile (p := isWs) (l := s)
    split at e
    · cases e
    · rename_i c f hd
      split_ifs at e with hc
      cases e
      refine ⟨fun c hc => ?_, s.takeWhile isWs, f.takeWhile isWs, fun c hc => ?_, ?_⟩
      · have := List.head?_dropWhile_not isWs f
        rw [hc] at this; simpa using this
      · rcases List.mem_append.1 hc with h | h <;> exact List.mem_takeWhile_imp h
      · rw [List.append_assoc, List.takeWhile_append_dropWhile, List.append_assoc]
        rw [hd, hc] at hs
        exact hs.symm
  · rintro ⟨hr, w1, w2, hw, rfl⟩
    unfold takeDash
    have e : (w1 ++ [0x2D] ++ w2 ++ rest).dropWhile isWs = 0x2D :: (w2 ++ rest) := by
      rw [List.append_assoc, List.append_assoc, dropWhile_append_of_all fun c m => hw c (by simp [m])]
      exact dropWhile_of_head fun c e => by cases e; exact hdash
    rw [e]
    simp only [if_true]
    rw [dropWhile_append_of_all fun c m => hw c (by simp [m]), dropWhile_of_head hr]

/-- `hexShape` finds exactly the shape HEXNUM. -/
theorem hexShape_eq_some {s h : List Byte} : hexShape s = some h ↔ HexShape s h := by
  unfold hexShape HexShape
  constructor
  · intro e
    rw [Option.bind_eq_bind, Option.bind_eq_some_iff] at e
    obtain ⟨⟨d, rest⟩, e1, e2⟩ := e
    obtain ⟨hs, hd, -⟩ := takeHexNumber_eq_some.1 e1
    simp only at e2
    split_ifs at e2 with hr
    cases e2
    exact ⟨hd, by rw [hs, hr, List.append_nil]⟩
  · rintro ⟨hd, rfl⟩
    rw [takeHexNumber_eq_some.2 ⟨(List.append_nil _).symm, hd, by simp⟩]
    rfl

/-- `rangeShape` finds exactly the shape RANGE. -/
theorem rangeShape_eq_some {s hs he : List Byte} : rangeShape s = some (hs, he) ↔ RangeShape s hs he := by
  unfold rangeShape RangeShape
  constructor
  · intro e
    rw [Option.bind_eq_bind, Option.bind_eq_some_iff] at e
    obtain ⟨⟨d1, r1⟩, e1, e⟩ := e
    simp only at e
    rw [Option.bind_eq_bind, Option.bind_eq_some_iff] at e
    obtain ⟨r2, e2, e⟩ := e
    rw [Option.bind_eq_some_iff] at e
    obtain ⟨⟨d3, r3⟩, e3, e⟩ := e
    simp only at e
    split_ifs at e with hr
    cases e
    obtain ⟨h1, hd1, -⟩ := takeHexNumber_eq_some.1 e1
    obtain ⟨-, w1, w2, hw, h2⟩ := takeDash_eq_some.1 e2
    obtain ⟨h3, hd3, -⟩ := takeHexNumber_eq_some.1 e3
    exact ⟨hd1, hd3, w1, w2, hw, by rw [h1, h2, h3, hr]; simp⟩
  · rintro ⟨hd1, hd3, w1, w2, hw, rfl⟩
    have hx : ∀ c, isWs c = true → isHex c = false := by decide
    have e1 : takeHexNumber ([0x30, 0x78] ++ hs ++ w1 ++ [0x2D] ++ w2 ++ [0x30, 0x78] ++ he) =
        some (hs, w1 ++ [0x2D] ++ w2 ++ ([0x30, 0x78] ++ he)) := by
      refine takeHexNumber_eq_some.2 ⟨by simp, hd1, fun c hc => ?_⟩
      cases w1 with
      | nil => cases hc; decide
      | cons a w => cases hc; exact hx _ (hw _ (by simp))
    have e2 : takeDash (w1 ++ [0x2D] ++ w2 ++ ([0x30, 0x78] ++ he)) = some ([0x30, 0x78] ++ he) :=
      takeDash_eq_some.2 ⟨fun c hc => by cases hc; decide, w1, w2, hw, rfl⟩
    have e3 : takeHexNumber ([0x30, 0x78] ++ he) = some (he, []) :=
      takeHexNumber_eq_some.2 ⟨by simp, hd3, by simp⟩
    rw [e1]
    simp only [Option.bind_eq_bind, Option.bind_some, e2, e3, if_true]

/-- Input of no shape of R201, as the three parsers find it. -/
theorem registerShape_iff {s : List Byte} :
    RegisterShape s ↔ (rangeShape s).isSome = true ∨ (hexShape s).isSome = true ∨ decShape s = true := by
  have hd : decShape s = true ↔ Digits isDec s := by simp [decShape, digits_iff]
  simp only [RegisterShape, Option.isSome_iff_exists, hexShape_eq_some, hd, Prod.exists, rangeShape_eq_some]

end Sys2Proof.Machine
end

