-- ==== Sys2Proof/Tests/Slice0.lean ====
section
/-! SUPPORT. The model's own tests. Expected values are those of spec/95_test_vectors.md (the vector is named beside each) or of
the rule's own table. The second half holds one witness theorem per statement with hypotheses. -/

open Sys2Proof Sys2Proof.Machine

namespace Sys2Proof.Tests

/- Many kernel evaluations at once ask for more threads than the checks' memory bound lets Lean have: one at a time. -/
set_option Elab.async false

/-! ### Small states -/

/-- A state right after reset whose input string is `bs`. -/
def loaded (bs : List Byte) : State :=
  { State.reset with inLen := BitVec.ofNat 32 bs.length, mem := Memory.writeBytes [] ibufBase bs }

/-- The same for an ASCII text. -/
def text (t : String) : State := loaded (ascii t)

/-- A state right after reset with these ARG registers. -/
def clock (a0 a1 a2 : DWord) : State := { State.reset with arg0 := a0, arg1 := a1, arg2 := a2 }

/-- An idle block whose only pending event is `e`. -/
def facing (e : HostEvent) : State := { State.reset with pending := [e] }

/-- A block with CRC32.TEXT in flight that lets `e` come first. -/
def busyFacing (e : HostEvent) : State := { facing e with status := Status.accepted, cmd := 0x00000001, wait := 2 }

/-- What a host finds after a step: STATUS, RES0 to RES4 and the output text. -/
def seen (o : Host.Outcome State Fault Refusal) : Option (Word × List DWord × List Byte) :=
  match o with
  | .next t =>
    some (t.status.word, [t.res0, t.res1, t.res2, t.res3, t.res4],
      (List.range t.outLen.toNat).filterMap (fun i => t.mem.read? (obufBase + i)))
  | _ => none

/-- STATUS, ERR_POS and ERR_LEN after a step. -/
def located (o : Host.Outcome State Fault Refusal) : Option (Word × Word × Word) :=
  match o with
  | .next t => some (t.status.word, t.errPos, t.errLen)
  | _ => none

/-- The bus's answer after a step. -/
def answered (o : Host.Outcome State Fault Refusal) : Option Response :=
  match o with
  | .next t => t.response
  | _ => none

/-- The step that completes the command word `w`. -/
def after (w : Nat) (s : State) : Host.Outcome State Fault Refusal := step (s.withFetchWord 32 w)

/-! ### Well-formedness -/

/-- R6: each bound of IBUF_SIZE, broken once. -/
theorem test_ill_formed_ibuf :
    ({ ibufSize := 4098, obufSize := 8192 } : Params).wellFormed = false ∧
    ({ ibufSize := 0, obufSize := 8192 } : Params).wellFormed = false ∧
    ({ ibufSize := 65540, obufSize := 131072 } : Params).wellFormed = false := by decide

/-- R6: each bound of OBUF_SIZE, broken once. -/
theorem test_ill_formed_obuf :
    ({ ibufSize := 4096, obufSize := 8190 } : Params).wellFormed = false ∧
    ({ ibufSize := 4, obufSize := 2044 } : Params).wellFormed = false ∧
    ({ ibufSize := 65536, obufSize := 87380 } : Params).wellFormed = false ∧
    ({ ibufSize := 4096, obufSize := 131076 } : Params).wellFormed = false := by decide

/-- R6: the default sizes and the extreme ones are legal. -/
theorem test_well_formed :
    Config.defaultParams.wellFormed = true ∧ ({ ibufSize := 4, obufSize := 2048 } : Params).wellFormed = true ∧
    ({ ibufSize := 65536, obufSize := 87384 } : Params).wellFormed = true ∧
    ({ ibufSize := 65536, obufSize := 131072 } : Params).wellFormed = true := by decide

/-! ### Decoding: words written out from R92 as RSV, SUB and OPC -/

theorem test_decode_crc : decode 0b00000000000000000000_0000_00000001 = .ok .crc32Text ∧
    decode 0b00000000000000000000_0001_00000001 = .ok .crc32Hex := by decide

theorem test_decode_xor_b64 : decode 0b00000000000000000000_0000_00000010 = .ok .xorFold ∧
    decode 0b00000000000000000000_0000_00000011 = .ok .b64Enc ∧
    decode 0b00000000000000000000_0001_00000011 = .ok .b64Dec := by decide

theorem test_decode_bconv : decode 0b00000000000000000000_0000_00000100 = .ok .bconvR2 ∧
    decode 0b00000000000000000000_0001_00000100 = .ok .bconvR8 ∧
    decode 0b00000000000000000000_0010_00000100 = .ok .bconvR10 ∧
    decode 0b00000000000000000000_0011_00000100 = .ok .bconvR16 := by decide

theorem test_decode_stor : decode 0b00000000000000000000_0000_00000101 = .ok .storReg ∧
    decode 0b00000000000000000000_0001_00000101 = .ok .storBit ∧
    decode 0b00000000000000000000_0010_00000101 = .ok .storByte ∧
    decode 0b00000000000000000000_0011_00000101 = .ok .storKb ∧
    decode 0b00000000000000000000_0100_00000101 = .ok .storMb ∧
    decode 0b00000000000000000000_0101_00000101 = .ok .storGb := by decide

theorem test_decode_clk : decode 0b00000000000000000000_0000_00000110 = .ok .clkSolve ∧
    decode 0b00000000000000000000_0000_00000111 = .ok .clkPureS ∧
    decode 0b00000000000000000000_0001_00000111 = .ok .clkPureMs ∧
    decode 0b00000000000000000000_0010_00000111 = .ok .clkPureUs ∧
    decode 0b00000000000000000000_0011_00000111 = .ok .clkPureNs := by decide

/-- W1 to W4: the words that encode no command; and SUB just past each list of R92. -/
theorem test_decode_rejects : decode 0x00000008 = .error .unknownOpc ∧ decode 0x00000000 = .error .unknownOpc ∧
    decode 0x00010001 = .error .reservedBits ∧ decode 0x00001001 = .error .reservedBits ∧
    decode 0x00000201 = .error .unlistedSub ∧ decode 0x00000102 = .error .unlistedSub ∧
    decode 0x00000203 = .error .unlistedSub ∧ decode 0x00000404 = .error .unlistedSub ∧
    decode 0x00000605 = .error .unlistedSub ∧ decode 0x00000106 = .error .unlistedSub ∧
    decode 0x00000407 = .error .unlistedSub := by decide

/-! ### Commands, one step each -/

/-- T1, T4. -/
theorem test_crc32_text :
    seen (after 0x001 (text "Hello, CRC32!")) = some (0x2, [0xEE2AF3F1, 0, 0, 0, 0], ascii "EE2AF3F1\n") ∧
    seen (after 0x001 (text "  a  ")) = some (0x2, [0x402ED25A, 0, 0, 0, 0], ascii "402ED25A\n") := by decide +kernel

/-- T10, T12. -/
theorem test_crc32_text_errors :
    seen (after 0x001 (text " ")) = some (0x106, [0, 0, 0, 0, 0], []) ∧
    seen (after 0x001 { text " " with inLen := 4097 }) = some (0xA06, [0, 0, 0, 0, 0], []) := by decide +kernel

/-- H1, H6. -/
theorem test_crc32_hex :
    seen (after 0x101 (text "31 32 33\n34")) = some (0x2, [0x9BE3E0A3, 0, 0, 0, 0], ascii "9BE3E0A3\n") ∧
    seen (after 0x101 (text "deadbeef")) = some (0x2, [0x7C9CA35A, 0, 0, 0, 0], ascii "7C9CA35A\n") := by decide +kernel

/-- H10, H12, H13. -/
theorem test_crc32_hex_errors :
    seen (after 0x101 (text "abc")) = some (0x206, [0, 0, 0, 0, 0], []) ∧
    seen (after 0x101 (text "0x12")) = some (0x206, [0, 0, 0, 0, 0], []) ∧
    seen (after 0x101 (text " ")) = some (0x106, [0, 0, 0, 0, 0], []) := by decide +kernel

/-- X1, and X2 with its full-width comma. -/
theorem test_xor_fold :
    seen (after 0x002 (text "10,0x1A,25,0b1010")) = some (0x2, [3, 0, 0, 0, 0], ascii "3\n0x3\n0b11\n") ∧
    seen (after 0x002 (loaded (ascii "10" ++ [0xEF, 0xBC, 0x8C] ++ ascii "0x1A\n25 0b1010"))) =
      some (0x2, [3, 0, 0, 0, 0], ascii "3\n0x3\n0b11\n") := by decide +kernel

/-- X13, X16, X17. -/
theorem test_xor_fold_errors :
    located (after 0x002 (text "12,abc,0x")) = some (0x306, 3, 3) ∧
    located (after 0x002 (loaded [0x31, 0x2C, 0xEF, 0xBC, 0x8D, 0x32])) = some (0x306, 2, 4) ∧
    located (after 0x002 (text "18446744073709551616")) = some (0x906, 0, 20) := by decide +kernel

/-- E8, E10. -/
theorem test_b64_enc :
    seen (after 0x003 (text "Hello, CRC32!")) = some (0x2, [0, 0, 0, 0, 0], ascii "SGVsbG8sIENSQzMyIQ==") ∧
    seen (after 0x003 (loaded [0xFF, 0xFE])) = some (0x2, [0, 0, 0, 0, 0], ascii "//4=") := by decide +kernel

/-- D4, D9. -/
theorem test_b64_dec :
    seen (after 0x103 (text "Zh==")) = some (0x2, [0, 0, 0, 0, 0], ascii "f") ∧
    seen (after 0x103 (text "8J+YgA==")) = some (0x2, [0, 0, 0, 0, 0], [0xF0, 0x9F, 0x98, 0x80]) := by decide +kernel

/-- D13, D16; D19 (overlong), D20 (a surrogate), D21 (above U+10FFFF). -/
theorem test_b64_dec_errors :
    seen (after 0x103 (text "Zg=")) = some (0x506, [0, 0, 0, 0, 0], []) ∧
    seen (after 0x103 (text "Zg==Zg==")) = some (0x506, [0, 0, 0, 0, 0], []) ∧
    seen (after 0x103 (text "wA==")) = some (0x606, [0, 0, 0, 0, 0], []) ∧
    seen (after 0x103 (text "7aCA")) = some (0x606, [0, 0, 0, 0, 0], []) ∧
    seen (after 0x103 (text "9JCAgA==")) = some (0x606, [0, 0, 0, 0, 0], []) :=
  ⟨by decide +kernel, by decide +kernel, by decide +kernel, by decide +kernel, by decide +kernel⟩

/-- B2, B17. -/
theorem test_bconv_r2 :
    seen (after 0x004 (text "11111111")) = some (0x2, [255, 0, 0, 0, 0], ascii "0o377\n255\n0xFF\n") ∧
    seen (after 0x004 (text "12")) = some (0x406, [0, 0, 0, 0, 0], []) := by decide +kernel

/-- B3, B13. -/
theorem test_bconv_r8 :
    seen (after 0x104 (text "377")) = some (0x2, [255, 0, 0, 0, 0], ascii "0b11111111\n255\n0xFF\n") ∧
    seen (after 0x104 (text "2000000000000000000000")) = some (0x906, [0, 0, 0, 0, 0], []) := by decide +kernel

/-- B1, B16. -/
theorem test_bconv_r10 :
    seen (after 0x204 (text "255")) = some (0x2, [255, 0, 0, 0, 0], ascii "0b11111111\n0o377\n0xFF\n") ∧
    seen (after 0x204 (text "")) = some (0x106, [0, 0, 0, 0, 0], []) := by decide +kernel

/-- B4, B18. -/
theorem test_bconv_r16 :
    seen (after 0x304 (text "ff")) = some (0x2, [255, 0, 0, 0, 0], ascii "0b11111111\n0o377\n255\n") ∧
    seen (after 0x304 (text "0x1F")) = some (0x406, [0, 0, 0, 0, 0], []) := by decide +kernel

/-- S2. -/
theorem test_stor_reg :
    seen (after 0x005 (text " 0x0000 - 0x4000 ")) =
      some (0x2, [0x4100004000000000, 0x40D0004000000000, 0x4030004000000000, 0x3F90004000000000, 0x3EF0004000000000],
        ascii "bits=131080\nbytes=16385\nKB=16.0\nMB=0.016\n") := by decide +kernel

/-- S24, S27, S34. -/
theorem test_stor_reg_errors :
    located (after 0x005 (text "0x10-0x0F")) = some (0x706, 0, 0) ∧
    located (after 0x005 (text "0-0x10")) = some (0x806, 0, 0) ∧
    located (after 0x005 (text "0x0-0xFFFFFFFFFFFFFFFF")) = some (0x906, 0, 0) := by decide +kernel

/-- The output text alone. -/
def textOf (o : Host.Outcome State Fault Refusal) : Option (List Byte) := (seen o).map (fun x => x.2.2)

/-- S10. -/
theorem test_stor_bit : textOf (after 0x105 (text "9.5")) = some (ascii "bits=16\nbytes=2\nKB=0.002\n") := by
  decide +kernel

/-- S15: a tie in the third place is rounded up. -/
theorem test_stor_byte : textOf (after 0x205 (text "0.9765625")) = some (ascii "bits=7.813\nbytes=0.977\n") := by
  decide +kernel

/-- S13, S14, S31. -/
theorem test_stor_byte_threshold :
    textOf (after 0x205 (text "1.024")) = some (ascii "bits=8.192\nbytes=1.024\nKB=0.001\n") ∧
    textOf (after 0x205 (text "0.0001")) = some (ascii "bits=0.001\nbytes=0.000\n") ∧
    located (after 0x205 (text "-1")) = some (0x806, 0, 0) := by decide +kernel

/-- S18, S19. -/
theorem test_stor_kb :
    textOf (after 0x305 (text "99.96")) = some (ascii "bits=818872.320\nbytes=102359.040\nKB=100.0\nMB=0.098\n") ∧
    textOf (after 0x305 (text "1.0005")) = some (ascii "bits=8196.096\nbytes=1024.512\nKB=1.000\n") := by decide +kernel

/-- S22. -/
theorem test_stor_mb : textOf (after 0x405 (text "1.5")) =
    some (ascii "bits=12582912\nbytes=1572864\nKB=1536\nMB=1.500\nGB=0.001\n") := by decide +kernel

/-- S23. -/
theorem test_stor_gb : textOf (after 0x505 (text "2")) =
    some (ascii "bits=17179869184\nbytes=2147483648\nKB=2097152\nMB=2048\nGB=2.000\n") := by decide +kernel

/-- K6, K8, K9, K16. -/
theorem test_clk_solve :
    seen (after 0x006 (clock 0x41912A8800000000 0x3FF0000000000000 0x4049000000000000)) =
      some (0xA, [128, 65535, 32768, 0x40212A8800000000, 0], []) ∧
    seen (after 0x006 (clock 0x4008000000000000 0x3FF0000000000000 0x4039000000000000)) =
      some (0x2, [1, 2, 1, 0x3FF0000000000000, 0], []) ∧
    seen (after 0x006 (clock 0x412E848000000000 0x4146E36000000000 0x4049000000000000)) =
      some (0x12, [1, 0, 0, 0x412E848000000000, 0], []) ∧
    seen (after 0x006 (clock 0x40F0001000000000 0x3FF0000000000000 0x4049000000000000)) =
      some (0x2, [2, 32768, 16384, 0x3FEFFFE0003FFF80, 0], []) := by decide +kernel

/-- R240 as 95_test_vectors.md lists it: duty -1, duty NaN, src 0, src +infinity, tgt 0; and K4, whose duty is -0, beside
K1's operands. -/
theorem test_clk_solve_operands :
    located (after 0x006 (clock 0x4176E36000000000 0x408F400000000000 0xBFF0000000000000)) = some (0xB06, 0, 0) ∧
    located (after 0x006 (clock 0x4176E36000000000 0x408F400000000000 0x7FF8000000000000)) = some (0xB06, 0, 0) ∧
    located (after 0x006 (clock 0 0x408F400000000000 0)) = some (0xB06, 0, 0) ∧
    located (after 0x006 (clock 0x7FF0000000000000 0x408F400000000000 0)) = some (0xB06, 0, 0) ∧
    located (after 0x006 (clock 0x4176E36000000000 0 0)) = some (0xB06, 0, 0) ∧
    seen (after 0x006 (clock 0x4176E36000000000 0x408F400000000000 0x8000000000000000)) =
      some (0x2, [1, 23999, 0, 0x408F400000000000, 0], []) := by decide +kernel

/-- Q1, Q10. -/
theorem test_clk_pure_s :
    seen (after 0x007 (clock 0x4176E36000000000 0x408F400000000000 1)) =
      some (0x2, [1, 0x40D76FC000000000, 0, 0x408F400000000000, 0x3F50624DD2F1A9FC], []) ∧
    seen (after 0x007 (clock 0x7FE1CCF385EBC8A0 0x01A56E1FC2F8F359 1)) =
      some (0x2, [1, 0x7FF0000000000000, 0, 0, 0x7FF0000000000000], []) := by decide +kernel

/-- Q6. -/
theorem test_clk_pure_ms :
    seen (after 0x107 (clock 0x41912A8800000000 0x3FF0000000000000 1)) =
      some (0x2, [1, 0x41912A87FC000000, 0, 0x3FF0000000000000, 0x408F400000000000], []) := by decide +kernel

/-- Q7, Q8; the upper half of ARG2 is ignored (R95). -/
theorem test_clk_pure_us :
    seen (after 0x207 (clock 0x412E848000000000 0x4146E36000000000 1)) =
      some (0x2, [1, 0xBFF0000000000000, 0, 0x7FF0000000000000, 0], []) ∧
    seen (after 0x207 (clock 0x4176E36000000000 0x40BB580000000000 0xFFFFFFFF00000001)) =
      some (0x2, [1, 0x40AAC80000000000, 0, 0x40BB5720072AC756, 0x4061DC0000000000], []) := by decide +kernel

/-- Q11, Q13. -/
theorem test_clk_pure_ns :
    seen (after 0x307 (clock 1 0x3FF0000000000000 1000)) =
      some (0x2, [1000, 0xBFF0000000000000, 0, 0x7FF8000000000000, 0x7FF8000000000000], []) ∧
    located (after 0x307 (clock 0x412E848000000000 0x408F400000000000 0x100000000)) = some (0xB06, 0, 0) := by decide +kernel

/-- W1 to W4: any other word completes with InvalidCommand. -/
theorem test_invalid_command :
    located (after 0x00000008 State.reset) = some (0x00000C06, 0, 0) ∧
    located (after 0x00000601 State.reset) = some (0x00000C06, 0, 0) ∧
    located (after 0x00010001 State.reset) = some (0x00000C06, 0, 0) ∧
    located (after 0x00000000 State.reset) = some (0x00000C06, 0, 0) := by decide +kernel

/-- R110 lists these entries. -/
theorem test_crc_table : crcTable 0 = 0x00000000 ∧ crcTable 1 = 0x77073096 ∧ crcTable 2 = 0xEE0E612C ∧
    crcTable 8 = 0x0EDB8832 ∧ crcTable 16 = 0x1DB71064 ∧ crcTable 128 = 0xEDB88320 ∧ crcTable 255 = 0x2D02EF8D := by
  decide +kernel

/-! ### The bus -/

/-- W4, W9, W1: the acceptance of a CMD write gives STATUS 0x00000001, and nothing is cleared by it. -/
theorem test_acceptance : located (step (facing (storeEvent 0x000 0x00000000))) = some (0x00000001, 0, 0) ∧
    answered (step (facing (storeEvent 0x000 0x00000008))) = some .okay := by decide +kernel

/-- W5, W6, and a byte transaction (R68). -/
theorem test_bus_errors : answered (step (facing (loadEvent 0x002))) = some .error ∧
    answered (step (facing (loadEvent 0x018))) = some .error ∧
    answered (step (facing (.transaction { access := .read, offset := 0x004, width := 8 }))) = some .error := by
  decide +kernel

/-- W7, W8. -/
theorem test_ignored_writes : located (step (facing (storeEvent 0x004 0xFFFFFFFF))) = some (0x00000000, 0, 0) ∧
    located (step (busyFacing (storeEvent 0x008 5))) = some (0x00000021, 0, 0) ∧
    located (step (busyFacing (storeEvent 0x004 5))) = some (0x00000001, 0, 0) := by decide +kernel

/-- P1 of 95_test_vectors.md: the first word of "9BE3E0A3", read little-endian. -/
theorem test_obuf_read :
    answered (step { facing (loadEvent 0x20000) with
      status := Status.completed false false false 0, outLen := 9
      mem := Memory.writeBytes [] obufBase (ascii "9BE3E0A3\n") }) = some (.okayData 0x33454239) := by decide +kernel

/-- P1 of 95_test_vectors.md: a host program's first word in IBUF, little-endian. -/
theorem test_load_buffer :
    assemble [.ldbuf (ascii "31 32 33\n34")] =
      [storeEvent 0x10000 0x33203133, storeEvent 0x10004 0x33332032, storeEvent 0x10008 0x0034330A,
       storeEvent 0x008 0x0000000B] := by decide +kernel

/-- P3 of 95_test_vectors.md: `ldarg ARG0, f64(24e6)` and `ldarg ARG2, f64(50)`. -/
theorem test_load_real_argument :
    assemble [.ldargF64 0 24000000, .ldargF64 2 50] =
      [storeEvent 0x020 0x00000000, storeEvent 0x024 0x4176E360, storeEvent 0x030 0x00000000,
       storeEvent 0x034 0x40490000] := by decide +kernel

/-- R9 by hand: -2.5 is -1.25 * 2^1; from 2^1024 - 2^970 on the result is +infinity whatever the sign of `r`. -/
theorem test_real_argument_signs :
    F64.toF64 (mkRat (-5) 2) = 0xC004000000000000 ∧ F64.toF64 (mkRat (-(2 ^ 1024 - 2 ^ 970)) 1) = 0x7FF0000000000000 ∧
    F64.toF64 (mkRat (-(2 ^ 1024 - 2 ^ 970) + 1) 1) = 0xFFEFFFFFFFFFFFFF := by decide +kernel

/-! ### Witnesses: for every statement with hypotheses, states and operands that meet them all -/

theorem serves_facing (e : HostEvent) : ServesNext (facing e) e [] := ⟨rfl, (fun h => nomatch h), rfl⟩

theorem serves_busy (e : HostEvent) : ServesNext (busyFacing e) e [] := ⟨rfl, fun _ => by simp [busyFacing], rfl⟩

theorem ok_default : State.reset.params.wellFormed = true := by decide

/-- A command due at once, and one due because no event is left; an idle block with nothing to do; an event served. -/
theorem witness_StepRunsTheCommandInFlight :
    (∃ (s : State) (i : Instr), s.status.busy = true ∧ s.wait = 0 ∧ s.pending ≠ [] ∧ decode s.cmd = .ok i) ∧
    (∃ (s : State) (i : Instr), s.status.busy = true ∧ s.wait ≠ 0 ∧ s.pending = [] ∧ decode s.cmd = .ok i) ∧
    (State.reset.status.busy = false ∧ State.reset.pending = []) ∧
    (∀ e, ServesNext (facing e) e [] ∧ ServesNext (busyFacing e) e []) :=
  ⟨⟨{ busyFacing .poll with wait := 0 }, .crc32Text, rfl, rfl, by decide, by decide⟩,
    ⟨{ busyFacing .poll with pending := [] }, .crc32Text, rfl, by decide, rfl, by decide⟩, ⟨rfl, rfl⟩,
    fun e => ⟨serves_facing e, serves_busy e⟩⟩

theorem witness_UnencodedWordCompletesWithInvalidCommand :
    ∃ s : State, s.status.busy = true ∧ (s.wait = 0 ∨ s.pending = []) ∧ ∀ i : Instr, encode i ≠ s.cmd :=
  ⟨State.reset.withFetchWord 32 0x601, rfl, .inl rfl, fun i => by cases i <;> decide⟩

theorem witness_BusyEndsWithinTheSchedule :
    ∃ s : State, s.inReset = false ∧ s.status.busy = true ∧ s.wait = 2 ∧ s.pending ≠ [] :=
  ⟨busyFacing .poll, rfl, rfl, rfl, by decide⟩

/-- A state whose next step is a completion with an output. -/
def completing : State := (text "123456789").withFetchWord 32 0x001

theorem witness_StepKeepsMemoryCanonical : ∃ s t : State, s.mem.wf ∧ s.mem ≠ [] ∧ step s = .next t :=
  ⟨completing, _, by decide +kernel, by decide +kernel, rfl⟩

theorem witness_StepKeepsStatusLegal : ∃ s t : State, StatusInv s ∧ step s = .next t :=
  ⟨completing, _, by unfold StatusInv; decide, rfl⟩

theorem completing_output : OutputInv completing :=
  ⟨by decide, by decide, by unfold InBuffers; decide +kernel⟩

theorem witness_StepKeepsOutputWithinBuffer : ∃ s t : State, OutputInv s ∧ step s = .next t :=
  ⟨completing, _, completing_output, rfl⟩

/-- Before a completion, and after one whose output is one byte. -/
theorem witness_StepKeepsOutputExact :
    (∃ s t : State, OutputInv s ∧ OutputListedInv s ∧ step s = .next t) ∧
    (∃ s t : State, OutputInv s ∧ OutputListedInv s ∧ s.status.done = true ∧ step s = .next t) := by
  refine ⟨⟨completing, _, completing_output, ⟨by decide, fun h => nomatch h⟩, rfl⟩, ?_⟩
  refine ⟨{ facing (storeEvent 0x008 1) with
      status := Status.completed false false false 0, outLen := 1, mem := [(obufBase, 0x41)] }, _,
    ⟨by decide, by decide, by unfold InBuffers; decide⟩, ⟨by decide, fun _ i => ?_⟩, rfl, rfl⟩
  cases i with
  | zero => decide
  | succ k => simp [Memory.read?, obufBase]

theorem witness_StepKeepsParameters : ∃ s t : State, step s = .next t ∧ s ≠ t :=
  ⟨facing (storeEvent 0x008 5), _, rfl, by decide⟩

theorem witness_ResultsChangeOnlyByCompletion :
    ∃ s t : State, s.params.wellFormed = true ∧ s.completesNow = false ∧ step s = .next t ∧ t.inReset = false ∧ s ≠ t :=
  ⟨facing (storeEvent 0x10000 5), _, ok_default, rfl, rfl, rfl, by decide⟩

/-- By a step that ignores a write, and by the completion. -/
theorem witness_OperandsAreFixedWhileBusy :
    (∃ s t : State, s.params.wellFormed = true ∧ s.status.busy = true ∧ s.completesNow = false ∧ step s = .next t ∧
      t.inReset = false) ∧
    (∃ s t : State, s.params.wellFormed = true ∧ s.status.busy = true ∧ s.completesNow = true ∧ step s = .next t ∧
      t.inReset = false) :=
  ⟨⟨busyFacing (storeEvent 0x10000 5), _, ok_default, rfl, rfl, rfl, rfl⟩, ⟨completing, _, ok_default, rfl, rfl, rfl, rfl⟩⟩

/-- A read, and one pass of the polling loop that ends it and one that goes on. -/
theorem witness_ReadsHaveNoSideEffect :
    (∃ (s : State) (off : Offset) (width : Nat) (rest : List HostEvent),
      ServesNext s (.transaction { access := .read, offset := off, width := width }) rest) ∧
    (∃ (s : State) (rest : List HostEvent), ServesNext s .poll rest ∧ s.status.word.toNat % 2 = 0) ∧
    (∃ (s : State) (rest : List HostEvent), ServesNext s .poll rest ∧ s.status.word.toNat % 2 = 1) :=
  ⟨⟨_, 0x20000, 32, _, serves_busy _⟩, ⟨_, _, serves_facing _, by decide⟩, ⟨_, _, serves_busy _, by decide⟩⟩

/-- Each of the three causes, at its edges. -/
theorem witness_BusErrorsChangeNothing :
    (∃ (s : State) (x : Transaction) (rest : List HostEvent), ServesNext s (.transaction x) rest ∧ x.width ≠ 32) ∧
    (∃ (s : State) (x : Transaction) (rest : List HostEvent), ServesNext s (.transaction x) rest ∧ x.offset.toNat % 4 ≠ 0) ∧
    (∀ off ∈ [(0x018 : Offset), 0x068, 0x0FFFC, 0x11000, 0x1FFFC, 0x22000, 0x3FFFC],
      ∃ (s : State) (x : Transaction) (rest : List HostEvent), x.offset = off ∧ ServesNext s (.transaction x) rest ∧
        Unmapped s.params x.offset.toNat) := by
  refine ⟨⟨_, { access := .read, offset := 0, width := 8 }, _, serves_facing _, by decide⟩,
    ⟨_, { access := .write 0, offset := 0x002 }, _, serves_facing _, by decide⟩, fun off h => ?_⟩
  refine ⟨_, { access := .read, offset := off }, _, rfl, serves_facing _, ?_⟩
  simp only [List.mem_cons, List.not_mem_nil, or_false] at h
  unfold Unmapped
  rcases h with rfl | rfl | rfl | rfl | rfl | rfl | rfl <;> decide

theorem witness_ReadOnlyWritesChangeNothing :
    (∀ off ∈ [(0x004 : Offset), 0x00C, 0x014, 0x040, 0x064], ∃ (s : State) (w : Word) (rest : List HostEvent),
      ServesNext s (storeEvent off w) rest ∧ off.toNat ∈ readOnlyOffsets) ∧
    (∀ off ∈ [(0x20000 : Offset), 0x21FFC], ∃ (s : State) (w : Word) (rest : List HostEvent),
      ServesNext s (storeEvent off w) rest ∧
        off.toNat % 4 = 0 ∧ 0x20000 ≤ off.toNat ∧ off.toNat < 0x20000 + s.params.obufSize) :=
  ⟨fun off h => ⟨busyFacing (storeEvent off 1), 1, _, serves_busy _, by
      simp only [List.mem_cons, List.not_mem_nil, or_false] at h; rcases h with rfl | rfl | rfl | rfl | rfl <;> decide⟩,
    fun off h => ⟨facing (storeEvent off 1), 1, _, serves_facing _, by
      simp only [List.mem_cons, List.not_mem_nil, or_false] at h; rcases h with rfl | rfl <;> decide⟩⟩

theorem witness_BusyWritesAreIgnored :
    (∀ off ∈ [(0x000 : Offset), 0x008, 0x020, 0x034], ∃ (s : State) (w : Word) (rest : List HostEvent),
      s.params.wellFormed = true ∧ ServesNext s (storeEvent off w) rest ∧ s.status.busy = true ∧
        off.toNat ∈ writableOffsets) ∧
    (∀ off ∈ [(0x10000 : Offset), 0x10FFC], ∃ (s : State) (w : Word) (rest : List HostEvent),
      s.params.wellFormed = true ∧ ServesNext s (storeEvent off w) rest ∧ s.status.busy = true ∧
        off.toNat % 4 = 0 ∧ 0x10000 ≤ off.toNat ∧ off.toNat < 0x10000 + s.params.ibufSize) :=
  ⟨fun off h => ⟨busyFacing (storeEvent off 1), 1, _, ok_default, serves_busy _, rfl, by
      simp only [List.mem_cons, List.not_mem_nil, or_false] at h; rcases h with rfl | rfl | rfl | rfl <;> decide⟩,
    fun off h => ⟨busyFacing (storeEvent off 1), 1, _, ok_default, serves_busy _, rfl, by
      simp only [List.mem_cons, List.not_mem_nil, or_false] at h; rcases h with rfl | rfl <;> decide⟩⟩

theorem witness_CmdWriteWhileIdleIsAccepted : ∃ (s : State) (w : Word) (rest : List HostEvent),
    ServesNext s (storeEvent 0x000 w) rest ∧ s.status.busy = false :=
  ⟨_, 0, _, serves_facing _, rfl⟩

theorem witness_OperandWritesTakeEffect :
    (∃ (s : State) (w : Word) (rest : List HostEvent), ServesNext s (storeEvent 0x008 w) rest ∧ s.status.busy = false) ∧
    (∀ (n : Fin 3) (hi : Bool), ∃ (s : State) (w : Word) (rest : List HostEvent),
      ServesNext s (storeEvent (argOffset n hi) w) rest ∧ s.status.busy = false) :=
  ⟨⟨_, 7, _, serves_facing _, rfl⟩, fun _ _ => ⟨_, 7, _, serves_facing _, rfl⟩⟩

/-- The first and the last word of IBUF. -/
theorem witness_IbufWritesAreLittleEndian : ∀ i ∈ [0, 4092], ∃ (s : State) (w : Word) (rest : List HostEvent),
    s.params.wellFormed = true ∧ i % 4 = 0 ∧ i < s.params.ibufSize ∧
      ServesNext s (storeEvent (BitVec.ofNat 18 (0x10000 + i)) w) rest ∧ s.status.busy = false :=
  fun i h => ⟨facing (storeEvent (BitVec.ofNat 18 (0x10000 + i)) 7), 7, _, ok_default, by revert i; decide,
    by revert i; decide, serves_facing _, rfl⟩

/-- The first and the last register of the list. -/
theorem witness_IdleReadsReturnTheRegisters :
    (∃ (s : State) (rest : List HostEvent), ServesNext s (loadEvent 0x000) rest ∧ s.status.busy = false ∧ s.cmd ≠ 0 ∧
      ((0x000 : Offset).toNat, s.cmd) ∈ [(0x000, s.cmd)]) ∧
    (∃ (s : State) (rest : List HostEvent), ServesNext s (loadEvent 0x064) rest ∧ s.status.busy = false ∧ s.res4 ≠ 0 ∧
      ((0x064 : Offset).toNat, s.res4.extractLsb' 32 32) ∈ [(0x064, s.res4.extractLsb' 32 32)]) :=
  ⟨⟨{ facing (loadEvent 0x000) with cmd := 1 }, [], ⟨rfl, (fun h => nomatch h), rfl⟩, rfl, by decide, by decide⟩,
    ⟨{ facing (loadEvent 0x064) with res4 := 1 }, [], ⟨rfl, (fun h => nomatch h), rfl⟩, rfl, by decide, by decide⟩⟩

theorem witness_IdleBufferReadsAreLittleEndian :
    (∀ i ∈ [0, 4092], ∃ (s : State) (rest : List HostEvent), s.params.wellFormed = true ∧ i % 4 = 0 ∧
      i < s.params.ibufSize ∧ ServesNext s (loadEvent (BitVec.ofNat 18 (0x10000 + i))) rest ∧ s.status.busy = false) ∧
    (∀ i ∈ [0, 8188], ∃ (s : State) (rest : List HostEvent) (b : Byte), s.params.wellFormed = true ∧ i % 4 = 0 ∧
      i < s.params.obufSize ∧ ServesNext s (loadEvent (BitVec.ofNat 18 (0x20000 + i))) rest ∧ s.status.busy = false ∧
      s.mem.read? (0x20000 + (i + 3)) = some b) := by
  refine ⟨fun i h => ⟨facing (loadEvent (BitVec.ofNat 18 (0x10000 + i))), _, ok_default, by revert i; decide,
      by revert i; decide, serves_facing _, rfl⟩,
    fun i h => ⟨{ facing (loadEvent (BitVec.ofNat 18 (0x20000 + i))) with mem := [(0x20000 + (i + 3), 0x41)] }, _, 0x41,
      ok_default, by revert i; decide, by revert i; decide, ⟨rfl, (fun h => nomatch h), rfl⟩, rfl, by simp [Memory.read?]⟩⟩

theorem witness_BusyReadsAreAnswered :
    (∃ (s : State) (off : Offset) (rest : List HostEvent), ServesNext s (loadEvent off) rest ∧ s.status.busy = true ∧
      (off.toNat, s.status.word) ∈ [(0x004, s.status.word)]) ∧
    (∀ i ∈ [0, 4092], ∃ (s : State) (rest : List HostEvent), s.params.wellFormed = true ∧ i % 4 = 0 ∧
      i < s.params.ibufSize ∧ ServesNext s (loadEvent (BitVec.ofNat 18 (0x10000 + i))) rest ∧ s.status.busy = true) ∧
    (∃ (s : State) (off : Offset) (rest : List HostEvent), ServesNext s (loadEvent off) rest ∧ s.status.busy = true ∧
      off.toNat ∈ [0x00C, 0x010, 0x014]) ∧
    (∃ (s : State) (off : Offset) (rest : List HostEvent), ServesNext s (loadEvent off) rest ∧ s.status.busy = true ∧
      off.toNat % 4 = 0 ∧ 0x20000 ≤ off.toNat ∧ off.toNat < 0x20000 + s.params.obufSize) :=
  ⟨⟨_, 0x004, _, serves_busy _, rfl, by decide⟩,
    fun i h => ⟨busyFacing (loadEvent (BitVec.ofNat 18 (0x10000 + i))), _, ok_default, by revert i; decide,
      by revert i; decide, serves_busy _, rfl⟩,
    ⟨_, 0x014, _, serves_busy _, rfl, by decide⟩, ⟨_, 0x21FFC, _, serves_busy _, rfl, by decide, by decide, by decide⟩⟩

theorem witness_ResetState : ∃ s t : State, s.status.busy = false ∧ step s = .next t ∧ t.status.busy = true :=
  ⟨facing (storeEvent 0x000 0), _, rfl, rfl, rfl⟩

/-- Reset asserted while idle and while busy; a transaction and a poll under reset; a release. -/
theorem witness_ResetAbandonsTheCommand :
    (∃ (s : State) (rest : List HostEvent), s.pending = .assertReset :: rest ∧ s.status.busy = false ∧
      (s.status.busy = true → s.wait ≠ 0)) ∧
    (∃ (s : State) (rest : List HostEvent), s.pending = .assertReset :: rest ∧ s.status.busy = true ∧
      (s.status.busy = true → s.wait ≠ 0)) ∧
    (∀ e ∈ [HostEvent.poll, .transaction statusRead], ∃ (s : State) (rest : List HostEvent), s.inReset = true ∧
      s.status.busy = false ∧ s.pending = e :: rest ∧ (e = .poll ∨ ∃ x, e = .transaction x)) ∧
    (∃ (s : State) (rest : List HostEvent), s.status.busy = false ∧ s.pending = .releaseReset :: rest) :=
  ⟨⟨facing .assertReset, [], rfl, rfl, fun h => nomatch h⟩, ⟨busyFacing .assertReset, [], rfl, rfl, fun _ => by decide⟩,
    fun e h => ⟨{ facing e with inReset := true }, [], rfl, rfl, rfl, by
      simp only [List.mem_cons, List.not_mem_nil, or_false] at h
      exact h.imp id fun h => ⟨_, h⟩⟩,
    ⟨facing .releaseReset, [], rfl, rfl⟩⟩

theorem witness_EveryCommandCompletesWithThisFrame : ∀ _ : Instr, ∃ s : State, s.params.wellFormed = true :=
  fun _ => ⟨State.reset, ok_default⟩

theorem witness_CommandsRaiseOnlyTheirCodes : ∀ i : Instr, ∃ s t : State, exec i s = .next t :=
  fun i => ⟨State.reset, by cases i <;> exact ⟨_, rfl⟩⟩

/-- An error that reports a place (XORFOLD), one that reports none, and a success. -/
theorem witness_ErrorCompletionsPublishNothing :
    (∃ s t : State, exec .xorFold s = .next t ∧ t.status.errcode = 3) ∧
    (∃ s t : State, exec .crc32Text s = .next t ∧ t.status.errcode ≠ 0 ∧
      ¬ (t.status.errcode = 3 ∨ (t.status.errcode = 9 ∧ (Instr.crc32Text) = .xorFold))) ∧
    (∃ s t : State, exec .crc32Text s = .next t ∧ t.status.errcode = 0) :=
  ⟨⟨text "abc", _, rfl, by decide +kernel⟩, ⟨text "", _, rfl, by decide +kernel, by decide +kernel⟩,
    ⟨text "a", _, rfl, by decide +kernel⟩⟩

theorem witness_InputLengthIsCheckedFirst : ∀ i : Instr, readsInput i = true → ∃ s : State,
    s.params.ibufSize < s.inLen.toNat ∧ s.inLen.toNat = 4097 :=
  fun _ _ => ⟨{ State.reset with inLen := 4097 }, by decide, by decide⟩

/-- Two states that differ in what no command may look at. -/
theorem witness_OutcomeDependsOnOperandsOnly : ∀ i : Instr, ∃ s t s' t' : State,
    SameOperandsFor i s t ∧ s.res0 ≠ t.res0 ∧ exec i s = .next s' ∧ exec i t = .next t' := by
  intro i
  refine ⟨text "10", { text "10" with res0 := 1, draws := 5 }, ?_⟩
  cases i <;> refine ⟨_, _, ?_, by decide, rfl, rfl⟩ <;>
    simp [SameOperandsFor, readsInput, State.ibByte, text, loaded]

/-! Commands: each hypothesis `s.inLen.toNat ≤ s.params.ibufSize` is `by decide`, and what the input string is, is computed. -/

theorem witness_CrcTextResult : ∃ s : State, s.inLen.toNat ≤ s.params.ibufSize ∧ ∃ c ∈ s.inBytes, isWs c = false :=
  ⟨text " a ", by decide, by decide +kernel⟩

theorem spells_12 : Spells (ascii "3132") (ascii "12") :=
  .pair 0x33 0x31 _ _ rfl rfl (.pair 0x33 0x32 _ _ rfl rfl .nil)

theorem witness_CrcHexResult : ∃ (s : State) (bs : List Byte), s.inLen.toNat ≤ s.params.ibufSize ∧ bs ≠ [] ∧
    Spells (s.inBytes.filter (fun c => !isWs c)) bs :=
  ⟨text "31 32", ascii "12", by decide, by decide, by
    rw [show (text "31 32").inBytes.filter (fun c => !isWs c) = ascii "3132" by decide +kernel]; exact spells_12⟩

/-- No input, whitespace only, a byte that is no hex digit, an odd number of digits. -/
theorem witness_CrcErrors :
    (∃ s : State, s.inLen = 0 ∧ s.inLen.toNat ≤ s.params.ibufSize ∧ ∀ c ∈ s.inBytes, isWs c = true) ∧
    (∃ s : State, s.inLen ≠ 0 ∧ s.inLen.toNat ≤ s.params.ibufSize ∧ ∀ c ∈ s.inBytes, isWs c = true) ∧
    (∃ s : State, s.inLen.toNat ≤ s.params.ibufSize ∧ ∃ c ∈ s.inBytes, isWs c = false ∧ isHex c = false) ∧
    (∃ s : State, s.inLen.toNat ≤ s.params.ibufSize ∧ (s.inBytes.filter (fun c => !isWs c)).length % 2 = 1) :=
  ⟨⟨text "", by decide, by decide, by decide +kernel⟩, ⟨text " \t\n", by decide, by decide, by decide +kernel⟩,
    ⟨text "0G", by decide, by decide +kernel⟩, ⟨text "a b c", by decide, by decide +kernel⟩⟩

theorem witness_CrcModesAgree : ∃ s u : State, s.inLen.toNat ≤ s.params.ibufSize ∧ u.inLen.toNat ≤ u.params.ibufSize ∧
    (∃ c ∈ s.inBytes, isWs c = false) ∧ Spells (u.inBytes.filter (fun c => !isWs c)) s.inBytes :=
  ⟨text "12", text "31 32", by decide, by decide, by decide +kernel, by
    rw [show (text "31 32").inBytes.filter (fun c => !isWs c) = ascii "3132" by decide +kernel,
      show (text "12").inBytes = ascii "12" by decide +kernel]; exact spells_12⟩

theorem witness_TokensAreStretchesOfTheInput :
    tokens (ascii "12,abc 0x") = [⟨0, ascii "12"⟩, ⟨3, ascii "abc"⟩, ⟨7, ascii "0x"⟩] ∧
    Tokenizes 0 [0x2C, 0x35, 0xEF, 0xBC, 0x8C] [⟨1, [0x35]⟩] := by
  refine ⟨by decide +kernel, ?_⟩
  refine .token 0 [0x2C] [0x35] [0xEF, 0xBC, 0x8C] [] ⟨[[0x2C]], ?_, rfl⟩ ⟨by decide, ?_⟩
    (.inr ⟨_, [], .inr rfl, rfl⟩) (.done _ _ ⟨[[0xEF, 0xBC, 0x8C]], ?_, rfl⟩)
  · simpa using .inl ⟨_, rfl, .inr rfl⟩
  · rintro p (⟨c, rfl, hc⟩ | rfl) hp
    · have : c = 0x35 := by simpa using hp.subset (by simp : c ∈ [c])
      subst this
      exact absurd hc (by decide)
    · exact absurd hp.length_le (by decide)
  · simpa using .inr rfl

theorem denotes_of {t : List Byte} {v : Nat} (h : tokenValue t = some v) : Denotes t v := tokenValue_eq_some.1 h

theorem good_5 : GoodToken [0x35] := ⟨5, denotes_of (by decide), by decide⟩

theorem good_6 : GoodToken [0x36] := ⟨6, denotes_of (by decide), by decide⟩

theorem good_56 : ∀ k ∈ tokenTexts (text "5,6").inBytes, GoodToken k := by
  rw [show tokenTexts (text "5,6").inBytes = [[0x35], [0x36]] by decide +kernel]
  intro k hk
  simp only [List.mem_cons, List.not_mem_nil, or_false] at hk
  rcases hk with rfl | rfl
  · exact good_5
  · exact good_6

/-- One token of each class, and the largest value. -/
theorem witness_XorFoldResult : ∃ (s : State) (vs : List Nat), s.inLen.toNat ≤ s.params.ibufSize ∧ vs ≠ [] ∧
    (∀ v ∈ vs, v ≤ 2 ^ 64 - 1) ∧ List.Forall₂ Denotes (tokenTexts s.inBytes) vs :=
  ⟨text "007,0xfF,0b10 18446744073709551615", [7, 255, 2, 2 ^ 64 - 1], by decide, by decide, by decide, by
    rw [show tokenTexts (text "007,0xfF,0b10 18446744073709551615").inBytes =
      [ascii "007", ascii "0xfF", ascii "0b10", ascii "18446744073709551615"] by decide +kernel]
    exact .cons (denotes_of (by decide +kernel)) (.cons (denotes_of (by decide +kernel))
      (.cons (denotes_of (by decide +kernel)) (.cons (denotes_of (by decide +kernel)) .nil)))⟩

/-- No token; after a good token, one of no class, a prefix with no digit, a prefix in upper case; one of value 2^64. -/
theorem witness_XorFoldReportsTheFirstBadToken :
    (∃ s : State, s.inLen.toNat ≤ s.params.ibufSize ∧ tokens s.inBytes = []) ∧
    (∀ bad ∈ [ascii "abc", ascii "0x", ascii "0X1A"], ∃ (s : State) (before after : List Token) (k : Token),
      s.inLen.toNat ≤ s.params.ibufSize ∧ tokens s.inBytes = before ++ k :: after ∧ (∀ g ∈ before, GoodToken g.text) ∧
      k.text = bad ∧ ∀ v, ¬ Denotes k.text v) ∧
    (∃ (s : State) (before after : List Token) (k : Token) (v : Nat), s.inLen.toNat ≤ s.params.ibufSize ∧
      tokens s.inBytes = before ++ k :: after ∧ (∀ g ∈ before, GoodToken g.text) ∧ Denotes k.text v ∧ v = 2 ^ 64) := by
  refine ⟨⟨text " ,, ", by decide, by decide +kernel⟩, fun bad h => ?_,
    ⟨text "18446744073709551616", [], [], ⟨0, ascii "18446744073709551616"⟩, 2 ^ 64, by decide, by decide +kernel,
      fun g hg => (List.not_mem_nil hg).elim, denotes_of (by decide +kernel), rfl⟩⟩
  refine ⟨loaded (ascii "5," ++ bad ++ ascii ",9"), [⟨0, [0x35]⟩], [⟨3 + bad.length, [0x39]⟩], ⟨2, bad⟩, ?_, ?_,
    fun g hg => by rw [List.mem_singleton.1 hg]; exact good_5, rfl, tokenValue_eq_none.1 ?_⟩ <;>
    (revert bad; decide +kernel)

theorem witness_XorFoldIsOrderIndependent : ∃ s u : State, s.inLen.toNat ≤ s.params.ibufSize ∧
    u.inLen.toNat ≤ u.params.ibufSize ∧ (tokenTexts s.inBytes).Perm (tokenTexts u.inBytes) ∧ tokenTexts s.inBytes ≠ [] ∧
    (∀ k ∈ tokenTexts s.inBytes, GoodToken k) ∧ s.inBytes ≠ u.inBytes :=
  ⟨text "5,6", text "6 5", by decide, by decide, by decide +kernel, by decide +kernel, good_56, by decide +kernel⟩

theorem witness_B64EncResult : ∀ n ∈ [0, 1, 2, 3, 4096], ∃ s : State, s.params.wellFormed = true ∧ s.inLen.toNat = n ∧
    s.inLen.toNat ≤ s.params.ibufSize :=
  fun n h => ⟨{ State.reset with inLen := BitVec.ofNat 32 n }, ok_default, by revert n; decide, by revert n; decide⟩

theorem not_decodes {t : List Byte} (h : (t.all isB64Pad && (b64Decode t).isSome) = false) (r : List Byte) :
    ¬ B64Decodes t r := by
  intro hd
  obtain ⟨ha, hr⟩ := b64Decode_iff.2 hd
  rw [List.all_eq_true.2 ha, hr] at h
  cases h

theorem decodes {t r : List Byte} (h : (t.all isB64Pad && b64Decode t == some r) = true) : B64Decodes t r := by
  rw [Bool.and_eq_true, List.all_eq_true, beq_iff_eq] at h
  exact b64Decode_iff.1 h

/-- A byte outside the alphabet; a length that cannot be; FF; a text without padding. -/
theorem witness_B64DecResult :
    (∃ s : State, s.params.wellFormed = true ∧ s.inLen.toNat ≤ s.params.ibufSize ∧
      ∃ c ∈ s.inBytes, c ≠ 0x3D ∧ ∀ v, ¬ SixBits c v) ∧
    (∃ s : State, s.params.wellFormed = true ∧ s.inLen.toNat ≤ s.params.ibufSize ∧ ∀ r, ¬ B64Decodes s.inBytes r) ∧
    (∃ (s : State) (r : List Byte), s.params.wellFormed = true ∧ s.inLen.toNat ≤ s.params.ibufSize ∧
      B64Decodes s.inBytes r ∧ ¬ Utf8 r) ∧
    (∃ (s : State) (r : List Byte), s.params.wellFormed = true ∧ s.inLen.toNat ≤ s.params.ibufSize ∧
      B64Decodes s.inBytes r ∧ Utf8 r) := by
  refine ⟨⟨text "Zm9v-", ok_default, by decide, 0x2D, by decide +kernel, by decide, fun v h => ?_⟩,
    ⟨text "Z", ok_default, by decide, not_decodes (by decide +kernel)⟩,
    ⟨text "/w==", [0xFF], ok_default, by decide, decodes (by decide +kernel), ?_⟩,
    ⟨text "Zg", ascii "f", ok_default, by decide, decodes (by decide +kernel), validUtf8_iff.1 (by decide)⟩⟩
  · exact absurd (sixBits_iff.1 h).1 (by decide)
  · rw [← validUtf8_iff]; decide

theorem witness_B64RoundTrip : ∃ s u t : State, s.params.wellFormed = true ∧ u.params.wellFormed = true ∧
    s.inLen.toNat ≤ s.params.ibufSize ∧ Utf8 s.inBytes ∧ exec .b64Enc s = .next t ∧ u.inBytes = t.outBytes ∧
    u.inLen.toNat ≤ u.params.ibufSize :=
  ⟨loaded [0xE4, 0xBD, 0xA0, 0xE5, 0xA5, 0xBD], text "5L2g5aW9", _, ok_default, ok_default, by decide,
    validUtf8_iff.1 (by decide +kernel), rfl, by decide +kernel, by decide⟩

theorem digits_of {p : Byte → Bool} {s : List Byte} (h : (decide (s ≠ []) && s.all p) = true) : Digits p s := by
  rw [Bool.and_eq_true, decide_eq_true_eq, List.all_eq_true] at h
  exact h

/-- The largest magnitude in each radix. -/
theorem witness_BconvResult : ∀ r : Radix, ∃ (i : Instr) (s : State), bconvRadixOf i = some r ∧
    s.inLen.toNat ≤ s.params.ibufSize ∧ Digits (radixDigit r) s.inBytes ∧
    digitsVal (radixBase r) s.inBytes = 2 ^ 64 - 1 := by
  intro r
  cases r with
  | r2 => exact ⟨.bconvR2, loaded (List.replicate 64 0x31), rfl, by decide, digits_of (by decide +kernel), by decide +kernel⟩
  | r8 => exact ⟨.bconvR8, text "1777777777777777777777", rfl, by decide, digits_of (by decide +kernel), by decide +kernel⟩
  | r10 => exact ⟨.bconvR10, text "18446744073709551615", rfl, by decide, digits_of (by decide +kernel), by decide +kernel⟩
  | r16 => exact ⟨.bconvR16, text "fFFFFFFFFFFFFFFF", rfl, by decide, digits_of (by decide +kernel), by decide +kernel⟩

theorem witness_BconvErrors :
    (∃ (i : Instr) (r : Radix) (s : State), bconvRadixOf i = some r ∧ s.inLen.toNat ≤ s.params.ibufSize ∧ s.inLen = 0) ∧
    (∃ (i : Instr) (r : Radix) (s : State), bconvRadixOf i = some r ∧ s.inLen.toNat ≤ s.params.ibufSize ∧
      ∃ c ∈ s.inBytes, radixDigit r c = false) ∧
    (∃ (i : Instr) (r : Radix) (s : State), bconvRadixOf i = some r ∧ s.inLen.toNat ≤ s.params.ibufSize ∧
      Digits (radixDigit r) s.inBytes ∧ digitsVal (radixBase r) s.inBytes = 2 ^ 64) :=
  ⟨⟨.bconvR10, .r10, text "", rfl, by decide, rfl⟩, ⟨.bconvR8, .r8, text "18", rfl, by decide, by decide +kernel⟩,
    ⟨.bconvR16, .r16, text "10000000000000000", rfl, by decide, digits_of (by decide +kernel), by decide +kernel⟩⟩

theorem witness_BconvRoundTrip : ∀ m ∈ [0, 255, 2 ^ 64 - 1], ∃ (i : Instr) (q r : Radix) (s : State),
    bconvRadixOf i = some q ∧ r ≠ q ∧ m ≤ 2 ^ 64 - 1 ∧ s.inLen.toNat ≤ s.params.ibufSize ∧ s.inBytes = radixDigits q m := by
  intro m h
  refine ⟨.bconvR16, .r16, .r2, loaded (radixDigits .r16 m), rfl, by decide, ?_, ?_, ?_⟩ <;>
    (revert m; decide +kernel)

/-- The three shapes, with whitespace around the input and around the dash. -/
theorem witness_StorRegResult :
    (∃ (s : State) (lead core trail : List Byte), s.inLen.toNat ≤ s.params.ibufSize ∧ s.inBytes = lead ++ core ++ trail ∧
      (∀ c ∈ lead ++ trail, isWs c = true) ∧ Digits isDec core ∧ digitsVal 10 core = 2 ^ 64 - 1) ∧
    (∃ (s : State) (lead core trail h : List Byte), s.inLen.toNat ≤ s.params.ibufSize ∧ s.inBytes = lead ++ core ++ trail ∧
      (∀ c ∈ lead ++ trail, isWs c = true) ∧ core = [0x30, 0x78] ++ h ∧ Digits isHex h ∧ digitsVal 16 h ≤ 2 ^ 64 - 1) ∧
    (∃ (s : State) (lead core trail hs w1 w2 he : List Byte), s.inLen.toNat ≤ s.params.ibufSize ∧
      s.inBytes = lead ++ core ++ trail ∧ (∀ c ∈ lead ++ trail, isWs c = true) ∧
      core = [0x30, 0x78] ++ hs ++ w1 ++ [0x2D] ++ w2 ++ [0x30, 0x78] ++ he ∧ Digits isHex hs ∧ Digits isHex he ∧
      (∀ c ∈ w1 ++ w2, isWs c = true) ∧ digitsVal 16 hs ≤ digitsVal 16 he ∧ digitsVal 16 he ≤ 2 ^ 64 - 1 ∧
      digitsVal 16 he - digitsVal 16 hs + 1 ≤ 2 ^ 64 - 1) :=
  ⟨⟨text " 18446744073709551615\n", ascii " ", ascii "18446744073709551615", ascii "\n", by decide, by decide +kernel,
      by decide, digits_of (by decide), by decide +kernel⟩,
    ⟨text "0xFf", [], ascii "0xFf", [], ascii "Ff", by decide, by decide +kernel, by decide, by decide, digits_of (by decide),
      by decide⟩,
    ⟨text " 0x5 -\t0x5", ascii " ", ascii "0x5 -\t0x5", [], ascii "5", ascii " ", ascii "\t", ascii "5", by decide,
      by decide +kernel, by decide, by decide, digits_of (by decide), digits_of (by decide), by decide, by decide, by decide,
      by decide⟩⟩

theorem loaded_inBytes (bs : List Byte) (h : bs.length < 2 ^ 32) : (loaded bs).inBytes = bs := by
  have hl : (loaded bs).inLen.toNat = bs.length := by
    rw [show (loaded bs).inLen = BitVec.ofNat 32 bs.length from rfl, BitVec.toNat_ofNat, Nat.mod_eq_of_lt h]
  refine List.ext_getElem (by rw [State.inBytes_length, hl]) fun i _ h2 => ?_
  have hm : (loaded bs).mem.read? (ibufBase + i) = some bs[i] := by
    rw [show (loaded bs).mem = Memory.writeBytes [] ibufBase bs from rfl, Memory.read?_writeBytes, if_pos (by omega),
      Nat.add_sub_cancel_left, List.getElem?_eq_getElem h2]
  simp only [State.inBytes, List.getElem_map, List.getElem_range, State.ibByte, hm]

theorem trimmed_of {core : List Byte} (h : (core.head?.all (fun c => !isWs c) && core.getLast?.all (fun c => !isWs c)) = true) :
    Trimmed core := by
  rw [Bool.and_eq_true] at h
  rintro c (hc | hc)
  · simpa [hc] using h.1
  · simpa [hc] using h.2

theorem range_of {core hs he : List Byte} (h : rangeShape core = some (hs, he)) : RangeShape core hs he :=
  rangeShape_eq_some.1 h

theorem no_register_shape {core : List Byte}
    (h : ((rangeShape core).isSome || (hexShape core).isSome || decShape core) = false) : ¬ RegisterShape core := by
  rw [registerShape_iff]
  simpa [and_assoc] using h

/-- Input of no shape; a decimal and a hex count of 2^64; an end above 2^64 - 1, a range that ends before it starts, and the
whole of 64 bits; all with whitespace around. -/
theorem witness_StorRegErrors : ∀ core ∈ [ascii "", ascii "1.5", ascii "0-0x10", ascii "0X10", ascii "18446744073709551616",
      ascii "0x10000000000000000", ascii "0x1 - 0x10000000000000000", ascii "0x10-0x0F", ascii "0x0-0xFFFFFFFFFFFFFFFF"],
    (∃ (s : State) (lead trail : List Byte), s.inLen.toNat ≤ s.params.ibufSize ∧ s.inBytes = lead ++ core ++ trail ∧
      (∀ c ∈ lead ++ trail, isWs c = true) ∧ lead ≠ [] ∧ trail ≠ [] ∧ Trimmed core) ∧
    (¬ RegisterShape core ∨ (Digits isDec core ∧ digitsVal 10 core = 2 ^ 64) ∨
      (∃ h, HexShape core h ∧ digitsVal 16 h = 2 ^ 64) ∨
      ∃ hs he, RangeShape core hs he ∧
        (digitsVal 16 he = 2 ^ 64 ∨ (digitsVal 16 hs ≤ 2 ^ 64 - 1 ∧ digitsVal 16 he < digitsVal 16 hs) ∨
          (digitsVal 16 hs = 0 ∧ digitsVal 16 he = 2 ^ 64 - 1))) := by
  intro core h
  refine ⟨⟨loaded ([0x20] ++ core ++ [0x0A]), [0x20], [0x0A], by revert core; decide +kernel, by revert core; decide +kernel,
    by decide, by decide, by decide, trimmed_of (by revert core; decide +kernel)⟩, ?_⟩
  simp only [List.mem_cons, List.not_mem_nil, or_false] at h
  rcases h with rfl | rfl | rfl | rfl | rfl | rfl | rfl | rfl | rfl
  · exact .inl (no_register_shape (by decide +kernel))
  · exact .inl (no_register_shape (by decide +kernel))
  · exact .inl (no_register_shape (by decide +kernel))
  · exact .inl (no_register_shape (by decide +kernel))
  · exact .inr (.inl ⟨digits_of (by decide +kernel), by decide +kernel⟩)
  · exact .inr (.inr (.inl ⟨ascii "10000000000000000", hexShape_eq_some.1 (by decide +kernel), by decide +kernel⟩))
  · exact .inr (.inr (.inr ⟨ascii "1", ascii "10000000000000000", range_of (by decide +kernel), by decide +kernel⟩))
  · exact .inr (.inr (.inr ⟨ascii "10", ascii "0F", range_of (by decide +kernel), by decide +kernel⟩))
  · exact .inr (.inr (.inr ⟨ascii "0", ascii "FFFFFFFFFFFFFFFF", range_of (by decide +kernel), by decide +kernel⟩))

theorem plain_of {core whole frac : List Byte} (h : plainShape core = some (whole, frac)) : PlainNumber core whole frac :=
  plainShape_eq_some.1 h

/-- Nine and a half bits are two bytes (S10). -/
theorem unitBytes_bit : UnitBytes .storBit (plainF64 (ascii "9") (ascii "5")) (F64.ofNat 2) :=
  ⟨2, by decide +kernel, by decide +kernel, rfl⟩

/-- A number with a fraction under bits; a whole number, whitespace around, under the largest unit. -/
theorem witness_StorUnitResult :
    (∃ (i : Instr) (s : State) (lead core trail whole frac : List Byte) (bytes : DWord), s.inLen.toNat ≤ s.params.ibufSize ∧
      s.inBytes = lead ++ core ++ trail ∧ (∀ c ∈ lead ++ trail, isWs c = true) ∧ PlainNumber core whole frac ∧
      UnitBytes i (plainF64 whole frac) bytes ∧ F64.isFinite (plainF64 whole frac) = true ∧
      F64.isFinite (F64.mul bytes (F64.ofNat 8)) = true ∧ i = .storBit ∧ frac ≠ []) ∧
    (∀ i ∈ [Instr.storByte, .storKb, .storMb, .storGb],
      ∃ (s : State) (lead core trail whole frac : List Byte) (bytes : DWord), s.inLen.toNat ≤ s.params.ibufSize ∧
      s.inBytes = lead ++ core ++ trail ∧ (∀ c ∈ lead ++ trail, isWs c = true) ∧ PlainNumber core whole frac ∧
      UnitBytes i (plainF64 whole frac) bytes ∧ F64.isFinite (plainF64 whole frac) = true ∧
      F64.isFinite (F64.mul bytes (F64.ofNat 8)) = true) := by
  refine ⟨⟨.storBit, text "9.5", [], ascii "9.5", [], ascii "9", ascii "5", F64.ofNat 2, by decide, by decide +kernel,
    by decide, plain_of (by decide +kernel), unitBytes_bit, by decide +kernel, by decide +kernel, rfl, by decide⟩,
    fun i h => ?_⟩
  simp only [List.mem_cons, List.not_mem_nil, or_false] at h
  rcases h with rfl | rfl | rfl | rfl <;>
    exact ⟨text " 2 ", ascii " ", ascii "2", ascii " ", ascii "2", [], _, by decide, by decide +kernel, by decide,
      plain_of (by decide +kernel), rfl, by decide +kernel, by decide +kernel⟩

theorem no_plain_number {core : List Byte} (h : (plainShape core).isSome = false) :
    ∀ whole frac, ¬ PlainNumber core whole frac := by
  intro whole frac hp
  rw [plainShape_eq_some.2 hp] at h
  exact Bool.noConfusion h

/-- Input of no plain shape, with whitespace around, among it a byte of another kind and none at all; and a value of
10^400, whose binary64 is infinite. -/
theorem witness_StorUnitRejects :
    (∀ core ∈ [ascii "", ascii "1e3", ascii ".5", ascii "5.", ascii "1.2.3", ascii "1 2", ascii "-1"],
      ∃ (s : State) (lead trail : List Byte), s.inLen.toNat ≤ s.params.ibufSize ∧ s.inBytes = lead ++ core ++ trail ∧
        (∀ c ∈ lead ++ trail, isWs c = true) ∧ Trimmed core ∧ ∀ whole frac, ¬ PlainNumber core whole frac) ∧
    (∃ c ∈ ascii "1e3", (isDec c || c == 0x2E) = false) ∧
    (∃ (s : State) (lead core trail whole frac : List Byte) (bytes : DWord), s.inLen.toNat ≤ s.params.ibufSize ∧
      s.inBytes = lead ++ core ++ trail ∧ (∀ c ∈ lead ++ trail, isWs c = true) ∧ Trimmed core ∧
      PlainNumber core whole frac ∧ UnitBytes .storByte (plainF64 whole frac) bytes ∧
      F64.isInf (plainF64 whole frac) = true) := by
  refine ⟨fun core h => ?_, by decide, ?_⟩
  · refine ⟨loaded ([0x20] ++ core ++ [0x0A]), [0x20], [0x0A], ?_, ?_, by decide, trimmed_of ?_, no_plain_number ?_⟩ <;>
      (revert core; decide +kernel)
  · let big : List Byte := 0x31 :: List.replicate 400 0x30
    exact ⟨loaded big, [], big, [], big, [], _, by decide +kernel,
      (loaded_inBytes big (by decide +kernel)).trans (List.append_nil _).symm, by decide,
      trimmed_of (by decide +kernel), plain_of (by decide +kernel), rfl, by decide +kernel⟩

/-- A value that is finite and whose bytes under the largest unit are infinite (S37); one whose bits alone are (S38). -/
theorem witness_StorUnitRejects_overflow :
    F64.isInf (plainF64 (0x31 :: List.replicate 300 0x30) []) = false ∧
    F64.isInf (F64.mul (plainF64 (0x31 :: List.replicate 300 0x30) []) (F64.ofNat 1073741824)) = true ∧
    F64.isInf (plainF64 (0x31 :: List.replicate 308 0x30) []) = false ∧
    F64.isInf (F64.mul (plainF64 (0x31 :: List.replicate 308 0x30) []) (F64.ofNat 8)) = true := by decide +kernel

theorem witness_InclusiveRangeSizes : ∃ s : State, s.inLen.toNat ≤ s.params.ibufSize ∧
    s.inBytes = [0x30, 0x78, 0x30, 0x30, 0x30, 0x30, 0x2D, 0x30, 0x78, 0x34, 0x30, 0x30, 0x30] :=
  ⟨text "0x0000-0x4000", by decide, by decide +kernel⟩

/-- The least and the largest finite value, with and without places. -/
theorem witness_FixedPointText : ∀ x ∈ [(1 : DWord), 0x7FEFFFFFFFFFFFFF], F64.isFinite x = true ∧ F64.sign x = false := by
  intro x h
  simp only [List.mem_cons, List.not_mem_nil, or_false] at h
  rcases h with rfl | rfl <;> decide

/-- S14's threshold itself and the value just below it; 100 and 10 and the values just below them; 0.5, which is no integer. -/
theorem witness_StorageLinesFollowTheValues :
    (∀ x ∈ [(0x3F50624DD2F1A9FC : DWord), 0x3F50624DD2F1A9FB, 0x4059000000000000, 0x4058FFFFFFFFFFFF, 0x4024000000000000,
      0x4023FFFFFFFFFFFF], F64.isFinite x = true ∧ F64.sign x = false) ∧
    2 ^ 1074 ∣ F64.units 0x4059000000000000 ∧ ¬ 2 ^ 1074 ∣ F64.units 0x3FE0000000000000 := by
  refine ⟨fun x h => ?_, by decide +kernel, by decide +kernel⟩
  simp only [List.mem_cons, List.not_mem_nil, or_false] at h
  rcases h with rfl | rfl | rfl | rfl | rfl | rfl <;> decide

/-- One half of a unit: zero and one unit are equally near, and zero is even; and the least value that rounds to infinity. -/
theorem witness_RoundingIsNearestEven :
    (0 < 2 ∧ F64.roundMag 1 2 < F64.infMag ∧ 1 < F64.infMag ∧ 1 ≠ F64.roundMag 1 2 ∧
      ((F64.magUnits (F64.roundMag 1 2) : Int) * 2 - 1).natAbs = ((F64.magUnits 1 : Int) * 2 - 1).natAbs) ∧
    F64.roundMag (2 ^ 2098 - 2 ^ 2044) 1 = F64.infMag ∧ F64.roundMag (2 ^ 2098 - 2 ^ 2044 - 1) 1 < F64.infMag := by
  decide +kernel

/-- The classes of operands that the clauses on operations speak of: finite and not 0, both zeros, infinities of both signs, not
a number; a sum and a difference that are not 0, and that are. -/
theorem witness_RoundingOperands :
    (FiniteBits 0x3FF0000000000000 ∧ exactUnits 0x3FF0000000000000 ≠ 0) ∧
    (FiniteBits 0 ∧ exactUnits 0 = 0 ∧ FiniteBits 0x8000000000000000 ∧ exactUnits 0x8000000000000000 = 0) ∧
    (InfiniteBits 0x7FF0000000000000 ∧ InfiniteBits 0xFFF0000000000000 ∧ NanBits 0x7FF8000000000000) ∧
    (exactValue 1 + exactValue 2 ≠ 0 ∧ exactValue 1 - exactValue 2 ≠ 0 ∧
      exactValue 1 + exactValue 0x8000000000000001 = 0 ∧ exactValue 1 - exactValue 1 = 0) := by
  unfold FiniteBits InfiniteBits NanBits
  decide +kernel

/-- A rational at the overflow threshold and beyond, and one below it on each side of zero. -/
theorem witness_RoundingRationals :
    ((mkRat (-(2 ^ 1024)) 1).den * (2 ^ 1024 - 2 ^ 970) ≤ (mkRat (-(2 ^ 1024)) 1).num.natAbs) ∧
    ((mkRat 1 3).num.natAbs < (mkRat 1 3).den * (2 ^ 1024 - 2 ^ 970) ∧ 0 ≤ mkRat 1 3) ∧
    ((mkRat (-1) 3).num.natAbs < (mkRat (-1) 3).den * (2 ^ 1024 - 2 ^ 970) ∧ exactUnits (F64.toF64 (mkRat (-1) 3)) ≠ 0) :=
  ⟨by decide +kernel, by decide +kernel, by decide +kernel⟩

/-- The bounds of `RoundsTo`, on both sides; and its tie: 1.5 units lies between one unit and two, and two is even. -/
theorem witness_RoundsTo :
    (3 < 2 * (2 ^ 2098 - 2 ^ 2044) ∧ 1 * (2 ^ 2098 - 2 ^ 2044) ≤ 2 ^ 2098) ∧ exactUnits 1 ≠ exactUnits 2 ∧
    ((exactUnits 2 : Int) * 2 - 3).natAbs = ((exactUnits 1 : Int) * 2 - 3).natAbs :=
  ⟨⟨by decide +kernel, by decide +kernel⟩, by decide +kernel, by decide +kernel⟩

/-- Zero, infinity, not a number and a negative value in each operand. -/
theorem witness_ClockOperandsAreChecked :
    ¬ PositiveFinite 0 ∧ ¬ PositiveFinite 0x7FF0000000000000 ∧ ¬ PositiveFinite 0x7FF8000000000000 ∧
    ¬ PositiveFinite 0xBFF0000000000000 ∧ ¬ PositiveFinite 0x8000000000000000 ∧ ¬ DutyInRange 0x4059000000000001 ∧
    ¬ DutyInRange 0x8000000000000001 ∧ ¬ DutyInRange 0x7FF8000000000000 ∧ pureUnitOf .clkPureS = some 0x3FF0000000000000 ∧
    (clock 1 1 0xFFFFFFFF00000000).arg2.extractLsb' 0 32 = 0 := by
  unfold PositiveFinite DutyInRange; decide

/-- The least and the largest frequency, and the duties 0, 100 and -0. -/
theorem witness_ClkSolveResult : ∀ a2 ∈ [(0 : DWord), 0x4059000000000000, 0x8000000000000000], ∃ s : State, s.arg2 = a2 ∧
    PositiveFinite s.arg0 ∧ PositiveFinite s.arg1 ∧ DutyInRange s.arg2 :=
  fun a2 h => ⟨clock 1 0x7FEFFFFFFFFFFFFF a2, rfl, by simp [PositiveFinite, clock], by simp [PositiveFinite, clock], by
    simp only [List.mem_cons, List.not_mem_nil, or_false] at h; unfold DutyInRange; rcases h with rfl | rfl | rfl <;> decide⟩

/-- K6: 72 MHz to 1 Hz, which no divider fits and whose p(1) is above 65535; and K9, where every p(d) is below 0. -/
theorem witness_LadderIsConsistent :
    PositiveFinite 0x41912A8800000000 ∧ PositiveFinite 0x3FF0000000000000 ∧
    period 0x41912A8800000000 0x3FF0000000000000 1 = some 71999999 ∧
    (∀ d ∈ Config.ladder, ∀ p, period 0x41912A8800000000 0x3FF0000000000000 d = some p → p < 0 ∨ 65535 < p) ∧
    (∀ d ∈ Config.ladder, ∀ p, period 0x412E848000000000 0x4146E36000000000 d = some p → p < 0 ∨ 65535 < p) := by
  have h : Config.ladder.all (fun d =>
      (period 0x41912A8800000000 0x3FF0000000000000 d).all (fun p => decide (p < 0 ∨ 65535 < p)) &&
      (period 0x412E848000000000 0x4146E36000000000 d).all (fun p => decide (p < 0 ∨ 65535 < p))) = true := by
    decide +kernel
  rw [List.all_eq_true] at h
  refine ⟨by unfold PositiveFinite; decide, by unfold PositiveFinite; decide, by decide +kernel, fun d hd p hp => ?_,
    fun d hd p hp => ?_⟩
  all_goals
    have hb := h d hd
    rw [hp] at hb
    simp only [Bool.and_eq_true, Option.all_some, decide_eq_true_eq] at hb
  · exact hb.1
  · exact hb.2

theorem witness_ClkSolveStaysInRange : ∃ s t : State, PositiveFinite s.arg0 ∧ PositiveFinite s.arg1 ∧ DutyInRange s.arg2 ∧
    exec .clkSolve s = .next t ∧ t.status.ovf = true :=
  ⟨clock 0x41912A8800000000 0x3FF0000000000000 0x4049000000000000, _, by unfold PositiveFinite; decide,
    by unfold PositiveFinite; decide, by unfold DutyInRange; decide, rfl, by decide +kernel⟩

theorem witness_ClkPureResult : ∀ i ∈ [Instr.clkPureS, .clkPureMs, .clkPureUs, .clkPureNs], ∃ (u : DWord) (s : State),
    pureUnitOf i = some u ∧ PositiveFinite s.arg0 ∧ PositiveFinite s.arg1 ∧ s.arg2.extractLsb' 0 32 ≠ 0 := by
  intro i h
  simp only [List.mem_cons, List.not_mem_nil, or_false] at h
  rcases h with rfl | rfl | rfl | rfl <;>
    exact ⟨_, clock 1 0x7FEFFFFFFFFFFFFF 0xFFFFFFFF, rfl, by unfold PositiveFinite; decide,
      by unfold PositiveFinite; decide, by decide⟩

end Sys2Proof.Tests
end

/-! ### Steps and the parameters (R303) -/

namespace Sys2Proof.Machine

@[simp] theorem State.writeLocation_params (s : State) (l : Location) (w : Word) : (s.writeLocation l w).params = s.params := by
  rcases s.writeLocation_cases l w with h | ⟨-, h⟩ | ⟨-, -, h⟩ | ⟨-, -, h⟩ | ⟨-, n, hi, -, h⟩ | ⟨-, i, -, h⟩ <;> simp [h]

@[simp] theorem State.transact_params (s : State) (t : Transaction) : (s.transact t).params = s.params := by
  rcases s.transact_cases t with ⟨r, h⟩ | ⟨l, w, -, -, -, h⟩ <;> simp [h]

theorem State.serve_params {s t : State} {e : HostEvent} {rest : List HostEvent} (h : s.serve e rest = .next t) :
    t.params = s.params := by
  rcases State.serve_cases h with ⟨-, x, rfl⟩ | ⟨-, -, rfl⟩ | rfl | rfl <;> simp

/-- Settles O12: a step is a completion, nothing, or one host event, and none of them writes the parameters. -/
theorem stepKeepsParameters : Obligations.StepKeepsParameters := by
  intro s t h
  rcases step_cases s with ⟨-, c, hs, -⟩ | ⟨-, -, hs⟩ | ⟨-, e, rest, -, hs⟩
  · rw [hs] at h; cases h; exact State.complete_params s c
  · rw [hs] at h; cases h; rfl
  · exact State.serve_params (hs ▸ h)

end Sys2Proof.Machine

/-! ### Digits and rendered numbers (R11 to R13) -/

namespace Sys2Proof.Machine

theorem between_iff {lo hi : Nat} {c : Byte} : between lo hi c = true ↔ lo ≤ c.toNat ∧ c.toNat ≤ hi := by
  simp [between]

theorem isWs_iff {c : Byte} : isWs c = true ↔ c.toNat ∈ [0x09, 0x0A, 0x0B, 0x0C, 0x0D, 0x20] := by
  have hspace : c = 0x20 ↔ c.toNat = 0x20 := BitVec.toNat_inj.symm
  simp only [isWs, Bool.or_eq_true, between_iff, beq_iff_eq, hspace, List.mem_cons, List.not_mem_nil, or_false]
  omega

theorem isDec_iff {c : Byte} : isDec c = true ↔ 0x30 ≤ c.toNat ∧ c.toNat ≤ 0x39 := between_iff

theorem isHex_iff {c : Byte} : isHex c = true ↔
    0x30 ≤ c.toNat ∧ c.toNat ≤ 0x39 ∨ 0x41 ≤ c.toNat ∧ c.toNat ≤ 0x46 ∨ 0x61 ≤ c.toNat ∧ c.toNat ≤ 0x66 := by
  simp only [isHex, isDec, Bool.or_eq_true, between_iff, or_assoc]

theorem isBin_iff {c : Byte} : isBin c = true ↔ c.toNat = 0x30 ∨ c.toNat = 0x31 := by
  rw [isBin, between_iff]; omega

theorem digitVal_of_dec {c : Byte} (h : 0x30 ≤ c.toNat ∧ c.toNat ≤ 0x39) : digitVal c = c.toNat - 0x30 := by
  rw [digitVal, if_pos (isDec_iff.2 h)]

theorem digitVal_of_upper {c : Byte} (h : 0x41 ≤ c.toNat ∧ c.toNat ≤ 0x46) : digitVal c = 10 + (c.toNat - 0x41) := by
  rw [digitVal, if_neg (by rw [isDec_iff]; omega), if_pos (between_iff.2 h), Nat.add_comm]

theorem digitVal_of_lower {c : Byte} (h : 0x61 ≤ c.toNat ∧ c.toNat ≤ 0x66) : digitVal c = 10 + (c.toNat - 0x61) := by
  rw [digitVal, if_neg (by rw [isDec_iff]; omega), if_neg (by rw [between_iff]; omega), Nat.add_comm]

@[simp] theorem digitsVal_nil (r : Nat) : digitsVal r [] = 0 := rfl

theorem digitsVal_append_singleton (r : Nat) (s : List Byte) (c : Byte) :
    digitsVal r (s ++ [c]) = digitsVal r s * r + digitVal c := by
  simp [digitsVal]

/-! The sixteen digit bytes. -/

theorem digitVal_digitByte {d : Nat} (h : d < 16) : digitVal (digitByte d) = d :=
  (by decide : ∀ d : Fin 16, digitVal (digitByte d) = d) ⟨d, h⟩

theorem digitByte_lt_lower {d : Nat} (h : d < 16) : (digitByte d).toNat < 0x61 :=
  (by decide : ∀ d : Fin 16, (digitByte d).toNat < 0x61) ⟨d, h⟩

theorem digitByte_ne_zero {d : Nat} (h : d < 16) (h0 : d ≠ 0) : digitByte d ≠ 0x30 :=
  (by decide : ∀ d : Fin 16, d.val ≠ 0 → digitByte d ≠ 0x30) ⟨d, h⟩ h0

theorem radixBase_le (q : Radix) : radixBase q ≤ 16 := by cases q <;> decide

theorem one_lt_radixBase (q : Radix) : 1 < radixBase q := by cases q <;> decide

theorem radixDigit_digitByte (q : Radix) {d : Nat} (h : d < radixBase q) : radixDigit q (digitByte d) = true :=
  (by cases q <;> decide : ∀ d : Fin (radixBase q), radixDigit q (digitByte d) = true) ⟨d, h⟩

/-! `render` by Mathlib's `Nat.digits`, which lists the least significant digit first. -/

theorem renderAux_eq_digits {r : Nat} (hr : 1 < r) : ∀ (fuel n : Nat) (acc : List Byte), n ≠ 0 → n < r ^ fuel →
    renderAux r fuel n acc = (r.digits n).reverse.map digitByte ++ acc := by
  intro fuel
  induction fuel with
  | zero => intro n acc h0 hn; rw [pow_zero] at hn; omega
  | succ fuel ih =>
    intro n acc h0 hn
    rw [renderAux]
    split_ifs with h
    · simp [Nat.digits_of_lt r n h0 h]
    · have hdiv : n / r ≠ 0 := (Nat.div_pos (Nat.not_lt.1 h) (by omega)).ne'
      rw [ih _ _ hdiv (Nat.div_lt_of_lt_mul (by rwa [pow_succ'] at hn)), Nat.digits_def' hr (Nat.pos_of_ne_zero h0)]
      simp

theorem render_zero {r : Nat} (hr : 0 < r) : render r 0 = [0x30] := by
  simp [render, renderAux, hr, digitByte]

theorem render_eq_digits {r n : Nat} (hr : 1 < r) (h0 : n ≠ 0) : render r n = (r.digits n).reverse.map digitByte := by
  have hn : n < r ^ (n.log2 + 1) :=
    calc n < 2 ^ (n.log2 + 1) := Nat.lt_log2_self
      _ ≤ r ^ (n.log2 + 1) := Nat.pow_le_pow_left hr _
  rw [render, renderAux_eq_digits hr _ _ _ h0 hn, List.append_nil]

/-- Every byte of a rendered number is the digit byte of some value below the radix. -/
theorem exists_digit_of_mem_render {r n : Nat} (hr : 1 < r) {c : Byte} (h : c ∈ render r n) :
    ∃ d, d < r ∧ c = digitByte d := by
  rcases eq_or_ne n 0 with rfl | h0
  · rw [render_zero (by omega), List.mem_singleton] at h
    exact ⟨0, by omega, h⟩
  · rw [render_eq_digits hr h0] at h
    obtain ⟨d, hd, rfl⟩ := List.mem_map.1 h
    exact ⟨d, Nat.digits_lt_base hr (List.mem_reverse.1 hd), rfl⟩

theorem render_ne_nil {r n : Nat} (hr : 1 < r) : render r n ≠ [] := by
  rcases eq_or_ne n 0 with rfl | h0
  · simp [render_zero (Nat.zero_lt_of_lt hr)]
  · simpa [render_eq_digits hr h0, Nat.digits_eq_nil_iff_eq_zero] using h0

/-- A digit string read back is `Nat.ofDigits`. -/
theorem digitsVal_map_digitByte (r : Nat) : ∀ L : List Nat, (∀ d ∈ L, d < 16) →
    digitsVal r (L.reverse.map digitByte) = Nat.ofDigits r L := by
  intro L
  induction L with
  | nil => intro _; rfl
  | cons d L ih =>
    intro h
    rw [List.forall_mem_cons] at h
    rw [List.reverse_cons, List.map_append, List.map_singleton, digitsVal_append_singleton, ih h.2, digitVal_digitByte h.1,
      Nat.ofDigits_cons, Nat.mul_comm, Nat.add_comm]

theorem digitsVal_render {r : Nat} (hr : 1 < r) (hr16 : r ≤ 16) (n : Nat) : digitsVal r (render r n) = n := by
  rcases eq_or_ne n 0 with rfl | h0
  · rw [render_zero (by omega)]; simp [digitsVal, digitVal, isDec, between]
  · rw [render_eq_digits hr h0, digitsVal_map_digitByte r _ fun d hd => (Nat.digits_lt_base hr hd).trans_le hr16,
      Nat.ofDigits_digits]

theorem render_head?_ne_zero {r n : Nat} (hr : 1 < r) (hr16 : r ≤ 16) (h0 : n ≠ 0) : (render r n).head? ≠ some 0x30 := by
  have hne : r.digits n ≠ [] := Nat.digits_ne_nil_iff_ne_zero.2 h0
  have hlast := Nat.getLast_digit_ne_zero r h0
  have hlt : (r.digits n).getLast hne < r := Nat.digits_lt_base hr (List.getLast_mem hne)
  rw [render_eq_digits hr h0, List.head?_map, List.head?_reverse, List.getLast?_eq_getLast_of_ne_nil hne]
  simpa using digitByte_ne_zero (hlt.trans_le hr16) hlast

theorem digits_radixDigits (q : Radix) (m : Nat) : Digits (radixDigit q) (radixDigits q m) := by
  refine ⟨render_ne_nil (one_lt_radixBase q), fun c hc => ?_⟩
  obtain ⟨d, hd, rfl⟩ := exists_digit_of_mem_render (one_lt_radixBase q) hc
  exact radixDigit_digitByte q hd

theorem radixDigits_lt_lower (q : Radix) (m : Nat) {c : Byte} (h : c ∈ radixDigits q m) : c.toNat < 0x61 := by
  obtain ⟨d, hd, rfl⟩ := exists_digit_of_mem_render (one_lt_radixBase q) h
  exact digitByte_lt_lower (hd.trans_le (radixBase_le q))

/-- Settles O44: the classes byte by byte, and `render` through `Nat.digits`. -/
theorem renderingIsCanonical : Obligations.RenderingIsCanonical := by
  refine ⟨fun c => ⟨isWs_iff, isDec_iff, between_iff, isBin_iff, isHex_iff, digitVal_of_dec, digitVal_of_upper,
    digitVal_of_lower⟩, rfl, rfl, fun r s c => ⟨rfl, digitsVal_append_singleton r s c⟩, fun q m => ?_⟩
  have hr := one_lt_radixBase q
  have hr16 := radixBase_le q
  exact ⟨digits_radixDigits q m, digitsVal_render hr hr16 m, render_head?_ne_zero hr hr16,
    fun h => by rw [h]; exact render_zero (by omega), fun c => radixDigits_lt_lower q m⟩

/-! Padding on the left (R13). -/

theorem padZeros_length {k : Nat} {s : List Byte} (h : s.length ≤ k) : (padZeros k s).length = k := by
  simp [padZeros, h]

theorem digitsVal_zeros_append (r j : Nat) (s : List Byte) : digitsVal r (List.replicate j 0x30 ++ s) = digitsVal r s := by
  induction j with
  | zero => rfl
  | succ j ih =>
    rw [← ih]
    simp [digitsVal, List.replicate_succ, digitVal, isDec, between]

theorem digitsVal_padZeros (r k : Nat) (s : List Byte) : digitsVal r (padZeros k s) = digitsVal r s :=
  digitsVal_zeros_append r _ s

theorem isDec_of_mem_padZeros {k : Nat} {s : List Byte} (h : ∀ c ∈ s, isDec c = true) {c : Byte} (hc : c ∈ padZeros k s) :
    isDec c = true := by
  rcases List.mem_append.1 hc with hz | hs
  · rw [List.eq_of_mem_replicate hz]; decide
  · exact h c hs

theorem isDec_of_mem_renderDec {n : Nat} {c : Byte} (h : c ∈ renderDec n) : isDec c = true :=
  (digits_radixDigits .r10 n).2 c h

theorem digitsVal_renderDec (n : Nat) : digitsVal 10 (renderDec n) = n := digitsVal_render (by omega) (by omega) n

namespace F64

/-- The integer nearest to `u / x`, ties to the larger one. -/
theorem nearestHalfUp_bounds (u : Nat) {x : Nat} (hx : 0 < x) :
    2 * ((2 * u + x) / (2 * x)) * x ≤ 2 * u + x ∧ 2 * u + x < 2 * ((2 * u + x) / (2 * x) + 1) * x := by
  have hle := Nat.mul_div_le (2 * u + x) (2 * x)
  have hlt := Nat.lt_mul_div_succ (2 * u + x) (show 0 < 2 * x by omega)
  exact ⟨by linarith, by linarith⟩

theorem one_pos : 0 < one := by rw [one_eq]; positivity

theorem fixedScaled_bounds (x : DWord) (k : Nat) :
    2 * fixedScaled x k * one ≤ 2 * (units x * 10 ^ k) + one ∧
      2 * (units x * 10 ^ k) + one < 2 * (fixedScaled x k + 1) * one :=
  nearestHalfUp_bounds _ one_pos

end F64

/-- Settles O53: the scaled value is rounded half up, and its last `k` digits are padded to `k` places. -/
theorem fixedPointText : Obligations.FixedPointText := by
  intro x k _ _
  obtain ⟨hlow, hhigh⟩ := F64.one_eq ▸ F64.fixedScaled_bounds x k
  refine ⟨F64.fixedScaled x k, hlow, hhigh, fun hk => ?_, fun hk => ?_⟩
  · subst hk; rw [F64.fixed, if_pos rfl]
  · have hlen : (renderDec (F64.fixedScaled x k % 10 ^ k)).length ≤ k :=
      render_length_le (Nat.mod_lt _ (by positivity)) (Nat.pos_of_ne_zero hk)
    refine ⟨padZeros k (renderDec (F64.fixedScaled x k % 10 ^ k)), padZeros_length hlen,
      fun c => isDec_of_mem_padZeros fun c => isDec_of_mem_renderDec, ?_, ?_⟩
    · rw [digitsVal_padZeros, digitsVal_renderDec]
    · rw [F64.fixed, if_neg hk]; rfl

end Sys2Proof.Machine

/-! ### One rounding of binary64 (R9): the nearest pattern, ties to even -/

namespace Sys2Proof.Machine.F64

/-- `q` is nearest to `n / D`, ties to even, all multiplied out. -/
structure NearestEven (q n D : Nat) : Prop where
  upper : 2 * (q * D) ≤ 2 * n + D
  lower : 2 * n ≤ 2 * (q * D) + D
  even_of_tie : 2 * (q * D) = 2 * n + D ∨ 2 * n = 2 * (q * D) + D → q % 2 = 0

theorem roundEven_nearestEven (n : Nat) {D : Nat} (hD : 0 < D) : NearestEven (roundEven n D) n D := by
  have hmod := Nat.mod_lt n hD
  have hdiv : n / D * D + n % D = n := Nat.div_add_mod' n D
  have hsucc : (n / D + 1) * D = n / D * D + D := Nat.succ_mul _ _
  unfold roundEven
  split_ifs
  all_goals constructor <;> omega

/-- A value of `t` whole units keeps 53 bits when its low bits are dropped. -/
theorem dropBits_bounds (t : Nat) :
    t < 2 ^ 53 * 2 ^ dropBits t ∧ (dropBits t = 0 ∨ 2 ^ 52 * 2 ^ dropBits t ≤ t) := by
  unfold dropBits
  split_ifs with h
  · exact ⟨by omega, .inl rfl⟩
  · have h0 : t ≠ 0 := by omega
    have hlog : 53 ≤ t.log2 := (Nat.le_log2 h0).2 (by omega)
    rw [← pow_add, ← pow_add, show 53 + (t.log2 - 52) = t.log2 + 1 by omega, show 52 + (t.log2 - 52) = t.log2 by omega]
    exact ⟨Nat.lt_log2_self, .inr (Nat.log2_self_le h0)⟩

/-- A significand of weight `2^k` units, written as a pattern, carry included. -/
theorem magUnits_block {k q : Nat} (hlow : k = 0 ∨ 2 ^ 52 ≤ q) (hhigh : q ≤ 2 ^ 53) :
    magUnits (k * 2 ^ 52 + q) = q * 2 ^ k := by
  unfold magUnits
  rcases lt_or_ge q (2 ^ 52) with hq | hq
  · obtain rfl : k = 0 := by omega
    rw [if_pos (by omega)]; omega
  · rw [if_neg (by omega)]
    rcases hhigh.lt_or_eq with hq' | rfl
    · rw [show (k * 2 ^ 52 + q) / 2 ^ 52 - 1 = k by omega, show 2 ^ 52 + (k * 2 ^ 52 + q) % 2 ^ 52 = q by omega]
    · rw [show (k * 2 ^ 52 + 2 ^ 53) / 2 ^ 52 - 1 = k + 1 by omega,
        show 2 ^ 52 + (k * 2 ^ 52 + 2 ^ 53) % 2 ^ 52 = 2 ^ 52 by omega, pow_succ]
      ring

/-- Every pattern is a significand below `2^53` of some weight. -/
theorem exists_block (m : Nat) : ∃ k q, m = k * 2 ^ 52 + q ∧ (k = 0 ∨ 2 ^ 52 ≤ q) ∧ q < 2 ^ 53 :=
  ⟨m / 2 ^ 52 - 1, m - (m / 2 ^ 52 - 1) * 2 ^ 52, by omega, by omega, by omega⟩

theorem magUnits_strictMono : StrictMono magUnits := by
  refine strictMono_nat_of_lt_succ fun m => ?_
  obtain ⟨k, q, rfl, hlow, hhigh⟩ := exists_block m
  rw [Nat.add_assoc, magUnits_block hlow (by omega), magUnits_block (by omega) (by omega)]
  exact Nat.mul_lt_mul_of_pos_right (by omega) (Nat.two_pow_pos k)

/-- The pattern of one rounding before it is cut at infinity: the format without a largest exponent. -/
def roundPattern (n d : Nat) : Nat := dropBits (n / d) * 2 ^ 52 + roundEven n (d * 2 ^ dropBits (n / d))

theorem roundMag_eq_min (n d : Nat) : roundMag n d = min (roundPattern n d) infMag := by
  unfold roundMag roundPattern; rfl

theorem roundMag_of_lt {n d : Nat} (h : roundMag n d < infMag) : roundMag n d = roundPattern n d := by
  rw [roundMag_eq_min] at h ⊢; omega

/-- What a rounded pattern is made of. -/
theorem roundPattern_block (n : Nat) {d : Nat} (hd : 0 < d) : ∃ k q, roundPattern n d = k * 2 ^ 52 + q ∧
    NearestEven q n (d * 2 ^ k) ∧ n < 2 ^ 53 * (d * 2 ^ k) ∧ (k = 0 ∨ 2 ^ 52 * (d * 2 ^ k) ≤ n) := by
  obtain ⟨hlt, hle⟩ := dropBits_bounds (n / d)
  refine ⟨_, _, rfl, roundEven_nearestEven n (by positivity), ?_, hle.imp_right fun h => ?_⟩
  · rw [Nat.div_lt_iff_lt_mul hd] at hlt; linarith
  · rw [Nat.le_div_iff_mul_le hd] at h; linarith

/-- The significand of a rounding fills its 53 bits, unless its weight is one unit. -/
theorem NearestEven.range {q n D k : Nat} (h : NearestEven q n D) (hD : 0 < D) (hlt : n < 2 ^ 53 * D)
    (hle : k = 0 ∨ 2 ^ 52 * D ≤ n) : (k = 0 ∨ 2 ^ 52 ≤ q) ∧ q ≤ 2 ^ 53 := by
  obtain ⟨hupper, hlower, -⟩ := h
  refine ⟨hle.imp_right fun hn => ?_, ?_⟩
  · by_contra hq
    have : (q + 1) * D ≤ 2 ^ 52 * D := Nat.mul_le_mul_right D (by omega)
    rw [Nat.succ_mul] at this; omega
  · by_contra hq
    have : (2 ^ 53 + 1) * D ≤ q * D := Nat.mul_le_mul_right D (by omega)
    rw [Nat.succ_mul] at this; omega

/-- Pattern `m` is no nearer to `n / d` than pattern `r`, and where it is another one equally near, `r` is even. -/
def NoNearer (n d r m : Nat) : Prop :=
  ((magUnits r : Int) * d - n).natAbs ≤ ((magUnits m : Int) * d - n).natAbs ∧
    (m ≠ r → ((magUnits r : Int) * d - n).natAbs = ((magUnits m : Int) * d - n).natAbs → r % 2 = 0)

/-- Where another pattern than the rounded one lies: beyond it on the side away from `n / d`, or at least one whole place
away on the other side. -/
theorem roundPattern_apart (n : Nat) {d : Nat} (hd : 0 < d) : ∃ q D, 0 < D ∧ NearestEven q n D ∧
    (q % 2 = 0 → roundPattern n d % 2 = 0) ∧ magUnits (roundPattern n d) * d = q * D ∧
    ∀ m, m ≠ roundPattern n d →
      q * D ≤ n ∧ (magUnits m * d < q * D ∨ q * D + D ≤ magUnits m * d) ∨
      n < q * D ∧ (q * D < magUnits m * d ∨ magUnits m * d + D ≤ q * D) := by
  obtain ⟨k, q, hr, hround, hlt, hle⟩ := roundPattern_block n hd
  have hD : 0 < d * 2 ^ k := by positivity
  obtain ⟨hlow, hhigh⟩ := hround.range hD hlt hle
  have hscale : ∀ p, p * 2 ^ k * d = p * (d * 2 ^ k) := fun p => by ring
  have hQ : magUnits (roundPattern n d) * d = q * (d * 2 ^ k) := by rw [hr, magUnits_block hlow hhigh, hscale]
  refine ⟨q, d * 2 ^ k, hD, hround, fun h => by rw [hr]; omega, hQ, fun m hm => ?_⟩
  rcases le_or_gt (q * (d * 2 ^ k)) n with hn | hn
  · refine .inl ⟨hn, (lt_or_gt_of_ne hm).imp (fun h => ?_) fun h => ?_⟩
    · rw [← hQ]; exact Nat.mul_lt_mul_of_pos_right (magUnits_strictMono h) hd
    · have hq : q < 2 ^ 53 := Nat.lt_of_mul_lt_mul_right (hn.trans_lt hlt)
      have hnext : magUnits (k * 2 ^ 52 + (q + 1)) ≤ magUnits m := magUnits_strictMono.monotone (by omega)
      rw [magUnits_block (by omega) (by omega)] at hnext
      rw [← Nat.succ_mul, ← hscale]
      exact Nat.mul_le_mul_right d hnext
  · refine .inr ⟨hn, (lt_or_gt_of_ne hm).symm.imp (fun h => ?_) fun h => ?_⟩
    · rw [← hQ]; exact Nat.mul_lt_mul_of_pos_right (magUnits_strictMono h) hd
    · obtain ⟨p, rfl⟩ : ∃ p, q = p + 1 := Nat.exists_eq_succ_of_ne_zero (by rintro rfl; simp at hn)
      have hp : k = 0 ∨ 2 ^ 52 ≤ p :=
        hle.imp_right fun h => Nat.lt_succ_iff.1 (Nat.lt_of_mul_lt_mul_right (h.trans_lt hn))
      have hprev : magUnits m ≤ magUnits (k * 2 ^ 52 + p) := magUnits_strictMono.monotone (by omega)
      rw [magUnits_block hp (by omega)] at hprev
      rw [Nat.succ_mul, ← hscale]
      exact Nat.add_le_add_right (Nat.mul_le_mul_right d hprev) _

/-- No pattern is nearer to `n / d` than the rounded one. -/
theorem roundPattern_noNearer (n : Nat) {d : Nat} (hd : 0 < d) (m : Nat) : NoNearer n d (roundPattern n d) m := by
  obtain ⟨q, D, hD, ⟨hupper, hlower, heven⟩, hparity, hQ, hother⟩ := roundPattern_apart n hd
  unfold NoNearer
  rcases eq_or_ne m (roundPattern n d) with rfl | hm
  · exact ⟨le_rfl, fun h => absurd rfl h⟩
  · have hside := hother m hm
    rw [← Nat.cast_mul, ← Nat.cast_mul, hQ]
    exact ⟨by omega, fun _ htie => hparity (heven (by omega))⟩

/-! ### The overflow threshold -/

/-- Infinity read as one more pattern of the format lies one place of `2^2045` units, twice `2^2044`, above the largest. -/
theorem magUnits_infMag : magUnits infMag = magUnits (infMag - 1) + 2 * 2 ^ 2044 := by
  rw [show infMag - 1 = 2045 * 2 ^ 52 + (2 ^ 53 - 1) from rfl, show infMag = 2045 * 2 ^ 52 + 2 ^ 53 from rfl,
    magUnits_block (by omega) le_rfl, magUnits_block (by omega) (by omega), ← pow_succ']
  generalize 2 ^ 2045 = place
  omega

/-- R9's threshold is the midpoint of the two. -/
theorem overflow_threshold : 2 ^ 2098 - 2 ^ 2044 = magUnits (infMag - 1) + 2 ^ 2044 := by
  have hinf : 2 ^ 2098 = magUnits infMag := by
    rw [show infMag = 2045 * 2 ^ 52 + 2 ^ 53 from rfl, magUnits_block (by omega) le_rfl, ← pow_add]
  rw [hinf, magUnits_infMag]
  generalize 2 ^ 2044 = h
  omega

/-- An infinity is given exactly from that threshold on: below it the largest finite pattern would be nearer, and from it on
infinity is nearer or wins the tie, the largest finite pattern being odd. -/
theorem roundMag_eq_infMag_iff (n : Nat) {d : Nat} (hd : 0 < d) :
    roundMag n d = infMag ↔ d * (2 ^ 2098 - 2 ^ 2044) ≤ n := by
  have hplace : magUnits infMag * d = magUnits (infMag - 1) * d + 2 * (2 ^ 2044 * d) := by
    rw [magUnits_infMag, Nat.add_mul, Nat.mul_assoc]
  have hmid : d * (2 ^ 2098 - 2 ^ 2044) = magUnits (infMag - 1) * d + 2 ^ 2044 * d := by
    rw [overflow_threshold, Nat.mul_comm, Nat.add_mul]
  have hpos : 0 < 2 ^ 2044 * d := Nat.mul_pos (pow_pos two_pos _) hd
  rw [hmid, roundMag_eq_min, min_eq_right_iff]
  generalize 2 ^ 2044 * d = h at *
  constructor
  · intro hr
    have hunits := Nat.mul_le_mul_right d (magUnits_strictMono.monotone hr)
    have hnear := (roundPattern_noNearer n hd (infMag - 1)).1
    rw [← Nat.cast_mul, ← Nat.cast_mul] at hnear
    omega
  · intro hn
    by_contra hr
    have hr' : roundPattern n d ≤ infMag - 1 := by omega
    have hunits := Nat.mul_le_mul_right d (magUnits_strictMono.monotone hr')
    obtain ⟨hnear, htie⟩ := roundPattern_noNearer n hd infMag
    rw [← Nat.cast_mul, ← Nat.cast_mul] at hnear htie
    have heven := htie (by omega) (by omega)
    have heq : magUnits (roundPattern n d) * d = magUnits (infMag - 1) * d := by omega
    have hlast := magUnits_strictMono.injective (Nat.eq_of_mul_eq_mul_right hd heq)
    rw [hlast] at heven
    exact absurd heven (by decide)

theorem roundMag_lt_infMag {n d : Nat} (hd : 0 < d) (h : n < d * (2 ^ 2098 - 2 ^ 2044)) : roundMag n d < infMag :=
  (roundMag_le n d).lt_of_ne fun he => h.not_ge ((roundMag_eq_infMag_iff n hd).1 he)

theorem roundMag_noNearer {n d : Nat} (hd : 0 < d) (h : roundMag n d < infMag) (m : Nat) :
    NoNearer n d (roundMag n d) m := by
  rw [roundMag_of_lt h]; exact roundPattern_noNearer n hd m

/-! ### Rounding in the words of the claims -/

theorem roundMag_lt (n d : Nat) : roundMag n d < 2 ^ 63 := (roundMag_le n d).trans_lt (by decide)

theorem exactUnits_eq_magUnits (x : DWord) : exactUnits x = magUnits (mag x) := (units_eq x).symm

theorem make_toNat_mod_two (s : Bool) {m : Nat} (h : m < 2 ^ 63) : (make s m).toNat % 2 = m % 2 := by
  rw [make_toNat s h]; cases s <;> simp; omega

/-- A pattern put together from a sign and a rounding is one rounding of R9. -/
theorem make_roundsTo (s : Bool) (n : Nat) {d : Nat} (hd : 0 < d) : RoundsTo s n d (make s (roundMag n d)) where
  sign := make_msb s (roundMag_lt n d)
  overflow h := by
    rw [← isInf_iff, isInf, make_mag s (roundMag_lt n d), decide_eq_true_iff]
    exact (roundMag_eq_infMag_iff n hd).2 h
  finite h := by
    rw [← isFinite_iff, isFinite, make_mag s (roundMag_lt n d), decide_eq_true_iff]
    exact roundMag_lt_infMag hd h
  nearest h y _ := by
    obtain ⟨hnear, htie⟩ := roundMag_noNearer hd (roundMag_lt_infMag hd h) (mag y)
    rw [make_exactUnits s (roundMag_lt n d), make_toNat_mod_two s (roundMag_lt n d), exactUnits_eq_magUnits y]
    exact ⟨hnear, fun hne => htie fun he => hne (by rw [he])⟩

theorem patternsAreBinary64 : PatternsAreBinary64 := fun x =>
  ⟨isFinite_iff, isInf_iff, isNaN_iff, rfl, units_eq x⟩

/-! ### Conversions (R9, R10) -/

theorem ofRat_roundsTo (n : Nat) {d : Nat} (hd : 0 < d) : RoundsTo false (n * 2 ^ 1074) d (ofRat n d) := by
  rw [ofRat, one_eq]; exact make_roundsTo _ _ hd

theorem ofNat_roundsTo (n : Nat) : RoundsTo false (n * 2 ^ 1074) 1 (ofNat n) := by
  rw [ofNat]; exact ofRat_roundsTo n Nat.one_pos

/-- R9's threshold `2^1024 - 2^970` in units of `2^-1074`. -/
theorem overflow_threshold_units : 2 ^ 2098 - 2 ^ 2044 = (2 ^ 1024 - 2 ^ 970) * 2 ^ 1074 := by
  rw [Nat.sub_mul, ← pow_add, ← pow_add]

theorem roundMag_rat_eq_infMag_iff (r : Rat) :
    roundMag (r.num.natAbs * one) r.den = infMag ↔ r.den * (2 ^ 1024 - 2 ^ 970) ≤ r.num.natAbs := by
  rw [roundMag_eq_infMag_iff _ r.den_pos, overflow_threshold_units, ← one_eq, ← Nat.mul_assoc,
    Nat.mul_le_mul_right_iff one_pos]

theorem toF64_roundsTo {r : Rat} (h : r.num.natAbs < r.den * (2 ^ 1024 - 2 ^ 970)) :
    RoundsTo (decide (r < 0)) (r.num.natAbs * 2 ^ 1074) r.den (toF64 r) := by
  rcases lt_or_ge r 0 with hr | hr
  · rw [decide_eq_true hr, toF64_of_neg hr fun he => h.not_ge ((roundMag_rat_eq_infMag_iff r).1 he), one_eq]
    exact make_roundsTo _ _ r.den_pos
  · rw [decide_eq_false hr.not_gt, toF64_of_nonneg hr]
    exact ofRat_roundsTo _ r.den_pos

theorem roundHalfUp_of_finite {q : DWord} (h : FiniteBits q) : ∃ n, roundHalfUp q = .int n ∧
    2 * n * 2 ^ 1074 ≤ 2 * exactUnits q + 2 ^ 1074 ∧ 2 * exactUnits q + 2 ^ 1074 < 2 * (n + 1) * 2 ^ 1074 := by
  refine ⟨_, by rw [roundHalfUp, if_pos (isFinite_iff.2 h)], ?_⟩
  rw [← units_eq, ← one_eq]
  exact nearestHalfUp_bounds _ one_pos

theorem conversionsRoundOnce : ConversionsRoundOnce := by
  refine ⟨fun n d => ofRat_roundsTo n, ofNat_roundsTo, fun r h => ?_, fun r h _ => toF64_roundsTo h,
    fun q h _ => roundHalfUp_of_finite h, ?_⟩
  · exact toF64_of_overflow ((roundMag_rat_eq_infMag_iff r).2 h)
  · rw [roundHalfUp]; rfl

/-! ### Operations: IEEE 754's special results, and one rounding of what is left -/

theorem of_nan {x : DWord} (h : NanBits x) : isNaN x = true := isNaN_iff.2 h

theorem quotientsRoundOnce : QuotientsRoundOnce := by
  intro a b
  refine ⟨fun ha hb h0 => ?_, fun ha h0 hb h0' => ?_, fun ha h0 hb h0' => ?_, fun ha hb => ?_, fun ha hb => ?_,
    fun ha hb => ?_, fun h => ?_⟩
  · have hdiv : div a b = make (a.msb ^^ b.msb) (roundMag (exactUnits a * one) (exactUnits b)) := by
      simp [div, of_finite ha, of_finite hb, units_eq, h0, sign]
    rw [hdiv, ← one_eq]
    exact make_roundsTo _ _ (Nat.pos_of_ne_zero h0)
  · simp [div, of_finite ha, of_finite hb, units_eq, h0, h0', inf_eq, sign]
  · simp [div, of_finite ha, of_finite hb, units_eq, h0, h0', nan]
  · simp [div, of_infinite ha, of_finite hb, inf_eq, sign]
  · simp [div, of_finite ha, of_infinite hb, make_zero, sign]
  · simp [div, of_infinite ha, of_infinite hb, nan]
  · rcases h with h | h <;> simp [div, of_nan h, nan]

theorem productsRoundOnce : ProductsRoundOnce := by
  intro a b
  refine ⟨fun ha hb => ?_, fun ha hb => ?_, fun hb ha => ?_, fun ha hb h0 => ?_, fun ha h0 hb => ?_, fun h => ?_⟩
  · have hmul : mul a b = make (a.msb ^^ b.msb) (roundMag (exactUnits a * exactUnits b) one) := by
      simp [mul, of_finite ha, of_finite hb, units_eq, sign]
    rw [hmul, ← one_eq]
    exact make_roundsTo _ _ one_pos
  · rcases hb with hb | ⟨hb, h0⟩
    · simp [mul, of_infinite ha, of_infinite hb, inf_eq, sign]
    · simp [mul, of_infinite ha, of_finite hb, units_eq, h0, inf_eq, sign]
  · rcases ha with ha | ⟨ha, h0⟩
    · simp [mul, of_infinite ha, of_infinite hb, inf_eq, sign]
    · simp [mul, of_finite ha, of_infinite hb, units_eq, h0, inf_eq, sign]
  · simp [mul, of_infinite ha, of_finite hb, units_eq, h0, nan]
  · simp [mul, of_finite ha, of_infinite hb, units_eq, h0, nan]
  · rcases h with h | h <;> simp [mul, of_nan h, nan]

theorem add_roundsTo {a b : DWord} (ha : FiniteBits a) (hb : FiniteBits b) (h : exactValue a + exactValue b ≠ 0) :
    RoundsTo (decide (exactValue a + exactValue b < 0)) (exactValue a + exactValue b).natAbs 1 (add a b) := by
  have hadd : add a b =
      make (decide (exactValue a + exactValue b < 0)) (roundMag (exactValue a + exactValue b).natAbs 1) := by
    simp [add, of_finite ha, of_finite hb, value_eq, h]
  rw [hadd]
  exact make_roundsTo _ _ Nat.one_pos

theorem add_of_sum_zero {a b : DWord} (ha : FiniteBits a) (hb : FiniteBits b) (h : exactValue a + exactValue b = 0) :
    add a b = signedZero (a.msb && b.msb) := by
  simp [add, of_finite ha, of_finite hb, value_eq, h, make_zero, sign]

theorem add_of_infinite_left {a b : DWord} (ha : InfiniteBits a) (hb : FiniteBits b) : add a b = a := by
  simp [add, of_infinite ha, of_finite hb]

theorem add_of_infinite_right {a b : DWord} (ha : FiniteBits a) (hb : InfiniteBits b) : add a b = b := by
  simp [add, of_finite ha, of_infinite hb]

theorem add_of_infinite_same {a b : DWord} (ha : InfiniteBits a) (hb : InfiniteBits b) (h : a.msb = b.msb) :
    add a b = a := by
  simp [add, of_infinite ha, of_infinite hb, sign, h]

theorem add_of_infinite_opposite {a b : DWord} (ha : InfiniteBits a) (hb : InfiniteBits b) (h : a.msb ≠ b.msb) :
    add a b = 0x7FF8000000000000 := by
  simp [add, of_infinite ha, of_infinite hb, sign, h, nan]

theorem add_of_nan {a b : DWord} (h : NanBits a ∨ NanBits b) : add a b = 0x7FF8000000000000 := by
  rcases h with h | h <;> simp [add, of_nan h, nan]

/-! A difference is the sum with the opposite, which has the class and, negated, the value of its operand. -/

theorem neg_finite {x : DWord} (h : FiniteBits x) : FiniteBits (neg x) := by
  rw [← isFinite_iff, isFinite, neg_mag]; exact isFinite_iff.2 h

theorem neg_infinite {x : DWord} (h : InfiniteBits x) : InfiniteBits (neg x) := by
  rw [← isInf_iff, isInf, neg_mag]; exact isInf_iff.2 h

theorem neg_nan {x : DWord} (h : NanBits x) : NanBits (neg x) := by
  rw [← isNaN_iff, isNaN, neg_mag]; exact isNaN_iff.2 h

theorem sub_exactValue (a b : DWord) : exactValue a - exactValue b = exactValue a + exactValue (neg b) := by
  rw [← value_eq b, ← value_eq (neg b), neg_value, Int.sub_eq_add_neg]

theorem sumsRoundOnce : SumsRoundOnce := by
  intro a b
  rw [sub_exactValue, ← neg_msb, sub]
  refine ⟨fun ha hb => ⟨add_roundsTo ha hb, add_of_sum_zero ha hb, add_roundsTo ha (neg_finite hb),
      add_of_sum_zero ha (neg_finite hb)⟩,
    fun ha hb => ⟨add_of_infinite_left ha hb, add_of_infinite_left ha (neg_finite hb)⟩, fun ha hb => ?_,
    fun ha hb h => ⟨add_of_infinite_same ha hb h, ?_⟩, fun ha hb h => ⟨add_of_infinite_opposite ha hb h, ?_⟩,
    fun h => ⟨add_of_nan h, add_of_nan (h.imp_right neg_nan)⟩⟩
  · rw [← infinite_eq (neg_infinite hb)]
    exact ⟨add_of_infinite_right ha hb, add_of_infinite_right ha (neg_infinite hb)⟩
  · exact add_of_infinite_opposite ha (neg_infinite hb) (by rw [neg_msb, h]; exact (Bool.not_ne_self _).symm)
  · exact add_of_infinite_same ha (neg_infinite hb) (by rw [neg_msb]; exact Bool.eq_not.2 h)

/-- Settles O55: no pattern is nearer than the rounded one (`roundPattern_noNearer`), infinity is the pattern after the largest
finite one (`roundMag_eq_infMag_iff`), and every operation puts one rounding together with a sign (`make_roundsTo`). -/
theorem roundingIsNearestEven : Obligations.RoundingIsNearestEven :=
  ⟨fun n _ hd => ⟨fun h m _ => roundMag_noNearer hd h m, roundMag_eq_infMag_iff n hd⟩, patternsAreBinary64,
    conversionsRoundOnce, quotientsRoundOnce, productsRoundOnce, sumsRoundOnce⟩

end Sys2Proof.Machine.F64

/-! ### The parameters and the output bound of every command (R6, R60, R152, R218) -/

namespace Sys2Proof.Machine

/-- The bounds of R6 as inequalities. -/
theorem Params.wellFormed_iff {p : Params} : p.wellFormed = true ↔
    (p.ibufSize % 4 = 0 ∧ 4 ≤ p.ibufSize ∧ p.ibufSize ≤ 65536) ∧
      p.obufSize % 4 = 0 ∧ 4 * ((p.ibufSize + 2) / 3) ≤ p.obufSize ∧ 2048 ≤ p.obufSize ∧ p.obufSize ≤ 131072 := by
  simp only [Params.wellFormed, Params.ibufOk, Params.obufOk, Params.obufLeast, Bool.and_eq_true, beq_iff_eq,
    decide_eq_true_eq, max_le_iff]
  omega

/-! The string commands: a few lines of bounded numbers. -/

theorem crcDeliver_out_length (crc : Word) : (crcDeliver crc).out.length = 9 := by
  have hhex : (renderHex crc.toNat).length ≤ 8 := render_length_le crc.isLt (by omega)
  simp [crcDeliver, renderHex8, padZeros_length hhex]

theorem xorDeliver_out_length_le (acc : DWord) : (xorDeliver acc).out.length ≤ 107 := by
  have hlt := acc.isLt
  have hdec : (renderDec acc.toNat).length ≤ 20 := render_length_le (by omega) (by omega)
  have hhex : (renderHex acc.toNat).length ≤ 16 := render_length_le hlt (by omega)
  have hbin : (renderBin acc.toNat).length ≤ 64 := render_length_le hlt (by omega)
  simp only [xorDeliver, xorLines, List.length_append, ascii_0x, ascii_0b, List.length_cons, List.length_nil]
  omega

theorem radixLine_length_le (q : Radix) {m : Nat} (hm : m ≤ Config.magMax) : (radixLine q m).length ≤ 67 := by
  have hmark : (radixMark q).length ≤ 2 := by cases q <;> decide
  have hlt : m < radixBase q ^ 64 :=
    calc m < 2 ^ 64 := by unfold Config.magMax at hm; omega
      _ ≤ radixBase q ^ 64 := Nat.pow_le_pow_left (one_lt_radixBase q) 64
  have hdigits : (radixDigits q m).length ≤ 64 := render_length_le hlt (by omega)
  simp only [radixLine, List.length_append, List.length_singleton]
  omega

theorem radixLines_length_le (src : Radix) {m : Nat} (hm : m ≤ Config.magMax) : (radixLines src m).length ≤ 268 := by
  have hlines : ∀ L : List Radix, (L.flatMap fun q => radixLine q m).length ≤ 67 * L.length := by
    intro L
    induction L with
    | nil => simp
    | cons q L ih =>
      have hq := radixLine_length_le q hm
      simp only [List.flatMap_cons, List.length_append, List.length_cons]
      omega
  have hfour := List.length_filter_le (fun q => q ≠ src) [Radix.r2, .r8, .r10, .r16]
  exact (hlines _).trans (Nat.mul_le_mul_left 67 hfour)

/-! Base64. -/

theorem b64Encode_length : ∀ bs : List Byte, (b64Encode bs).length = 4 * ((bs.length + 2) / 3)
  | [] => rfl
  | [_] => by simp [b64Encode]
  | [_, _] => by simp [b64Encode]
  | _ :: _ :: _ :: rest => by
    have ih := b64Encode_length rest
    simp only [b64Encode, List.length_cons]
    omega

theorem b64Bits_length_le : ∀ (chars : List Byte) (bits n : Nat), (b64Bits bits n chars).length ≤ chars.length
  | [], _, _ => le_rfl
  | _ :: rest, _, _ => by
    unfold b64Bits
    split_ifs
    · exact Nat.succ_le_succ (b64Bits_length_le rest _ _)
    · exact (b64Bits_length_le rest _ _).trans (Nat.le_succ _)

theorem b64Decode_length_le {bs out : List Byte} (h : b64Decode bs = some out) : out.length ≤ bs.length := by
  obtain ⟨padding, hbs, -⟩ := unpad_spec bs
  have hunpad : (unpad bs).length ≤ bs.length := by
    conv_rhs => rw [hbs, List.length_append]
    omega
  unfold b64Decode at h
  split_ifs at h
  cases h
  exact (b64Bits_length_le _ _ _).trans hunpad

/-! The storage commands (R218). Every pattern, an infinity or NaN too, reads as less than `2^1025`, so its integer part has at
most 310 digits. -/

theorem exactUnits_lt {x : DWord} {e : Nat} (he : expField x ≤ e + 1) : exactUnits x < 2 ^ 53 * 2 ^ e := by
  have hfrac := F64.fracField_lt x
  have hsig : 2 ^ 52 + fracField x < 2 ^ 53 := by omega
  have hplace : 2 ^ (expField x - 1) ≤ 2 ^ e := Nat.pow_le_pow_right Nat.two_pos (by omega)
  unfold exactUnits
  split_ifs
  · exact (Nat.lt_of_le_of_lt (Nat.le_add_left _ _) hsig).trans_le (Nat.le_mul_of_pos_right _ (Nat.two_pow_pos e))
  · exact Nat.mul_lt_mul_of_lt_of_le hsig hplace (Nat.two_pow_pos e)

theorem F64.units_lt (x : DWord) : F64.units x < 2 ^ 1025 * F64.one := by
  have h := exactUnits_lt (Nat.lt_succ_iff.1 (F64.expField_lt x))
  rwa [← F64.units_eq, ← pow_add, show 53 + 2046 = 1025 + 1074 from rfl, pow_add, ← F64.one_eq] at h

theorem two_pow_1025_lt : (2 : Nat) ^ 1025 < 10 ^ 310 := by
  rw [show 1025 = 205 * 5 from rfl, show 310 = 62 * 5 from rfl, pow_mul, pow_mul]
  exact Nat.pow_lt_pow_left (by norm_num) (by omega)

theorem F64.fixedScaled_lt (x : DWord) (k : Nat) : F64.fixedScaled x k < 10 ^ (310 + k) := by
  have hlow := (F64.fixedScaled_bounds x k).1
  have hunits := F64.units_lt x
  have hpow := two_pow_1025_lt
  have hten : 0 < 10 ^ k := Nat.pow_pos (by omega)
  generalize 2 ^ 1025 = B at *
  rw [pow_add]
  refine Nat.lt_of_le_of_lt ?_ (Nat.mul_lt_mul_of_pos_right hpow hten)
  by_contra hgt
  have hstep : (B * 10 ^ k + 1) * F64.one ≤ F64.fixedScaled x k * F64.one :=
    Nat.mul_le_mul_right _ (Nat.lt_of_not_le hgt)
  have hscaled : F64.units x * 10 ^ k < B * F64.one * 10 ^ k := Nat.mul_lt_mul_of_pos_right hunits hten
  have := F64.one_pos
  linarith

theorem F64.fixed_length_le (x : DWord) (k : Nat) : (F64.fixed x k).length ≤ 311 + k := by
  have hlt := F64.fixedScaled_lt x k
  rw [F64.fixed]
  split_ifs with hk
  · subst hk
    exact (render_length_le hlt (Nat.succ_pos _)).trans (Nat.le_succ _)
  · have hwhole : (renderDec (F64.fixedScaled x k / 10 ^ k)).length ≤ 310 :=
      render_length_le ((Nat.div_lt_iff_lt_mul (by positivity)).2 (by rwa [← pow_add])) (by omega)
    have hfrac : (renderDec (F64.fixedScaled x k % 10 ^ k)).length ≤ k :=
      render_length_le (Nat.mod_lt _ (by positivity)) (Nat.pos_of_ne_zero hk)
    have hdot : (ascii ".").length = 1 := by decide
    simp only [List.length_append, padZeros_length hfrac, hdot]
    omega

theorem countText_length_le (x : DWord) : (countText x).length ≤ 314 := by
  unfold countText
  refine (F64.fixed_length_le x _).trans ?_
  split_ifs <;> omega

theorem unitLine_length_le (name : List Byte) (x : DWord) : (unitLine name x).length ≤ name.length + 316 := by
  have htext : (unitText x).length ≤ 314 := by
    unfold unitText
    refine (F64.fixed_length_le x _).trans ?_
    split_ifs <;> omega
  have heq : (ascii "=").length = 1 := by decide
  unfold unitLine
  split_ifs
  · simp only [List.length_append, List.length_singleton, heq]; omega
  · simp

/-- R218: five lines at most, within its 1600 bytes. -/
theorem storLines_length_le (bytes : DWord) : (storLines bytes).length ≤ 1600 := by
  have hbits := countText_length_le (storBits bytes)
  have hbytes := countText_length_le bytes
  have hkb := unitLine_length_le (ascii "KB") (storKB bytes)
  have hmb := unitLine_length_le (ascii "MB") (storMB bytes)
  have hgb := unitLine_length_le (ascii "GB") (storGB bytes)
  have hnames : [ascii "bits=", ascii "bytes=", ascii "KB", ascii "MB", ascii "GB"].map List.length = [5, 6, 2, 2, 2] := by
    decide
  simp only [List.map_cons, List.map_nil, List.cons.injEq, and_true] at hnames
  simp only [storLines, List.length_append, List.length_singleton]
  omega

/-! Every command. -/

/-- The output of a command is within the 2048 bytes that OBUF has at least (R6), or at most as long as the Base64 text of an
input that fits IBUF (R152). -/
theorem outcomeOf_out_length_le {i : Instr} {s : State} {r : Result} (h : outcomeOf i s = .ok r) :
    r.out.length ≤ 2048 ∨ s.inLen.toNat ≤ s.params.ibufSize ∧ r.out.length ≤ 4 * ((s.inLen.toNat + 2) / 3) := by
  cases i <;> simp only [outcomeOf] at h
  case crc32Text => obtain ⟨_, _, h⟩ := bind_eq_ok h; rw [crc32TextOf_ok h, crcDeliver_out_length]; omega
  case crc32Hex => obtain ⟨_, _, h⟩ := bind_eq_ok h; rw [crc32HexOf_ok h, crcDeliver_out_length]; omega
  case xorFold =>
    obtain ⟨_, _, h⟩ := bind_eq_ok h
    obtain ⟨acc, _, rfl⟩ := xorFoldOf_ok h
    exact .inl ((xorDeliver_out_length_le acc).trans (by omega))
  case b64Enc =>
    obtain ⟨_, hin, h⟩ := bind_eq_ok h
    obtain ⟨hlen, rfl⟩ := State.input_eq_ok hin
    rw [b64EncOf_ok h, b64Encode_length, State.inBytes_length]
    exact .inr ⟨hlen, le_rfl⟩
  case b64Dec =>
    obtain ⟨_, hin, h⟩ := bind_eq_ok h
    obtain ⟨hlen, rfl⟩ := State.input_eq_ok hin
    obtain ⟨out, hout, -, rfl⟩ := b64DecOf_ok h
    have hle := b64Decode_length_le hout
    rw [State.inBytes_length] at hle
    exact .inr ⟨hlen, by simp only; omega⟩
  case bconvR2 | bconvR8 | bconvR10 | bconvR16 =>
    obtain ⟨_, _, h⟩ := bind_eq_ok h
    obtain ⟨hmax, rfl⟩ := bconvOf_ok h
    exact .inl ((radixLines_length_le _ hmax).trans (by omega))
  case storReg | storBit | storByte | storKb | storMb | storGb =>
    obtain ⟨_, _, h⟩ := bind_eq_ok h
    obtain ⟨bytes, _, h⟩ := storOf_ok h
    rw [(storDeliver_ok h).2]
    exact .inl ((storLines_length_le bytes).trans (by omega))
  case clkSolve => rw [clkSolveOf_ok h]; exact .inl (Nat.zero_le _)
  case clkPureS | clkPureMs | clkPureUs | clkPureNs => rw [clkPureOf_ok h]; exact .inl (Nat.zero_le _)

/-- Under legal parameters every output fits OBUF (R6, R60). -/
theorem outcomeOf_out_fits {i : Instr} {s : State} {r : Result} (hp : s.params.wellFormed = true)
    (h : outcomeOf i s = .ok r) : r.out.length ≤ s.params.obufSize := by
  have hbounds := Params.wellFormed_iff.1 hp
  have hout := outcomeOf_out_length_le h
  omega

end Sys2Proof.Machine

/-! ### What every step keeps -/

namespace Sys2Proof.Machine

/-! Completions and the byte memory. -/

theorem Memory.mem_writeBytes {bs : List Byte} : ∀ {m : Memory} {x : Nat} {c : Host.Cell}, c ∈ m.writeBytes x bs →
    c ∈ m ∨ x ≤ c.1 ∧ c.1 < x + bs.length := by
  induction bs with
  | nil => exact fun h => .inl h
  | cons b bs ih =>
    intro m x c h
    rw [List.length_cons]
    rcases ih h with hm | hnew
    · rcases Memory.mem_write hm with rfl | hm
      · exact .inr ⟨le_rfl, by simp only; omega⟩
      · exact .inl hm
    · omega

theorem Memory.mem_of_mem_forgetFrom {m : Memory} {lo : Nat} {c : Host.Cell} (h : c ∈ m.forgetFrom lo) : c ∈ m :=
  List.mem_of_mem_filter h

theorem State.complete_mem_wf {s : State} (c : Except Raised Result) (h : s.mem.wf) : (s.complete c).mem.wf := by
  have hforget := Memory.forgetFrom_wf obufBase h
  cases c with
  | error e => exact hforget
  | ok r => exact Memory.writeBytes_wf r.out obufBase hforget

theorem State.complete_read_below (s : State) (c : Except Raised Result) {off : Nat} (h : off < obufBase) :
    (s.complete c).mem.read? off = s.mem.read? off := by
  cases c with
  | error e => exact State.fail_read_below s e h
  | ok r => exact State.publish_read_below s r h

/-- A completion lists exactly the OBUF bytes below OUT_LEN, where OUT_LEN can hold the length of the output. -/
theorem State.complete_read_obuf_isSome {s : State} {c : Except Raised Result}
    (h : ∀ r, c = .ok r → r.out.length < 2 ^ 32) (i : Nat) :
    ((s.complete c).mem.read? (obufBase + i)).isSome = decide (i < (s.complete c).outLen.toNat) := by
  cases c with
  | error e => rw [State.complete_error, State.fail_read_obuf]; rfl
  | ok r =>
    rw [State.complete_ok, State.publish_read_obuf, State.publish_outLen, BitVec.toNat_ofNat, Nat.mod_eq_of_lt (h r rfl)]
    exact Bool.eq_iff_iff.2 (by simp)

/-! The bus. -/

/-- The word offset `off` addresses the location `l` (R60, R67). -/
def Mapped (p : Params) (off : Nat) (l : Location) : Prop := off % 4 = 0 ∧ locate p off = some l

/-- A mapped IBUF word lies inside IBUF, and so below OBUF. -/
theorem Mapped.ibuf_within {p : Params} (hp : p.wellFormed = true) {off i : Nat} (h : Mapped p off (.ibuf i)) :
    i + 3 < p.ibufSize ∧ ibufBase + i + 4 ≤ obufBase := by
  obtain ⟨⟨hmod, -, hmax⟩, -⟩ := Params.wellFormed_iff.1 hp
  obtain ⟨-, hi, -⟩ := locate_ibuf hmod h.1 h.2
  exact ⟨hi, by unfold ibufBase obufBase; omega⟩

/-- What the completion of the command in flight can compute: the outcome of the command that CMD names, or InvalidCommand
(R93, R94). -/
def InFlightOutcome (s : State) (c : Except Raised Result) : Prop :=
  (∃ i, decode s.cmd = .ok i ∧ c = outcomeOf i s) ∨ c = .error { kind := .invalidCommand }

/-- A property that holds on through everything a step is made of: the completion, the writes of each kind of location, reset,
and the bookkeeping of the bus. -/
structure StepInvariant (P : State → Prop) : Prop where
  answer : ∀ s r, P s → P (s.answer r)
  consume : ∀ s rest, P s → P (s.consume rest)
  again : ∀ s e, P s → P (s.again e)
  releaseReset : ∀ s, P s → P s.releaseReset
  assertReset : ∀ s, P s → P s.assertReset
  complete : ∀ s c, s.status.busy = true → InFlightOutcome s c → P s → P (s.complete c)
  ignoreWrite : ∀ s, s.status.busy = true → P s → P s.ignoreWrite
  accept : ∀ s w, s.inReset = false → P s → P (s.accept w)
  setInLen : ∀ s w, P s → P (s.setInLen w)
  setArg : ∀ s n v, P s → P (s.setArg n v)
  writeIbuf : ∀ s i w, (∃ off, Mapped s.params off (.ibuf i)) → P s → P (s.writeIbuf i w)

namespace StepInvariant

variable {P : State → Prop} {s t : State}

theorem writeLocation (hP : StepInvariant P) (hr : s.inReset = false) {off : Nat} {l : Location}
    (hl : Mapped s.params off l) (w : Word) (h : P s) : P (s.writeLocation l w) := by
  rcases s.writeLocation_cases l w with hw | ⟨hb, hw⟩ | ⟨-, -, hw⟩ | ⟨-, -, hw⟩ | ⟨-, n, hi, -, hw⟩ | ⟨-, i, rfl, hw⟩
  all_goals rw [hw]
  · exact h
  · exact hP.ignoreWrite s hb h
  · exact hP.accept s w hr h
  · exact hP.setInLen s w h
  · exact hP.setArg s n _ h
  · exact hP.writeIbuf s i w ⟨off, hl⟩ h

theorem transact (hP : StepInvariant P) (hr : s.inReset = false) (x : Transaction) (h : P s) : P (s.transact x) := by
  rcases s.transact_cases x with ⟨r, hx⟩ | ⟨l, w, -, halign, hloc, hx⟩
  all_goals rw [hx]
  · exact hP.answer s r h
  · exact hP.answer _ _ (hP.writeLocation hr ⟨halign, hloc⟩ w h)

theorem serve (hP : StepInvariant P) {e : HostEvent} {rest : List HostEvent} (h : P s) (hs : s.serve e rest = .next t) :
    P t := by
  have hc := hP.consume s rest h
  rcases State.serve_cases hs with ⟨hr, x, rfl⟩ | ⟨hr, -, rfl⟩ | rfl | rfl
  · exact hP.transact (s := s.consume rest) hr x hc
  · exact hP.again _ _ (hP.transact (s := s.consume rest) hr _ hc)
  · exact hP.assertReset _ hc
  · exact hP.releaseReset _ hc

/-- Such a property is kept by every step. -/
theorem step (hP : StepInvariant P) (h : P s) (hs : step s = .next t) : P t := by
  rcases step_cases s with ⟨hdue, c, hc, hout⟩ | ⟨-, -, hc⟩ | ⟨-, e, rest, -, hc⟩
  all_goals rw [hc] at hs
  · cases hs
    exact hP.complete s c (Bool.and_eq_true_iff.1 hdue).1 hout h
  · cases hs; exact h
  · exact hP.serve h hs

end StepInvariant

/-! Canonical memory (log entry 2). -/

theorem memoryCanonical_stepInvariant : StepInvariant (fun s => s.mem.wf) where
  answer _ _ h := h
  consume _ _ h := h
  again _ _ h := h
  releaseReset _ h := h
  assertReset _ _ := List.Pairwise.nil
  complete _ c _ _ h := State.complete_mem_wf c h
  ignoreWrite _ _ h := h
  accept _ _ _ h := h
  setInLen _ _ h := h
  setArg s n v h := by rwa [State.setArg_mem]
  writeIbuf _ _ w _ h := Memory.writeBytes_wf (bytesOfWord w) _ h

/-- Settles O7: bytes are written in order and forgotten by a filter; nothing else touches the memory. -/
theorem stepKeepsMemoryCanonical : Obligations.StepKeepsMemoryCanonical :=
  fun _ _ h hs => memoryCanonical_stepInvariant.step h hs

/-! STATUS (R23). -/

/-- The fields of a command word that decodes are those of the command (R90, R92). -/
theorem commandOf_eq_ok {opc sub : Nat} {i : Instr} (h : commandOf opc sub = .ok i) :
    opc = i.opc.toNat ∧ sub = i.sub.toNat := by
  unfold commandOf at h
  split at h
  all_goals cases h
  all_goals exact ⟨rfl, rfl⟩

/-- A word that decodes is the encoding of its command: it has no further bits (R90). -/
theorem encode_of_decode {w : Word} {i : Instr} (h : decode w = .ok i) : encode i = w := by
  unfold decode at h
  split_ifs at h with hrsv
  obtain ⟨hopc, hsub⟩ := commandOf_eq_ok h
  rw [encode, ← BitVec.eq_of_toNat_eq hopc, ← BitVec.eq_of_toNat_eq hsub, ← hrsv, rsvField, subField, opcField]
  ext k hk
  simp only [BitVec.getElem_append, BitVec.getElem_extractLsb']
  rw [← BitVec.getLsbD_eq_getElem hk]
  split_ifs
  all_goals congr 1; omega

theorem ErrorKind.code_ne_zero (k : ErrorKind) : k.code ≠ 0 := by cases k <;> decide

/-- An error completion leaves a legal STATUS. -/
theorem State.fail_statusInv {s : State} (hr : s.inReset = false) (e : Raised) : StatusInv (s.fail e) := by
  have hcode : (e.kind.code != 0) = true := bne_iff_ne.2 e.kind.code_ne_zero
  refine ⟨rfl, ⟨fun _ => ⟨rfl, e.kind.code_ne_zero⟩, fun _ => hcode⟩, rfl, ?_, fun h => ?_⟩
  · rintro (h | h) <;> cases h
  · rw [State.fail_inReset, hr] at h; cases h

/-- A completion with a result leaves a legal STATUS, where its warnings are CLK.SOLVE's. -/
theorem State.publish_statusInv {s : State} (hr : s.inReset = false) {r : Result} (hw : (r.ovf && r.unf) = false)
    (hcmd : r.ovf = true ∨ r.unf = true → s.cmd = 0x00000006) : StatusInv (s.publish r) := by
  refine ⟨rfl, ⟨fun h => ?_, fun h => absurd rfl h.2⟩, hw, fun h => ⟨rfl, rfl, hcmd h⟩, fun h => ?_⟩
  · cases h
  · rw [State.publish_inReset, hr] at h; cases h

theorem StatusInv.not_inReset {s : State} (h : StatusInv s) (hb : s.status.busy = true) : s.inReset = false := by
  obtain ⟨-, -, -, -, hreset⟩ := h
  by_contra hr
  rw [hreset (by simpa using hr)] at hb
  cases hb

theorem statusInv_stepInvariant : StepInvariant StatusInv where
  answer _ _ h := h
  consume _ _ h := h
  again _ _ h := h
  releaseReset _ h := by
    obtain ⟨hbd, herr, hw, hsolve, -⟩ := h
    exact ⟨hbd, herr, hw, hsolve, fun hr => Bool.noConfusion hr⟩
  assertReset s _ := ⟨rfl, by simp [State.assertReset, State.reset, Status.reset], rfl,
    by simp [State.assertReset, State.reset, Status.reset], fun _ => rfl⟩
  complete s c hb hc h := by
    have hr := h.not_inReset hb
    rcases hc with ⟨i, hi, rfl⟩ | rfl
    · cases ho : outcomeOf i s with
      | error e => exact State.fail_statusInv hr e
      | ok r =>
        obtain ⟨hw, hsolve⟩ := outcomeOf_warnings ho
        refine State.publish_statusInv hr hw fun hwarn => ?_
        rw [← encode_of_decode hi, hsolve hwarn]; rfl
    · exact State.fail_statusInv hr _
  ignoreWrite s hb h := by
    obtain ⟨hbd, herr, hw, hsolve, -⟩ := id h
    exact ⟨hbd, herr, hw, hsolve, fun hr => absurd ((h.not_inReset hb).symm.trans hr) Bool.false_ne_true⟩
  accept s w hr _ := ⟨rfl, by simp [Status.accepted], rfl, by simp [Status.accepted], fun h => by simp [hr] at h⟩
  setInLen _ _ h := h
  setArg s n v h := by simpa [StatusInv] using h
  writeIbuf _ _ _ _ h := h

/-- Settles O8: only a completion sets DONE, ERR and the warnings, and a warning comes of CLK.SOLVE, which is the one word 6. -/
theorem stepKeepsStatusLegal : Obligations.StepKeepsStatusLegal := fun _ _ h hs => statusInv_stepInvariant.step h hs

/-! The output and the written bytes (R32, R41, R60). -/

theorem InFlightOutcome.out_fits {s : State} (hp : s.params.wellFormed = true) {r : Result}
    (h : InFlightOutcome s (.ok r)) : r.out.length ≤ s.params.obufSize := by
  rcases h with ⟨i, -, ho⟩ | h
  · exact outcomeOf_out_fits hp ho.symm
  · cases h

/-- Where an output fits OBUF, OUT_LEN can hold its length (R6). -/
theorem lt_two_pow_of_le_obufSize {p : Params} (hp : p.wellFormed = true) {n : Nat} (h : n ≤ p.obufSize) : n < 2 ^ 32 := by
  have := Params.wellFormed_iff.1 hp
  omega

theorem InBuffers.forgetFrom {p : Params} {m : Memory} (h : InBuffers p m) (lo : Nat) : InBuffers p (m.forgetFrom lo) :=
  fun c hc => h c (Memory.mem_of_mem_forgetFrom hc)

theorem State.complete_outputInv {s : State} {c : Except Raised Result} (h : OutputInv s)
    (hfit : ∀ r, c = .ok r → r.out.length ≤ s.params.obufSize) : OutputInv (s.complete c) := by
  obtain ⟨hp, -, hmem⟩ := h
  cases c with
  | error e => exact ⟨hp, Nat.zero_le _, hmem.forgetFrom obufBase⟩
  | ok r =>
    have hle := hfit r rfl
    refine ⟨hp, ?_, fun c hc => ?_⟩
    · rw [State.complete_ok, State.publish_outLen, BitVec.toNat_ofNat]
      exact (Nat.mod_le _ _).trans hle
    · rcases Memory.mem_writeBytes hc with hold | ⟨hlow, hhigh⟩
      · exact hmem.forgetFrom obufBase c hold
      · exact .inr ⟨hlow, hhigh.trans_le (Nat.add_le_add_left hle _)⟩

theorem outputInv_stepInvariant : StepInvariant OutputInv where
  answer _ _ h := h
  consume _ _ h := h
  again _ _ h := h
  releaseReset _ h := h
  assertReset _ h := ⟨h.1, Nat.zero_le _, fun _ hc => absurd hc List.not_mem_nil⟩
  complete _ _ _ hc h := State.complete_outputInv h fun _ hr => InFlightOutcome.out_fits h.1 (hr ▸ hc)
  ignoreWrite _ _ h := h
  accept _ _ _ h := h
  setInLen _ _ h := h
  setArg _ _ _ h := by simpa [OutputInv] using h
  writeIbuf s i w hi h := by
    obtain ⟨hp, hlen, hmem⟩ := h
    obtain ⟨off, hoff⟩ := hi
    obtain ⟨hin, -⟩ := hoff.ibuf_within hp
    refine ⟨hp, hlen, fun c hc => ?_⟩
    rcases Memory.mem_writeBytes hc with hold | ⟨hlow, hhigh⟩
    · exact hmem c hold
    · have hfour : (bytesOfWord w).length = 4 := rfl
      exact .inl ⟨by omega, by rw [State.writeIbuf_params]; omega⟩

/-- Settles O9: every output fits OBUF (`outcomeOf_out_fits`), and a mapped IBUF word lies inside IBUF. -/
theorem stepKeepsOutputWithinBuffer : Obligations.StepKeepsOutputWithinBuffer :=
  fun _ _ h hs => outputInv_stepInvariant.step h hs

/-- A write of an IBUF word is seen by no read from OBUF on. -/
theorem State.writeIbuf_read_obuf {s : State} (hp : s.params.wellFormed = true) {off i : Nat}
    (hi : Mapped s.params off (.ibuf i)) (w : Word) (k : Nat) :
    (s.writeIbuf i w).mem.read? (obufBase + k) = s.mem.read? (obufBase + k) := by
  obtain ⟨-, hbelow⟩ := hi.ibuf_within hp
  have hfour : (bytesOfWord w).length = 4 := rfl
  rw [State.writeIbuf_mem, Memory.read?_writeBytes, if_neg (by omega)]

theorem outputListedInv_stepInvariant : StepInvariant (fun s => OutputInv s ∧ OutputListedInv s) where
  answer _ _ h := h
  consume _ _ h := h
  again _ _ h := h
  releaseReset _ h := h
  assertReset s h := ⟨outputInv_stepInvariant.assertReset s h.1, h.1.1, fun hd => Bool.noConfusion hd⟩
  complete s c hb hc h := by
    obtain ⟨hout, hp, -⟩ := h
    refine ⟨outputInv_stepInvariant.complete s c hb hc hout, by rwa [State.complete_params], fun _ => ?_⟩
    exact State.complete_read_obuf_isSome fun r hr => lt_two_pow_of_le_obufSize hp (InFlightOutcome.out_fits hp (hr ▸ hc))
  ignoreWrite _ _ h := h
  accept _ _ _ h := ⟨h.1, h.2.1, fun hd => Bool.noConfusion hd⟩
  setInLen _ _ h := h
  setArg s n v h := by simpa [OutputInv, OutputListedInv] using h
  writeIbuf s i w hi h := by
    obtain ⟨hout, hp, hlisted⟩ := h
    obtain ⟨off, hoff⟩ := id hi
    refine ⟨outputInv_stepInvariant.writeIbuf s i w hi hout, hp, fun hd k => ?_⟩
    rw [State.writeIbuf_read_obuf hp hoff]
    exact hlisted hd k

/-- Settles O10: a completion lists the output and nothing above it; writes stay below OBUF; acceptance and reset clear DONE. -/
theorem stepKeepsOutputExact : Obligations.StepKeepsOutputExact :=
  fun _ _ hout h hs => (outputListedInv_stepInvariant.step ⟨hout, h⟩ hs).2

/-! Operands while busy (R62, R71). -/

theorem State.complete_ibByte (s : State) (c : Except Raised Result) {i : Nat} (h : ibufBase + i < obufBase) :
    (s.complete c).ibByte i = s.ibByte i := by
  rw [State.ibByte, State.complete_read_below s c h, State.complete_epoch]; rfl

theorem State.complete_sameOperands {s : State} (hp : s.params.wellFormed = true) (c : Except Raised Result) :
    SameOperands s (s.complete c) where
  cmd := s.complete_cmd c
  inLen := s.complete_inLen c
  arg0 := s.complete_arg0 c
  arg1 := s.complete_arg1 c
  arg2 := s.complete_arg2 c
  ibuf i hi := by
    obtain ⟨⟨-, -, hmax⟩, -⟩ := Params.wellFormed_iff.1 hp
    exact State.complete_ibByte s c (by unfold ibufBase obufBase; omega)

/-- A busy transaction answers, and beside that at most sets IGN. -/
theorem State.transact_of_busy {s : State} (hb : s.status.busy = true) (x : Transaction) :
    ∃ r, s.transact x = s.answer r ∨ s.transact x = s.ignoreWrite.answer r := by
  rcases s.transact_cases x with ⟨r, hx⟩ | ⟨l, w, -, -, -, hx⟩
  · exact ⟨r, .inl hx⟩
  · refine ⟨.okay, ?_⟩
    rcases s.writeLocation_cases l w with hw | ⟨-, hw⟩ | ⟨hi, -⟩ | ⟨hi, -⟩ | ⟨hi, -⟩ | ⟨hi, -⟩
    · exact .inl (by rw [hx, hw])
    · exact .inr (by rw [hx, hw])
    all_goals exact absurd (hi.symm.trans hb) Bool.false_ne_true

theorem State.serve_sameOperands {s t : State} {e : HostEvent} {rest : List HostEvent} (hb : s.status.busy = true)
    (h : s.serve e rest = .next t) (hr : t.inReset = false) : SameOperands s t := by
  have hbusy : (s.consume rest).status.busy = true := hb
  rcases State.serve_cases h with ⟨-, x, rfl⟩ | ⟨-, -, rfl⟩ | rfl | rfl
  · obtain ⟨r, hx | hx⟩ := State.transact_of_busy hbusy x
    all_goals rw [hx]
    all_goals exact ⟨rfl, rfl, rfl, rfl, rfl, fun _ _ => rfl⟩
  · obtain ⟨r, hx | hx⟩ := State.transact_of_busy hbusy statusRead
    all_goals rw [hx]
    all_goals exact ⟨rfl, rfl, rfl, rfl, rfl, fun _ _ => rfl⟩
  · cases hr
  · exact ⟨rfl, rfl, rfl, rfl, rfl, fun _ _ => rfl⟩

/-- Settles O14: a completion writes results and OBUF only, and while busy the bus answers and at most sets IGN. -/
theorem operandsAreFixedWhileBusy : Obligations.OperandsAreFixedWhileBusy := by
  intro s t hp hb hs hr
  rcases step_cases s with ⟨-, c, hc, -⟩ | ⟨-, -, hc⟩ | ⟨-, e, rest, -, hc⟩
  all_goals rw [hc] at hs
  · cases hs; exact State.complete_sameOperands hp c
  · cases hs; exact ⟨rfl, rfl, rfl, rfl, rfl, fun _ _ => rfl⟩
  · exact State.serve_sameOperands hb hs hr

end Sys2Proof.Machine

/-! ### The step and the bus -/

namespace Sys2Proof.Machine

theorem State.completesNow_iff {s : State} :
    s.completesNow = true ↔ s.status.busy = true ∧ (s.wait = 0 ∨ s.pending = []) := by
  simp [State.completesNow]

theorem step_of_due {s : State} {i : Instr} (h : s.completesNow = true) (hi : decode s.cmd = .ok i) : step s = exec i s := by
  rw [step, if_pos h, State.runInFlight, State.inFlight, hi]

theorem step_of_not_due {s : State} (h : ¬ s.completesNow = true) : step s = s.hostStep := if_neg h

theorem ServesNext.step_eq {s : State} {e : HostEvent} {rest : List HostEvent} (h : ServesNext s e rest) :
    step s = s.serve e rest := by
  have hdue : ¬ s.completesNow = true := by
    rw [State.completesNow_iff, h.pending]
    rintro ⟨hb, hw | hp⟩
    · exact h.notDue hb hw
    · cases hp
  rw [step_of_not_due hdue, State.hostStep, h.pending]

/-- Settles O4: the two branches of `step`, and the two of the host's queue. -/
theorem stepRunsTheCommandInFlight : Obligations.StepRunsTheCommandInFlight := by
  refine ⟨fun s i hb hdue hi => step_of_due (State.completesNow_iff.2 ⟨hb, hdue⟩) hi, fun s hb hp => ?_,
    fun s e rest h => h.step_eq⟩
  rw [step_of_not_due (by simp [State.completesNow_iff, hb]), State.hostStep, hp]

/-! Where an offset leads (R21, R60). -/

theorem registerMap_lookup : ∀ row ∈ registerMap,
    row.1 % 4 = 0 ∧ row.1 < ibufBase ∧ registerMap.lookup row.1 = some row.2 := by decide

theorem mapped_register (p : Params) {off : Nat} {l : Location} (h : (off, l) ∈ registerMap) : Mapped p off l := by
  obtain ⟨halign, hlt, hlookup⟩ := registerMap_lookup _ h
  exact ⟨halign, by rw [locate, if_pos hlt]; exact hlookup⟩

theorem mapped_ibuf {p : Params} (hp : p.wellFormed = true) {i : Nat} (halign : i % 4 = 0) (hi : i < p.ibufSize) :
    Mapped p (0x10000 + i) (.ibuf i) := by
  obtain ⟨⟨-, -, hmax⟩, -⟩ := Params.wellFormed_iff.1 hp
  refine ⟨by omega, ?_⟩
  unfold locate ibufBase obufBase
  rw [if_neg (by omega), if_pos (by omega), Nat.add_sub_cancel_left, if_pos hi]

theorem mapped_obuf {p : Params} {off : Nat} (halign : off % 4 = 0) (hlow : 0x20000 ≤ off)
    (hhigh : off < 0x20000 + p.obufSize) : Mapped p off (.obuf (off - 0x20000)) := by
  refine ⟨halign, ?_⟩
  unfold locate ibufBase obufBase
  rw [if_neg (by omega), if_neg (by omega), if_pos (by omega)]

/-- The window offset of an IBUF byte, as a number (R40, R60). -/
theorem ibufOffset_toNat {p : Params} (hp : p.wellFormed = true) {i : Nat} (hi : i < p.ibufSize) :
    (BitVec.ofNat 18 (0x10000 + i)).toNat = 0x10000 + i := by
  obtain ⟨⟨-, -, hmax⟩, -⟩ := Params.wellFormed_iff.1 hp
  rw [BitVec.toNat_ofNat]
  omega

theorem argOffset_mem_registerMap : ∀ (n : Fin 3) (hi : Bool), ((argOffset n hi).toNat, Location.arg n hi) ∈ registerMap := by
  decide

/-! A load and a store of a mapped word (R61). -/

theorem State.transact_read {s : State} {off : Offset} {l : Location} (h : Mapped s.params off.toNat l) :
    s.transact { access := .read, offset := off } = s.answer (.okayData (s.readLocation l)) := by
  rw [State.transact, if_neg (by simp [h.1]), h.2]

theorem State.transact_write {s : State} {off : Offset} {l : Location} (h : Mapped s.params off.toNat l) (w : Word) :
    s.transact { access := .write w, offset := off } = (s.writeLocation l w).answer .okay := by
  rw [State.transact, if_neg (by simp [h.1]), h.2]

section

variable {s : State} {off : Offset} {l : Location} {w : Word} {rest : List HostEvent}

theorem step_load (h : ServesNext s (loadEvent off) rest) (hl : Mapped s.params off.toNat l) :
    step s = .next ((s.consume rest).answer (.okayData ((s.consume rest).readLocation l))) := by
  rw [h.step_eq, loadEvent, State.serve, h.running, ← State.transact_read (s := s.consume rest) hl]
  rfl

theorem step_store (h : ServesNext s (storeEvent off w) rest) (hl : Mapped s.params off.toNat l) :
    step s = .next (((s.consume rest).writeLocation l w).answer .okay) := by
  rw [h.step_eq, storeEvent, State.serve, h.running, ← State.transact_write (s := s.consume rest) hl]
  rfl

/-! What an idle write does at each writable location (R22, R30, R33, R40). -/

theorem State.writeLocation_cmd (h : s.status.busy = false) : s.writeLocation .cmd w = s.accept w := by
  simp [State.writeLocation, readOnly, h]

theorem State.writeLocation_inLen (h : s.status.busy = false) : s.writeLocation .inLen w = s.setInLen w := by
  simp [State.writeLocation, readOnly, h]

theorem State.writeLocation_arg (h : s.status.busy = false) (n : Fin 3) (hi : Bool) :
    s.writeLocation (.arg n hi) w = s.setArg n (withHalf (s.arg n) hi w) := by
  simp [State.writeLocation, readOnly, h]

theorem State.writeLocation_ibuf (h : s.status.busy = false) (i : Nat) :
    s.writeLocation (.ibuf i) w = s.writeIbuf i w := by
  simp [State.writeLocation, readOnly, h]

end

theorem Status.accepted_word : Status.accepted.word = 0x00000001 := by decide

/-- Settles O19: the write is `accept`, which writes CMD, STATUS and the schedule. -/
theorem cmdWriteWhileIdleIsAccepted : Obligations.CmdWriteWhileIdleIsAccepted := by
  intro s w rest h hb
  have hl : Mapped s.params (0x000 : Offset).toNat .cmd := mapped_register _ (by decide)
  have hw : (s.consume rest).writeLocation .cmd w = (s.consume rest).accept w := State.writeLocation_cmd hb
  refine ⟨((s.consume rest).accept w).answer .okay, by rw [step_store h hl, hw], rfl, Status.accepted_word, rfl,
    rfl, rfl, rfl, rfl, rfl, rfl, fun _ => rfl, rfl, h.running, rfl, ?_⟩
  exact ⟨rfl, rfl, rfl, rfl, rfl, rfl, rfl, rfl, fun _ _ => rfl⟩

/-! Halves of a 64-bit register (R37, R66). -/

theorem withHalf_written (v : DWord) (hi : Bool) (w : Word) :
    (withHalf v hi w).extractLsb' (if hi then 32 else 0) 32 = w := by
  cases hi
  · exact BitVec.extractLsb'_append_eq_right
  · exact BitVec.extractLsb'_append_eq_left

theorem withHalf_kept (v : DWord) (hi : Bool) (w : Word) :
    (withHalf v hi w).extractLsb' (if hi then 0 else 32) 32 = v.extractLsb' (if hi then 0 else 32) 32 := by
  cases hi
  · exact BitVec.extractLsb'_append_eq_left
  · exact BitVec.extractLsb'_append_eq_right

theorem State.setArg_answer (s : State) (n : Fin 3) (v : DWord) (r : Response) :
    (s.setArg n v).answer r = (s.answer r).setArg n v := by
  unfold State.setArg
  split_ifs <;> rfl

theorem State.answer_arg (s : State) (n : Fin 3) (r : Response) : (s.answer r).arg n = s.arg n := rfl

/-- Settles O20: the writes are `setInLen` and `setArg` of the register with one half replaced. -/
theorem operandWritesTakeEffect : Obligations.OperandWritesTakeEffect := by
  refine ⟨fun s w rest h hb => ?_, fun s n hi w rest h hb => ?_⟩
  · have hl : Mapped s.params (0x008 : Offset).toNat .inLen := mapped_register _ (by decide)
    rw [step_store h hl, State.writeLocation_inLen (s := s.consume rest) hb]
    rfl
  · have hl : Mapped s.params (argOffset n hi).toNat (.arg n hi) := mapped_register _ (argOffset_mem_registerMap n hi)
    have hw := State.writeLocation_arg (s := s.consume rest) (w := w) hb n hi
    refine ⟨_, step_store h hl, ?_, ?_, ?_⟩
    · rw [hw, State.answer_arg, State.setArg_arg, State.setArg_answer]
    · rw [hw, State.answer_arg, State.setArg_arg, withHalf_written]
    · rw [hw, State.answer_arg, State.setArg_arg, withHalf_kept]; rfl

/-! The bytes of a word (R65). -/

theorem bytesOfWord_getElem? (w : Word) {k : Nat} (hk : k < 4) : (bytesOfWord w)[k]? = some (w.extractLsb' (8 * k) 8) := by
  interval_cases k <;> rfl

theorem wordOfBytes_lane (f : Nat → Byte) {k : Nat} (hk : k < 4) :
    (wordOfBytes (f 0) (f 1) (f 2) (f 3)).extractLsb' (8 * k) 8 = f k := by
  change (f 3 ++ f 2 ++ f 1 ++ f 0 : BitVec (8 + 8 + 8 + 8)).extractLsb' (8 * k) 8 = f k
  interval_cases k
  all_goals simp only [BitVec.extractLsb'_append_eq_ite]
  all_goals simp

theorem State.writeIbuf_ibByte (s : State) (i : Nat) (w : Word) {k : Nat} (hk : k < 4) :
    (s.writeIbuf i w).ibByte (i + k) = w.extractLsb' (8 * k) 8 := by
  have hfour : (bytesOfWord w).length = 4 := rfl
  rw [State.ibByte, State.writeIbuf_mem, Memory.read?_writeBytes, if_pos (by omega),
    show ibufBase + (i + k) - (ibufBase + i) = k by omega, bytesOfWord_getElem? w hk]

theorem State.ibWord_lane (s : State) (i : Nat) {k : Nat} (hk : k < 4) :
    (s.ibWord i).extractLsb' (8 * k) 8 = s.ibByte (i + k) := wordOfBytes_lane (fun j => s.ibByte (i + j)) hk

/-- Settles O21: the write is `writeIbuf`, four bytes at rising offsets. -/
theorem ibufWritesAreLittleEndian : Obligations.IbufWritesAreLittleEndian := by
  intro s i w rest hp halign hi h hb
  have hl := mapped_ibuf hp halign hi
  rw [← ibufOffset_toNat hp hi] at hl
  have hw : (s.consume rest).writeLocation (.ibuf i) w = (s.consume rest).writeIbuf i w :=
    State.writeLocation_ibuf (s := s.consume rest) hb i
  refine ⟨_, step_store h hl, ?_, fun k hk => ?_, fun off hoff => ?_⟩
  all_goals rw [hw]
  · rfl
  · exact State.writeIbuf_ibByte (s.consume rest) i w hk
  · have hfour : (bytesOfWord w).length = 4 := rfl
    rw [State.answer_mem, State.writeIbuf_mem, Memory.read?_writeBytes, if_neg (by rw [hfour]; exact hoff)]
    rfl

/-! Reads of the registers (R36, R72). -/

/-- What an idle read of a register word returns: its value. -/
theorem State.registerMap_values {s : State} (hb : s.status.busy = false) :
    registerMap.map (fun row => (row.1, s.readLocation row.2)) =
      [(0x000, s.cmd), (0x004, s.status.word), (0x008, s.inLen), (0x00C, s.errPos), (0x010, s.errLen), (0x014, s.outLen),
       (0x020, s.arg0.extractLsb' 0 32), (0x024, s.arg0.extractLsb' 32 32), (0x028, s.arg1.extractLsb' 0 32),
       (0x02C, s.arg1.extractLsb' 32 32), (0x030, s.arg2.extractLsb' 0 32), (0x034, s.arg2.extractLsb' 32 32),
       (0x040, s.res0.extractLsb' 0 32), (0x044, s.res0.extractLsb' 32 32), (0x048, s.res1.extractLsb' 0 32),
       (0x04C, s.res1.extractLsb' 32 32), (0x050, s.res2.extractLsb' 0 32), (0x054, s.res2.extractLsb' 32 32),
       (0x058, s.res3.extractLsb' 0 32), (0x05C, s.res3.extractLsb' 32 32), (0x060, s.res4.extractLsb' 0 32),
       (0x064, s.res4.extractLsb' 32 32)] := by
  simp [registerMap, State.readLocation, State.whenIdle, hb, State.arg, State.res, halfOf]

/-- Settles O22: the list is the register map with what a read of each location returns. -/
theorem idleReadsReturnTheRegisters : Obligations.IdleReadsReturnTheRegisters := by
  intro s off v rest h hb hmem
  have hvalues := State.registerMap_values (s := s.consume rest) hb
  obtain ⟨⟨o, l⟩, hrow, heq⟩ := List.mem_map.1 (hvalues ▸ hmem)
  obtain ⟨rfl, rfl⟩ := Prod.mk.inj heq
  exact step_load h (mapped_register _ hrow)

/-- What a read of CMD, STATUS or an operand word returns, busy or idle: its value. -/
theorem State.operandMap_values (s : State) :
    (registerMap.take 3 ++ (registerMap.drop 6).take 6).map (fun row => (row.1, s.readLocation row.2)) =
      [(0x000, s.cmd), (0x004, s.status.word), (0x008, s.inLen),
       (0x020, s.arg0.extractLsb' 0 32), (0x024, s.arg0.extractLsb' 32 32), (0x028, s.arg1.extractLsb' 0 32),
       (0x02C, s.arg1.extractLsb' 32 32), (0x030, s.arg2.extractLsb' 0 32), (0x034, s.arg2.extractLsb' 32 32)] := rfl

theorem operandMap_subset : ∀ row ∈ registerMap.take 3 ++ (registerMap.drop 6).take 6, row ∈ registerMap := by decide

theorem resultOffsets_mapped : ∀ off ∈ [0x00C, 0x010, 0x014, 0x040, 0x044, 0x048, 0x04C, 0x050, 0x054, 0x058, 0x05C, 0x060,
    0x064], ∃ row ∈ registerMap, row.1 = off := by decide

/-- Settles O24: each offset is mapped, and a mapped read answers with what `readLocation` gives. -/
theorem busyReadsAreAnswered : Obligations.BusyReadsAreAnswered := by
  refine ⟨fun s off v rest h _ hmem => ?_, fun s i rest hp halign hi h _ => ?_, fun s off rest h _ hoff => ?_⟩
  · obtain ⟨⟨o, l⟩, hrow, heq⟩ := List.mem_map.1 (State.operandMap_values (s.consume rest) ▸ hmem)
    obtain ⟨rfl, rfl⟩ := Prod.mk.inj heq
    exact step_load h (mapped_register _ (operandMap_subset _ hrow))
  · have hl := mapped_ibuf hp halign hi
    rw [← ibufOffset_toNat hp hi] at hl
    exact ⟨_, step_load h hl, fun k hk => State.ibWord_lane (s.consume rest) i hk⟩
  · rcases hoff with hreg | ⟨halign, hlow, hhigh⟩
    · obtain ⟨⟨o, l⟩, hrow, rfl⟩ := resultOffsets_mapped _ hreg
      exact ⟨_, step_load h (mapped_register _ hrow)⟩
    · exact ⟨_, step_load h (mapped_obuf halign hlow hhigh)⟩

end Sys2Proof.Machine

/-! ### Completions of every command -/

namespace Sys2Proof.Machine

theorem outcomeOf_out_lt {i : Instr} {s : State} (hp : s.params.wellFormed = true) :
    ∀ r, outcomeOf i s = .ok r → r.out.length < 2 ^ 32 :=
  fun _ h => lt_two_pow_of_le_obufSize hp (outcomeOf_out_fits hp h)

theorem Memory.read?_eq_none_of_listed {m : Memory} {n : Nat}
    (h : ∀ i, (m.read? (obufBase + i)).isSome = decide (i < n)) {off : Nat} (hoff : obufBase + n ≤ off) :
    m.read? off = none := by
  obtain ⟨i, rfl⟩ := Nat.exists_eq_add_of_le ((Nat.le_add_right _ _).trans hoff)
  simpa [show ¬ i < n by omega] using h i

/-- Settles O27: every command is one completion (`exec_eq_complete`), with the frame of `State.complete`. -/
theorem everyCommandCompletesWithThisFrame : Obligations.EveryCommandCompletesWithThisFrame := by
  intro i s hp
  refine ⟨_, exec_eq_complete i s, ?_⟩
  have hlisted := State.complete_read_obuf_isSome (s := s) (outcomeOf_out_lt (i := i) hp)
  generalize outcomeOf i s = c at hlisted ⊢
  exact ⟨s.complete_status_busy c, s.complete_status_done c, s.complete_status_ign c, s.complete_cmd c, s.complete_inLen c,
    s.complete_arg0 c, s.complete_arg1 c, s.complete_arg2 c, s.complete_params c, s.complete_inReset c, s.complete_pending c,
    s.complete_latencies c, s.complete_response c, s.complete_wait c, s.complete_draws c, s.complete_epoch c,
    fun _ => State.complete_read_below s c, fun _ => Memory.read?_eq_none_of_listed hlisted⟩

/-! Which errors locate a token (R31, R274). -/

/-- A computation whose errors report no token. -/
def Unlocated {α : Type} (x : Except Raised α) : Prop := ∀ e, x = .error e → e.pos = 0 ∧ e.len = 0

@[simp] theorem unlocated_ok {α : Type} (a : α) : Unlocated (.ok a) := fun _ h => nomatch h

@[simp] theorem unlocated_raise {α : Type} (k : ErrorKind) : Unlocated (raise k : Except Raised α) := by
  intro e h; cases h; exact ⟨rfl, rfl⟩

theorem Unlocated.bind {α β : Type} {x : Except Raised α} {f : α → Except Raised β} (hx : Unlocated x)
    (hf : ∀ a, Unlocated (f a)) : Unlocated (x.bind f) := by
  intro e h
  rcases bind_eq_error h with h | ⟨a, -, h⟩
  · exact hx e h
  · exact hf a e h

theorem Unlocated.map {α β : Type} {x : Except Raised α} (hx : Unlocated x) (f : α → β) : Unlocated (x.map f) :=
  fun e h => hx e (map_eq_error h)

theorem State.input_unlocated (s : State) : Unlocated s.input := by
  unfold State.input; split_ifs <;> simp

theorem crc32TextOf_unlocated (bs : List Byte) : Unlocated (crc32TextOf bs) := by
  unfold crc32TextOf; split_ifs <;> simp

theorem crc32HexOf_unlocated (bs : List Byte) : Unlocated (crc32HexOf bs) := by
  unfold crc32HexOf; split_ifs <;> simp

theorem b64DecOf_unlocated (bs : List Byte) : Unlocated (b64DecOf bs) := by
  unfold b64DecOf
  split_ifs
  · simp
  · split
    · simp
    · split_ifs <;> simp

theorem bconvOf_unlocated (q : Radix) (bs : List Byte) : Unlocated (bconvOf q bs) := by
  refine Unlocated.map ?_ _
  unfold bconvValue; split_ifs <;> simp

theorem countToF64_unlocated (n : Nat) : Unlocated (countToF64 n) := by
  unfold countToF64; split_ifs <;> simp

theorem regBytes_unlocated (bs : List Byte) : Unlocated (regBytes bs) := by
  have hrange : ∀ a e, Unlocated (rangeCount a e) := fun a e => by unfold rangeCount; split_ifs <;> simp
  unfold regBytes
  split
  · exact (hrange _ _).bind countToF64_unlocated
  · split
    · exact countToF64_unlocated _
    · split_ifs
      · exact countToF64_unlocated _
      · simp

theorem plainValue_unlocated (bs : List Byte) : Unlocated (plainValue bs) := by
  unfold plainValue
  split
  · simp
  · simp only; split_ifs <;> simp

theorem storOf_unlocated (u : StorUnit) (bs : List Byte) : Unlocated (storOf u bs) := by
  have hunit : ∀ v, Unlocated (if F64.isInf (unitBytes u v) then raise .magnitudeOutOfRange else .ok (unitBytes u v)) :=
    fun v => by split_ifs <;> simp
  have hdeliver : ∀ bytes, Unlocated (storDeliver bytes) := fun bytes => by unfold storDeliver; split_ifs <;> simp
  refine Unlocated.bind ?_ hdeliver
  cases u with
  | register => exact regBytes_unlocated _
  | bit | byte | kb | mb | gb => exact (plainValue_unlocated _).bind hunit

theorem clkSolveOf_unlocated (src tgt duty : DWord) : Unlocated (clkSolveOf src tgt duty) := by
  unfold clkSolveOf; split_ifs <;> simp

theorem clkPureOf_unlocated (u src tgt : DWord) (d : Nat) : Unlocated (clkPureOf u src tgt d) := by
  unfold clkPureOf; split_ifs <;> simp

/-- The loop of XORFOLD ends with InvalidToken or MagnitudeOutOfRange, or with no error. -/
theorem foldTokens_error_kind {ts : List Token} : ∀ {acc : DWord} {e : Raised}, foldTokens acc ts = .error e →
    e.kind = .invalidToken ∨ e.kind = .magnitudeOutOfRange := by
  induction ts with
  | nil => intro acc e h; cases h
  | cons t ts ih =>
    intro acc e h
    unfold foldTokens at h
    split at h
    · cases h; exact .inl rfl
    · split_ifs at h
      · cases h; exact .inr rfl
      · exact ih h

theorem xorFoldOf_error {bs : List Byte} {e : Raised} (h : xorFoldOf bs = .error e) :
    (e.pos = 0 ∧ e.len = 0) ∨ e.kind = .invalidToken ∨ e.kind = .magnitudeOutOfRange := by
  unfold xorFoldOf at h
  split_ifs at h
  · exact .inl (unlocated_raise _ e h)
  · exact .inr (foldTokens_error_kind (map_eq_error h))

/-- Only XORFOLD's InvalidToken and MagnitudeOutOfRange report a token. -/
theorem outcomeOf_error_located {i : Instr} {s : State} {e : Raised} (h : outcomeOf i s = .error e) :
    (e.pos = 0 ∧ e.len = 0) ∨ i = .xorFold ∧ (e.kind = .invalidToken ∨ e.kind = .magnitudeOutOfRange) := by
  have hinput := s.input_unlocated
  cases i <;> simp only [outcomeOf] at h
  case crc32Text => exact .inl (hinput.bind crc32TextOf_unlocated e h)
  case crc32Hex => exact .inl (hinput.bind crc32HexOf_unlocated e h)
  case xorFold =>
    rcases bind_eq_error h with h | ⟨bs, -, h⟩
    · exact .inl (hinput e h)
    · exact (xorFoldOf_error h).imp_right fun hk => ⟨rfl, hk⟩
  case b64Enc => exact .inl (hinput.bind (fun _ => unlocated_ok _) e h)
  case b64Dec => exact .inl (hinput.bind b64DecOf_unlocated e h)
  case bconvR2 | bconvR8 | bconvR10 | bconvR16 => exact .inl (hinput.bind (bconvOf_unlocated _) e h)
  case storReg | storBit | storByte | storKb | storMb | storGb => exact .inl (hinput.bind (storOf_unlocated _) e h)
  case clkSolve => exact .inl (clkSolveOf_unlocated _ _ _ e h)
  case clkPureS | clkPureMs | clkPureUs | clkPureNs => exact .inl (clkPureOf_unlocated _ _ _ _ e h)

/-- Settles O29: `State.fail` publishes nothing, `State.publish` has code 0, and only XORFOLD locates an error. -/
theorem errorCompletionsPublishNothing : Obligations.ErrorCompletionsPublishNothing := by
  intro i s t h
  rw [exec_eq_complete] at h
  cases h
  cases hc : outcomeOf i s with
  | error e =>
    have hne := e.kind.code_ne_zero
    refine ⟨⟨fun _ => hne, fun _ => bne_iff_ne.2 hne⟩, fun _ => ⟨rfl, rfl, rfl, rfl, rfl, rfl, rfl, rfl⟩, fun hplace => ?_,
      fun _ => ⟨rfl, rfl⟩⟩
    rcases outcomeOf_error_located hc with ⟨hpos, hlen⟩ | ⟨rfl, hk | hk⟩
    · exact ⟨by rw [State.complete_error, State.fail_errPos, hpos]; rfl,
        by rw [State.complete_error, State.fail_errLen, hlen]; rfl⟩
    · exact absurd (.inl (congrArg ErrorKind.code hk)) hplace
    · exact absurd (.inr ⟨congrArg ErrorKind.code hk, rfl⟩) hplace
  | ok r =>
    obtain ⟨-, hsolve⟩ := outcomeOf_warnings hc
    have hwarn : i ≠ .clkSolve → r.ovf = false ∧ r.unf = false := fun hi =>
      ⟨Bool.eq_false_iff.2 fun ho => hi (hsolve (.inl ho)), Bool.eq_false_iff.2 fun hu => hi (hsolve (.inr hu))⟩
    exact ⟨⟨fun he => Bool.noConfusion he, fun he => absurd rfl he⟩, fun he => absurd rfl he, fun _ => ⟨rfl, rfl⟩, hwarn⟩

/-! The operands that an outcome depends on (R95). -/

theorem State.input_congr {s t : State} (hsize : t.params.ibufSize = s.params.ibufSize) (hlen : t.inLen = s.inLen)
    (hbytes : ∀ k, k < s.inLen.toNat → k < s.params.ibufSize → t.ibByte k = s.ibByte k) : t.input = s.input := by
  unfold State.input
  rw [hsize, hlen]
  split_ifs with hlong
  · rfl
  · refine congrArg _ ?_
    unfold State.inBytes
    rw [hlen]
    refine List.map_congr_left fun k hk => ?_
    have hk := List.mem_range.1 hk
    exact hbytes k hk (by omega)

theorem outcomeOf_congr {i : Instr} {s t : State} (h : SameOperandsFor i s t) : outcomeOf i t = outcomeOf i s := by
  unfold SameOperandsFor at h
  cases i
  case clkSolve =>
    obtain ⟨h0, h1, h2⟩ := h
    simp only [if_true] at h2
    simp only [outcomeOf, State.src, State.tgt, State.duty, h0, h1, h2]
  case clkPureS | clkPureMs | clkPureUs | clkPureNs =>
    obtain ⟨h0, h1, h2⟩ := h
    have hdiv : t.div = s.div := congrArg BitVec.toNat h2
    simp only [outcomeOf, State.src, State.tgt, h0, h1, hdiv]
  all_goals
    obtain ⟨hsize, hlen, hbytes⟩ := h
    simp only [outcomeOf, State.input_congr hsize hlen hbytes]

/-- The output that a host reads after a completion is a function of the result. -/
theorem State.publish_outBytes_congr (s t : State) (r : Result) : (t.publish r).outBytes = (s.publish r).outBytes := by
  refine List.map_congr_left fun k hk => ?_
  have hk : k < r.out.length := by
    have := List.mem_range.1 hk
    rw [State.publish_outLen, BitVec.toNat_ofNat] at this
    exact this.trans_le (Nat.mod_le _ _)
  simp only [State.obByte, State.publish_read_obuf, List.getElem?_eq_getElem hk]

/-- Settles O31: equal operands give equal outcomes, and a completion publishes its outcome alone. -/
theorem outcomeDependsOnOperandsOnly : Obligations.OutcomeDependsOnOperandsOnly := by
  intro i s t s' t' hsame hs ht
  rw [exec_eq_complete] at hs ht
  cases hs
  cases ht
  rw [outcomeOf_congr hsame]
  cases outcomeOf i s with
  | error e => exact ⟨rfl, rfl, rfl, rfl, rfl, rfl, rfl, rfl, rfl, rfl⟩
  | ok r => exact ⟨rfl, rfl, rfl, rfl, rfl, rfl, rfl, rfl, State.publish_outBytes_congr s t r, rfl⟩

/-! The first bad token of XORFOLD (R134). -/

theorem tokenValue_of_good {t : List Byte} (h : GoodToken t) : ∃ v, tokenValue t = some v ∧ ¬ Config.magMax < v := by
  obtain ⟨v, hv, hle⟩ := h
  exact ⟨v, tokenValue_eq_some.2 hv, Nat.not_lt.2 hle⟩

/-- The loop passes over good tokens. -/
theorem foldTokens_append_of_good {before : List Token} (rest : List Token) (h : ∀ g ∈ before, GoodToken g.text) :
    ∀ acc, ∃ acc', foldTokens acc (before ++ rest) = foldTokens acc' rest := by
  induction before with
  | nil => exact fun acc => ⟨acc, rfl⟩
  | cons g before ih =>
    rw [List.forall_mem_cons] at h
    intro acc
    obtain ⟨v, hv, hle⟩ := tokenValue_of_good h.1
    obtain ⟨acc', hrest⟩ := ih h.2 (acc ^^^ BitVec.ofNat 64 v)
    refine ⟨acc', ?_⟩
    rw [List.cons_append, foldTokens, hv]
    simp only [if_neg hle, hrest]

theorem foldTokens_invalid {k : Token} (h : ∀ v, ¬ Denotes k.text v) (acc : DWord) (after : List Token) :
    foldTokens acc (k :: after) = raiseAt .invalidToken k := by
  rw [foldTokens, tokenValue_eq_none.2 h]

theorem foldTokens_tooLarge {k : Token} {v : Nat} (h : Denotes k.text v) (hv : 2 ^ 64 - 1 < v) (acc : DWord)
    (after : List Token) : foldTokens acc (k :: after) = raiseAt .magnitudeOutOfRange k := by
  rw [foldTokens, tokenValue_eq_some.2 h]
  exact if_pos hv

/-- The outcome of XORFOLD where good tokens come before one at which the loop stops. -/
theorem outcomeOf_xorFold_error {s : State} {before after : List Token} {k : Token} {kind : ErrorKind}
    (hlen : s.inLen.toNat ≤ s.params.ibufSize) (htokens : tokens s.inBytes = before ++ k :: after)
    (hgood : ∀ g ∈ before, GoodToken g.text) (hstop : ∀ acc, foldTokens acc (k :: after) = raiseAt kind k) :
    outcomeOf .xorFold s = .error { kind := kind, pos := k.pos, len := k.text.length } := by
  obtain ⟨acc, hfold⟩ := foldTokens_append_of_good (k :: after) hgood 0
  have hne : tokens s.inBytes ≠ [] := by simp [htokens]
  simp only [outcomeOf, State.input_of_le hlen, Except.bind, xorFoldOf, if_neg hne]
  rw [htokens, hfold, hstop acc]
  rfl

/-- Settles O39: the loop passes over the good tokens and stops at the first other one, with its place and length. -/
theorem xorFoldReportsTheFirstBadToken : Obligations.XorFoldReportsTheFirstBadToken := by
  refine ⟨fun s hlen hnone => ?_, fun s before after k hlen htokens hgood => ⟨fun hbad => ?_, fun v hv hlarge => ?_⟩⟩
  · have ho : outcomeOf .xorFold s = .error { kind := .emptyInput } := by
      simp only [outcomeOf, State.input_of_le hlen, Except.bind, xorFoldOf, if_pos hnone]
      rfl
    exact ⟨_, exec_fails ho⟩
  · exact ⟨_, exec_fails (outcomeOf_xorFold_error hlen htokens hgood fun acc => foldTokens_invalid hbad acc after)⟩
  · exact ⟨_, exec_fails (outcomeOf_xorFold_error hlen htokens hgood fun acc => foldTokens_tooLarge hv hlarge acc after)⟩

end Sys2Proof.Machine

/-! ### The memory map: what a transaction answers and what it leaves alone (20_memory.md) -/

namespace Sys2Proof.Machine

/-! Results between completions (R64, R76, R79): what a host's transaction can write lies outside them. -/

theorem SameResults.refl (s : State) : SameResults s s := ⟨rfl, rfl, rfl, rfl, rfl, rfl, rfl, rfl, fun _ _ => rfl⟩

/-- No write reaches the result registers or OBUF: an IBUF word ends below OBUF, and every other write leaves the memory alone. -/
theorem State.writeLocation_sameResults {s : State} (hp : s.params.wellFormed = true) {off : Nat} {l : Location}
    (hl : Mapped s.params off l) (w : Word) : SameResults s (s.writeLocation l w) := by
  rcases s.writeLocation_cases l w with hw | ⟨-, hw⟩ | ⟨-, -, hw⟩ | ⟨-, -, hw⟩ | ⟨-, n, hi, -, hw⟩ | ⟨-, i, rfl, hw⟩
  all_goals rw [hw]
  · exact SameResults.refl s
  · exact { SameResults.refl s with }
  · exact { SameResults.refl s with }
  · exact { SameResults.refl s with }
  · constructor <;> simp
  · refine { SameResults.refl s with obuf := fun off hoff => ?_ }
    obtain ⟨k, rfl⟩ := Nat.exists_eq_add_of_le hoff
    exact State.writeIbuf_read_obuf hp hl w k

theorem State.transact_sameResults {s : State} (hp : s.params.wellFormed = true) (x : Transaction) :
    SameResults s (s.transact x) := by
  rcases s.transact_cases x with ⟨r, hx⟩ | ⟨l, w, -, halign, hloc, hx⟩
  all_goals rw [hx]
  · exact { SameResults.refl s with }
  · exact { State.writeLocation_sameResults hp ⟨halign, hloc⟩ w with }

theorem State.serve_sameResults {s t : State} {e : HostEvent} {rest : List HostEvent} (hp : s.params.wellFormed = true)
    (h : s.serve e rest = .next t) (hr : t.inReset = false) : SameResults s t := by
  have htransact := State.transact_sameResults (s := s.consume rest) hp
  rcases State.serve_cases h with ⟨-, x, rfl⟩ | ⟨-, -, rfl⟩ | rfl | rfl
  · exact { htransact x with }
  · exact { htransact statusRead with }
  · cases hr
  · exact { SameResults.refl s with }

/-- Settles O13: without a completion a step is nothing or one host event, and beside reset an event writes at most operands,
IBUF words, CMD and STATUS. -/
theorem resultsChangeOnlyByCompletion : Obligations.ResultsChangeOnlyByCompletion := by
  intro s t hp hdue hs hr
  rcases step_cases s with ⟨hdue', -⟩ | ⟨-, -, hc⟩ | ⟨-, e, rest, -, hc⟩
  · exact absurd (hdue.symm.trans hdue') Bool.false_ne_true
  · rw [hc] at hs; cases hs; exact SameResults.refl s
  · exact State.serve_sameResults hp (hc ▸ hs) hr

/-! Bus errors (R67 to R69, R273). -/

theorem registerMap_offsets : ∀ row ∈ registerMap, row.1 ∈ readOnlyOffsets ∨ row.1 ∈ writableOffsets := by decide

theorem registerMap_lookup_none {off : Nat} (hro : off ∉ readOnlyOffsets) (hwr : off ∉ writableOffsets) :
    registerMap.lookup off = none := by
  refine List.lookup_eq_none_iff.2 fun row hrow => bne_iff_ne.2 ?_
  rintro rfl
  exact (registerMap_offsets row hrow).elim hro hwr

theorem locate_of_unmapped {p : Params} {off : Nat} (h : Unmapped p off) : locate p off = none := by
  unfold locate ibufBase obufBase
  rcases h with ⟨hlt, hro, hwr⟩ | ⟨hlow, hhigh⟩ | hlow
  · rw [if_pos hlt, registerMap_lookup_none hro hwr]
  · rw [if_neg (by omega), if_pos hhigh, if_neg (by omega)]
  · rw [if_neg (by omega), if_neg (by omega), if_neg (by omega)]

theorem State.transact_error {s : State} {x : Transaction}
    (h : x.width ≠ 32 ∨ x.offset.toNat % 4 ≠ 0 ∨ Unmapped s.params x.offset.toNat) : s.transact x = s.answer .error := by
  unfold State.transact
  split_ifs with hform
  · rfl
  · rw [locate_of_unmapped ((or_assoc.2 h).resolve_left hform)]

theorem step_transaction {s : State} {x : Transaction} {rest : List HostEvent} (h : ServesNext s (.transaction x) rest) :
    step s = .next ((s.consume rest).transact x) := by
  rw [h.step_eq, State.serve, h.running]; rfl

/-- Settles O16: the checks of width and alignment come before the window map, and that gives an unmapped offset nothing. -/
theorem busErrorsChangeNothing : Obligations.BusErrorsChangeNothing := fun s x rest h hbad => by
  rw [step_transaction h, State.transact_error (s := s.consume rest) hbad]

/-! Writes without effect (R70, R71). -/

theorem readOnlyOffsets_mapped : ∀ off ∈ readOnlyOffsets, ∃ row ∈ registerMap, row.1 = off ∧ readOnly row.2 = true := by
  decide

theorem writableOffsets_mapped : ∀ off ∈ writableOffsets, ∃ row ∈ registerMap, row.1 = off ∧ readOnly row.2 = false := by
  decide

theorem State.writeLocation_readOnly {l : Location} (h : readOnly l = true) (s : State) (w : Word) :
    s.writeLocation l w = s := if_pos h

theorem State.writeLocation_busy {s : State} {l : Location} (hl : readOnly l = false) (hb : s.status.busy = true) (w : Word) :
    s.writeLocation l w = s.ignoreWrite := by
  simp [State.writeLocation, hl, hb]

/-- Settles O17: each such offset is mapped to a read-only location, whose write changes nothing. -/
theorem readOnlyWritesChangeNothing : Obligations.ReadOnlyWritesChangeNothing := by
  intro s off w rest h hoff
  obtain ⟨l, hl, hro⟩ : ∃ l, Mapped s.params off.toNat l ∧ readOnly l = true := by
    rcases hoff with hreg | ⟨halign, hlow, hhigh⟩
    · obtain ⟨⟨o, l⟩, hrow, rfl, hro⟩ := readOnlyOffsets_mapped _ hreg
      exact ⟨l, mapped_register _ hrow, hro⟩
    · exact ⟨_, mapped_obuf halign hlow hhigh, rfl⟩
  rw [step_store h hl, State.writeLocation_readOnly hro]

/-- Settles O18: each such offset is mapped to a writable location, and its busy write is `ignoreWrite`. -/
theorem busyWritesAreIgnored : Obligations.BusyWritesAreIgnored := by
  intro s off w rest hp h hb hoff
  obtain ⟨l, hl, hwr⟩ : ∃ l, Mapped s.params off.toNat l ∧ readOnly l = false := by
    rcases hoff with hreg | ⟨halign, hlow, hhigh⟩
    · obtain ⟨⟨o, l⟩, hrow, rfl, hwr⟩ := writableOffsets_mapped _ hreg
      exact ⟨l, mapped_register _ hrow, hwr⟩
    · obtain ⟨i, hi⟩ := Nat.exists_eq_add_of_le hlow
      rw [hi] at halign hhigh ⊢
      exact ⟨_, mapped_ibuf hp (by omega) (by omega), rfl⟩
  have hw := State.writeLocation_busy (s := s.consume rest) hwr hb w
  exact ⟨(s.consume rest).ignoreWrite.answer .okay, by rw [step_store h hl, hw], rfl, rfl, rfl, rfl, rfl, rfl, rfl, fun _ _ => rfl⟩

/-! Reads of the buffers (R65, R72). -/

/-- The window offset of an OBUF byte, as a number (R41, R60). -/
theorem obufOffset_toNat {p : Params} (hp : p.wellFormed = true) {i : Nat} (hi : i < p.obufSize) :
    (BitVec.ofNat 18 (0x20000 + i)).toNat = 0x20000 + i := by
  obtain ⟨-, -, -, -, hmax⟩ := Params.wellFormed_iff.1 hp
  rw [BitVec.toNat_ofNat]
  omega

theorem State.obWord_lane (s : State) (i : Nat) {k : Nat} (hk : k < 4) :
    (s.obWord i).extractLsb' (8 * k) 8 = s.obByte (i + k) := wordOfBytes_lane (fun j => s.obByte (i + j)) hk

theorem State.obByte_of_read {s : State} {i : Nat} {b : Byte} (h : s.mem.read? (obufBase + i) = some b) :
    s.obByte i = b := by
  rw [State.obByte, h]

theorem State.whenIdle_of_idle {s : State} (hb : s.status.busy = false) (w : Word) : s.whenIdle w = w := by
  rw [State.whenIdle, hb]; rfl

/-- Settles O23: the read is `ibWord` or `obWord`, whose lanes are the bytes in order. -/
theorem idleBufferReadsAreLittleEndian : Obligations.IdleBufferReadsAreLittleEndian := by
  refine ⟨fun s i rest hp halign hi h _ => ?_, fun s i rest hp halign hi h hb => ?_⟩
  · have hl := mapped_ibuf hp halign hi
    rw [← ibufOffset_toNat hp hi] at hl
    exact ⟨_, step_load h hl, fun k hk => State.ibWord_lane (s.consume rest) i hk⟩
  · have hl := mapped_obuf (p := s.params) (off := 0x20000 + i) (by omega) (by omega) (by omega)
    rw [Nat.add_sub_cancel_left, ← obufOffset_toNat hp hi] at hl
    refine ⟨_, step_load h hl, fun k b hk hread => ?_⟩
    rw [State.readLocation, State.whenIdle_of_idle (s := s.consume rest) hb, State.obWord_lane _ i hk]
    exact State.obByte_of_read (s := s.consume rest) hread

/-! Reads change nothing, and polling reads STATUS (R72, R73, R100). -/

theorem State.transact_read_eq_answer (s : State) (off : Offset) (width : Nat) :
    ∃ r, s.transact { access := .read, offset := off, width := width } = s.answer r := by
  unfold State.transact
  split_ifs
  · exact ⟨_, rfl⟩
  · split <;> exact ⟨_, rfl⟩

/-- STATUS.BUSY is bit 0 of the word read (R23). -/
theorem Status.word_odd_iff (t : Status) : t.word.toNat % 2 = 1 ↔ t.busy = true := by
  have hbit : t.word.getLsbD 0 = t.busy := by rw [Status.word, BitVec.getLsbD_append]; simp [flagBit]
  rw [← hbit, ← BitVec.testBit_toNat, Nat.testBit_zero, decide_eq_true_iff]

theorem State.transact_statusRead (s : State) : s.transact statusRead = s.answer (.okayData s.status.word) :=
  State.transact_read (off := 0x004) (l := .status) (mapped_register _ (by decide))

/-- Settles O15: a transaction that reads only answers; the polling loop's is the read of STATUS, whose bit 0 is BUSY. -/
theorem readsHaveNoSideEffect : Obligations.ReadsHaveNoSideEffect := by
  refine ⟨fun s off width rest h => ?_, fun s rest h => ?_⟩
  · obtain ⟨r, hr⟩ := (s.consume rest).transact_read_eq_answer off width
    exact ⟨r, by rw [step_transaction h, hr]⟩
  · rw [h.step_eq, State.serve, h.running, State.transact_statusRead]
    simp only [Status.word_odd_iff]
    cases s.status.busy <;> rfl

/-! The length of the input (R62, R275). -/

theorem outcomeOf_of_inputTooLong {i : Instr} {s : State} (hi : readsInput i = true)
    (h : s.params.ibufSize < s.inLen.toNat) : outcomeOf i s = .error { kind := .inputTooLong } := by
  cases i
  case clkSolve | clkPureS | clkPureMs | clkPureUs | clkPureNs => cases hi
  all_goals rw [outcomeOf, State.input_of_lt h]; rfl

/-- Settles O30: the input string is assembled first, and its error is the outcome. -/
theorem inputLengthIsCheckedFirst : Obligations.InputLengthIsCheckedFirst :=
  fun _ _ hi h => ⟨_, exec_fails (outcomeOf_of_inputTooLong hi h)⟩

end Sys2Proof.Machine

/-! ### Command words (30_encoding.md) -/

namespace Sys2Proof.Machine

/-! The word of every command (R90 to R92): the laws of the 20 commands put together. -/

theorem encodedShape : ∀ i : Instr, Laws.EncodedShape.Statement i
  | .crc32Text => Laws.EncodedShape.crc32Text
  | .crc32Hex => Laws.EncodedShape.crc32Hex
  | .xorFold => Laws.EncodedShape.xorFold
  | .b64Enc => Laws.EncodedShape.b64Enc
  | .b64Dec => Laws.EncodedShape.b64Dec
  | .bconvR2 => Laws.EncodedShape.bconvR2
  | .bconvR8 => Laws.EncodedShape.bconvR8
  | .bconvR10 => Laws.EncodedShape.bconvR10
  | .bconvR16 => Laws.EncodedShape.bconvR16
  | .storReg => Laws.EncodedShape.storReg
  | .storBit => Laws.EncodedShape.storBit
  | .storByte => Laws.EncodedShape.storByte
  | .storKb => Laws.EncodedShape.storKb
  | .storMb => Laws.EncodedShape.storMb
  | .storGb => Laws.EncodedShape.storGb
  | .clkSolve => Laws.EncodedShape.clkSolve
  | .clkPureS => Laws.EncodedShape.clkPureS
  | .clkPureMs => Laws.EncodedShape.clkPureMs
  | .clkPureUs => Laws.EncodedShape.clkPureUs
  | .clkPureNs => Laws.EncodedShape.clkPureNs

theorem commandOf_opc_sub (i : Instr) : commandOf i.opc.toNat i.sub.toNat = .ok i := by cases i <;> rfl

/-- The word of a command has its OPC and SUB and no bit of RSV, and these select the command (R92). -/
theorem decode_encode (i : Instr) : decode (encode i) = .ok i := by
  obtain ⟨-, hrsv, hopc, hsub, -⟩ := encodedShape i
  rw [decode, if_pos hrsv, hopc, hsub, commandOf_opc_sub]

/-- Settles O2: a command is its OPC and SUB, and a word with RSV = 0 has no bit beside these two fields. -/
theorem decodeAndEncodeAgree : Obligations.DecodeAndEncodeAgree :=
  ⟨fun i _ => decode_encode i, fun _ _ => encode_of_decode⟩

/-! The table of R92. -/

theorem encode_of_mem_commandTable : ∀ row ∈ commandTable, encode row.2 = row.1 := by decide

theorem mem_commandTable (i : Instr) : (encode i, i) ∈ commandTable := by cases i <;> decide

theorem decode_of_mem_commandTable {row : Word × Instr} (h : row ∈ commandTable) : decode row.1 = .ok row.2 := by
  rw [← encode_of_mem_commandTable row h, decode_encode]

theorem mem_commandTable_of_decode {w : Word} {i : Instr} (h : decode w = .ok i) : (w, i) ∈ commandTable := by
  rw [← encode_of_decode h]
  exact mem_commandTable i

/-- Settles O1: each of the 24 fixed words is decoded by evaluation. -/
theorem tableWordsDecode : Obligations.TableWordsDecode := by
  unfold Obligations.TableWordsDecode
  decide

/-! The words that encode no command (R93), by the fields of the number. -/

theorem rsvField_eq_zero_iff {w : Word} : rsvField w = 0 ↔ w.toNat / 2 ^ 12 = 0 := by
  rw [← BitVec.toNat_inj, rsvField, BitVec.extractLsb'_toNat, Nat.shiftRight_eq_div_pow, BitVec.ofNat_eq_ofNat,
    BitVec.toNat_zero]
  have := w.isLt
  omega

theorem opcField_toNat (w : Word) : (opcField w).toNat = w.toNat % 2 ^ 8 := by
  rw [opcField, BitVec.extractLsb'_toNat, Nat.shiftRight_zero]

theorem subField_toNat (w : Word) : (subField w).toNat = w.toNat / 2 ^ 8 % 2 ^ 4 := by
  rw [subField, BitVec.extractLsb'_toNat, Nat.shiftRight_eq_div_pow]

/-- An OPC and a SUB select a command exactly where the SUB is listed for the OPC (R92). -/
theorem commandOf_ok_iff {opc sub : Nat} : (∃ i, commandOf opc sub = .ok i) ↔ sub < subsListed opc := by
  constructor
  · rintro ⟨i, hi⟩
    obtain ⟨rfl, rfl⟩ := commandOf_eq_ok hi
    obtain ⟨-, -, -, -, hlisted⟩ := encodedShape i
    exact hlisted
  · intro h
    unfold subsListed at h
    split at h
    all_goals interval_cases sub
    all_goals exact ⟨_, rfl⟩

/-- The words that encode commands, by their fields (R90, R92). -/
theorem decode_ok_iff {w : Word} :
    (∃ i, decode w = .ok i) ↔ w.toNat / 2 ^ 12 = 0 ∧ w.toNat / 2 ^ 8 % 2 ^ 4 < subsListed (w.toNat % 2 ^ 8) := by
  rw [← rsvField_eq_zero_iff, ← opcField_toNat, ← subField_toNat, ← commandOf_ok_iff, decode]
  split_ifs with hrsv
  · exact (and_iff_right hrsv).symm
  · exact iff_of_false (fun ⟨_, h⟩ => nomatch h) fun h => hrsv h.1

theorem decode_error_iff {w : Word} : (∃ why, decode w = .error why) ↔ ¬ ∃ i, decode w = .ok i := by
  cases decode w <;> simp

/-- Settles O3: a word that decodes is a row of the table, and it decodes exactly when RSV is 0 and SUB is listed for OPC. -/
theorem wordsThatEncodeCommands : Obligations.WordsThatEncodeCommands := by
  refine ⟨rfl, fun _ => decode_of_mem_commandTable, fun w hw => ?_, fun w => ?_⟩
  · refine decode_error_iff.2 fun ⟨i, hi⟩ => hw ?_
    exact List.mem_map_of_mem (mem_commandTable_of_decode hi)
  · rw [decode_error_iff, decode_ok_iff, not_and_or, not_lt]

/-- Settles O5: a due step is a completion, of the command that CMD encodes or, where there is none, with InvalidCommand. -/
theorem unencodedWordCompletesWithInvalidCommand : Obligations.UnencodedWordCompletesWithInvalidCommand := by
  intro s hb hdue hnone
  have hnow : s.completesNow = true := State.completesNow_iff.2 ⟨hb, hdue⟩
  rcases step_cases s with ⟨-, c, hs, ⟨i, hi, -⟩ | rfl⟩ | ⟨hlater, -⟩ | ⟨hlater, -⟩
  · exact absurd (encode_of_decode hi) (hnone i)
  · exact ⟨_, hs, State.fail_failed s _⟩
  all_goals exact absurd (hlater.symm.trans hnow) Bool.false_ne_true

end Sys2Proof.Machine

/-! ### CRC-32 (40_crc32.md) -/

namespace Sys2Proof.Machine

/-! The checksum (R110 to R112): an iteration is linear in the bits of the register, so eight iterations move the upper 24 bits
down and look the low byte up in the table. -/

theorem crcIteration_eq (c : Word) : crcIteration c = (c >>> 1) ^^^ (if c.getLsbD 0 then 0xEDB88320#32 else 0#32) := by
  have hlow : c &&& 1 = 1 ↔ c.getLsbD 0 = true := by
    rw [← BitVec.toNat_inj, ← BitVec.testBit_toNat, Nat.testBit_zero, BitVec.toNat_and, decide_eq_true_eq]
    exact iff_of_eq (congrArg (· = 1) (Nat.and_one_is_mod _))
  rw [crcIteration, if_congr hlow rfl rfl]
  split_ifs
  · exact BitVec.xor_comm _ _
  · exact BitVec.xor_zero.symm

theorem crcIteration_xor : Function.Semiconj₂ crcIteration (· ^^^ ·) (· ^^^ ·) := by
  intro a b
  have hpoly (p q : Bool) : (if (p ^^ q) then 0xEDB88320#32 else 0#32) =
      (if p then 0xEDB88320#32 else 0#32) ^^^ (if q then 0xEDB88320#32 else 0#32) := by cases p <;> cases q <;> rfl
  simp only [crcIteration_eq, BitVec.ushiftRight_xor_distrib, BitVec.getLsbD_xor, hpoly]
  ac_rfl

/-- As long as zeros are shifted out, the polynomial is not xored in. -/
theorem crcIteration_iterate_of_low_zero (n : Nat) : ∀ c : Word, (∀ k < n, c.getLsbD k = false) →
    crcIteration^[n] c = c >>> n := by
  induction n with
  | zero => intro c _; simp
  | succ n ih =>
    intro c hlow
    have hshift : crcIteration c = c >>> 1 := by rw [crcIteration_eq, hlow 0 (by omega)]; exact BitVec.xor_zero
    rw [Function.iterate_succ_apply, hshift, ih _ fun k hk => by simpa using hlow (1 + k) (by omega),
      ← BitVec.shiftRight_add, Nat.add_comm]

theorem crcShifts_eq_iterate (n : Nat) : ∀ c : Word, crcShifts n c = crcIteration^[n] c := by
  induction n with
  | zero => exact fun _ => rfl
  | succ n ih => exact fun c => ih (crcShift c)

theorem crcTable_eq_iterate (i : Byte) : crcTable i = crcIteration^[8] (i.setWidth 32) := crcShifts_eq_iterate 8 _

theorem byte_shiftRight_eight (b : Byte) : (b.setWidth 32 : Word) >>> 8 = 0#32 := by
  ext k hk
  simp

theorem xor_byte_shiftRight_eight (c : Word) (b : Byte) : (c ^^^ b.setWidth 32) >>> 8 = c >>> 8 := by
  rw [BitVec.ushiftRight_xor_distrib, byte_shiftRight_eight, BitVec.xor_zero]

/-- The register is its low byte and a rest whose low byte is zero. -/
theorem crcIteration_eight (c : Word) : crcIteration^[8] c = (c >>> 8) ^^^ crcTable (c.setWidth 8) := by
  have hrest : crcIteration^[8] (c ^^^ (c.setWidth 8).setWidth 32) = c >>> 8 := by
    rw [crcIteration_iterate_of_low_zero 8 _ fun k hk => by simp [hk, show k < 32 by omega], xor_byte_shiftRight_eight]
  calc crcIteration^[8] c
      = crcIteration^[8] ((c ^^^ (c.setWidth 8).setWidth 32) ^^^ (c.setWidth 8).setWidth 32) := by
        rw [BitVec.xor_assoc, BitVec.xor_self, BitVec.xor_zero]
    _ = crcIteration^[8] (c ^^^ (c.setWidth 8).setWidth 32) ^^^ crcIteration^[8] ((c.setWidth 8).setWidth 32) :=
        crcIteration_xor.iterate 8 _ _
    _ = (c >>> 8) ^^^ crcTable (c.setWidth 8) := by rw [hrest, crcTable_eq_iterate]

theorem crcByte_eq_iterate (c : Word) (b : Byte) : crcByte c b = crcIteration^[8] (c ^^^ b.setWidth 32) := by
  rw [crcIteration_eight, xor_byte_shiftRight_eight, crcByte]

/-- Settles O32: each byte of the fold is one lookup by `crcIteration_eight`. -/
theorem crcTableMatchesBitSerial : Obligations.CrcTableMatchesBitSerial := by
  refine ⟨crcTable_eq_iterate, fun bs => ?_⟩
  rw [crcBytes, funext₂ crcByte_eq_iterate]

/-! The line of a checksum (R12, R113). -/

theorem mem_padZeros {k : Nat} {s : List Byte} {c : Byte} (h : c ∈ padZeros k s) : c = 0x30 ∨ c ∈ s :=
  (List.mem_append.1 h).imp_left List.eq_of_mem_replicate

theorem isUpperHex_of_mem_renderHex {n : Nat} {c : Byte} (h : c ∈ renderHex n) : (isDec c || between 0x41 0x46 c) = true := by
  have hhex := isHex_iff.1 ((digits_radixDigits .r16 n).2 c h)
  have hupper := radixDigits_lt_lower .r16 n h
  rw [Bool.or_eq_true, isDec_iff, between_iff]
  omega

theorem isUpperHex_of_mem_renderHex8 {n : Nat} {c : Byte} (h : c ∈ renderHex8 n) : (isDec c || between 0x41 0x46 c) = true := by
  rcases mem_padZeros h with rfl | hc
  · decide
  · exact isUpperHex_of_mem_renderHex hc

theorem renderHex8_length (w : Word) : (renderHex8 w.toNat).length = 8 :=
  padZeros_length (render_length_le w.isLt (by omega))

theorem digitsVal_renderHex8 (n : Nat) : digitsVal 16 (renderHex8 n) = n := by
  rw [renderHex8, digitsVal_padZeros, renderHex, digitsVal_render (by omega) (by omega)]

theorem crcDeliver_out_lt (crc : Word) : (crcDeliver crc).out.length < 2 ^ 32 := by
  rw [crcDeliver_out_length]; omega

/-- A command whose outcome is a checksum completes with its value and its line (R113). -/
theorem exec_crcDeliver {i : Instr} {s : State} {crc : Word} (h : outcomeOf i s = .ok (crcDeliver crc)) :
    ∃ t digits, exec i s = .next t ∧ Succeeded s t (crc.setWidth 64) 0 0 0 0 (digits ++ [lf]) false false ∧
      digits.length = 8 ∧ (∀ c ∈ digits, (isDec c || between 0x41 0x46 c) = true) ∧ digitsVal 16 digits = crc.toNat := by
  obtain ⟨hexec, hdone⟩ := exec_succeeds h (crcDeliver_out_lt crc)
  exact ⟨_, renderHex8 crc.toNat, hexec, hdone, renderHex8_length crc, fun _ => isUpperHex_of_mem_renderHex8,
    digitsVal_renderHex8 _⟩

/-! What the two commands compute (R114 to R116, R118). -/

theorem trimWs_eq_nil_iff {s : List Byte} : trimWs s = [] ↔ ∀ c ∈ s, isWs c = true := by
  rw [trimWs, List.reverse_eq_nil_iff, List.dropWhile_eq_nil_iff]
  constructor
  · intro h
    have hnil : s.dropWhile isWs = [] := by
      by_contra hne
      have hhead : isWs ((s.dropWhile isWs).head hne) = true := h _ (List.mem_reverse.2 (List.head_mem hne))
      exact Bool.false_ne_true ((List.head_dropWhile_not isWs hne).symm.trans hhead)
    exact List.dropWhile_eq_nil_iff.1 hnil
  · exact fun h c hc => h c ((List.dropWhile_sublist _).subset (List.mem_reverse.1 hc))

theorem stripWs_eq_nil_iff {s : List Byte} : stripWs s = [] ↔ ∀ c ∈ s, isWs c = true := by
  simp [stripWs]

theorem outcomeOf_crc32Text {s : State} (h : s.inLen.toNat ≤ s.params.ibufSize) :
    outcomeOf .crc32Text s = crc32TextOf s.inBytes := by
  rw [outcomeOf, State.input_of_le h]; rfl

theorem outcomeOf_crc32Hex {s : State} (h : s.inLen.toNat ≤ s.params.ibufSize) :
    outcomeOf .crc32Hex s = crc32HexOf s.inBytes := by
  rw [outcomeOf, State.input_of_le h]; rfl

theorem crc32TextOf_blank {bs : List Byte} (h : ∀ c ∈ bs, isWs c = true) : crc32TextOf bs = raise .emptyInput :=
  if_pos (trimWs_eq_nil_iff.2 h)

theorem crc32TextOf_of_not_blank {bs : List Byte} (h : ∃ c ∈ bs, isWs c = false) :
    crc32TextOf bs = .ok (crcDeliver (crcBytes bs)) := by
  obtain ⟨c, hc, hws⟩ := h
  exact if_neg fun hnil => by simp [trimWs_eq_nil_iff.1 hnil c hc] at hws

theorem crc32HexOf_blank {bs : List Byte} (h : ∀ c ∈ bs, isWs c = true) : crc32HexOf bs = raise .emptyInput :=
  if_pos (stripWs_eq_nil_iff.2 h)

theorem crc32HexOf_of_not_hex {bs : List Byte} {c : Byte} (hc : c ∈ bs) (hws : isWs c = false) (hhex : isHex c = false) :
    crc32HexOf bs = raise .invalidHexFormat := by
  have hmem : c ∈ stripWs bs := List.mem_filter.2 ⟨hc, by rw [hws]; rfl⟩
  have hall : (!(stripWs bs).all isHex) = true := by
    rw [Bool.not_eq_true', List.all_eq_false]
    exact ⟨c, hmem, by simp [hhex]⟩
  rw [crc32HexOf, if_neg (List.ne_nil_of_mem hmem), if_pos hall]

theorem crc32HexOf_of_odd {bs : List Byte} (h : (stripWs bs).length % 2 = 1) : crc32HexOf bs = raise .invalidHexFormat := by
  have hne : stripWs bs ≠ [] := fun hnil => by simp [hnil] at h
  rw [crc32HexOf, if_neg hne, if_pos h, ite_self]

/-- A spelling passes the tests of R116 and decodes to what it spells. -/
theorem Spells.decodes {h bs : List Byte} (hs : Spells h bs) : h.all isHex = true ∧ h.length % 2 = 0 ∧ hexDecode h = bs := by
  induction hs with
  | nil => exact ⟨rfl, rfl, rfl⟩
  | pair a b h s ha hb _ ih =>
    obtain ⟨hall, heven, hdec⟩ := ih
    exact ⟨by simp [ha, hb, hall], by simp only [List.length_cons]; omega, by rw [hexDecode, hdec]⟩

theorem crc32HexOf_of_spells {bs ts : List Byte} (h : Spells (stripWs bs) ts) (hne : ts ≠ []) :
    crc32HexOf bs = .ok (crcDeliver (crcBytes ts)) := by
  obtain ⟨hall, heven, hdec⟩ := h.decodes
  have hstrip : stripWs bs ≠ [] := fun hnil => hne (by rw [← hdec, hnil, hexDecode]; simp)
  simp [crc32HexOf, hstrip, hall, heven, hdec]

/-- Settles O33: an input that is not blank passes the only test and is summed untrimmed. -/
theorem crcTextResult : Obligations.CrcTextResult := fun _ hlen hws =>
  exec_crcDeliver ((outcomeOf_crc32Text hlen).trans (crc32TextOf_of_not_blank hws))

/-- Settles O34: a spelling passes every test and decodes to the bytes summed. -/
theorem crcHexResult : Obligations.CrcHexResult := fun _ _ hlen hne hspell =>
  exec_crcDeliver ((outcomeOf_crc32Hex hlen).trans (crc32HexOf_of_spells hspell hne))

/-- Settles O35: the test that fails first in each case. -/
theorem crcErrors : Obligations.CrcErrors := by
  refine ⟨fun s hlen hblank => ⟨?_, ?_⟩, fun s hlen hbad => ?_⟩
  · exact ⟨_, exec_fails ((outcomeOf_crc32Text hlen).trans (crc32TextOf_blank hblank))⟩
  · exact ⟨_, exec_fails ((outcomeOf_crc32Hex hlen).trans (crc32HexOf_blank hblank))⟩
  · have herr : crc32HexOf s.inBytes = raise .invalidHexFormat := by
      rcases hbad with ⟨c, hc, hws, hhex⟩ | hodd
      · exact crc32HexOf_of_not_hex hc hws hhex
      · exact crc32HexOf_of_odd hodd
    exact ⟨_, exec_fails ((outcomeOf_crc32Hex hlen).trans herr)⟩

/-- Settles O36: both outcomes are the delivery of the checksum of the same bytes. -/
theorem crcModesAgree : Obligations.CrcModesAgree := by
  intro s u hs hu hws hspell
  have hne : s.inBytes ≠ [] := fun hnil => by simp [hnil] at hws
  obtain ⟨ht, htext⟩ := exec_succeeds ((outcomeOf_crc32Text hs).trans (crc32TextOf_of_not_blank hws)) (crcDeliver_out_lt _)
  obtain ⟨hv, hhex⟩ := exec_succeeds ((outcomeOf_crc32Hex hu).trans (crc32HexOf_of_spells hspell hne)) (crcDeliver_out_lt _)
  exact ⟨_, _, ht, hv, rfl, rfl, hhex.res0.trans htext.res0.symm, hhex.output.trans htext.output.symm⟩

end Sys2Proof.Machine

/-! ### XOR checksum (41_xor_checksum.md) -/

namespace Sys2Proof.Machine

/-! Separators (R130): where one begins, and that none begins inside another. -/

/-- A separator stands at the head of `s`. -/
def BeginsSeparator (s : List Byte) : Prop := ∃ p more, Separator p ∧ s = p ++ more

/-- A token may end before `rest`: nothing is left or a separator begins. -/
def EndsToken (rest : List Byte) : Prop := rest = [] ∨ BeginsSeparator rest

theorem separatorLength_append {p : List Byte} (h : Separator p) (more : List Byte) :
    separatorLength (p ++ more) = p.length := by
  rcases h with ⟨c, rfl, hc⟩ | rfl
  · have hone : (isWs c || c == 0x2C) = true := by simpa using hc
    simp only [List.singleton_append, separatorLength, if_pos hone, List.length_singleton]
  · rfl

theorem beginsSeparator_of_separatorLength {s : List Byte} (h : separatorLength s ≠ 0) : BeginsSeparator s := by
  cases s with
  | nil => exact absurd rfl h
  | cons b rest =>
    rw [separatorLength] at h
    split_ifs at h with hone hthree
    · exact ⟨[b], rest, .inl ⟨b, rfl, by simpa using hone⟩, rfl⟩
    · simp only [Bool.and_eq_true, beq_iff_eq] at hthree
      obtain ⟨rfl, htake⟩ := hthree
      exact ⟨[0xEF, 0xBC, 0x8C], rest.drop 2, .inr rfl, congrArg _ (take_two_eq htake)⟩
    · exact absurd rfl h

theorem Separator.length_pos {p : List Byte} (h : Separator p) : 0 < p.length := by
  rcases h with ⟨c, rfl, -⟩ | rfl
  · exact Nat.one_pos
  · decide

theorem Separator.not_infix_nil {p : List Byte} (h : Separator p) : ¬ p <:+: [] :=
  fun hin => h.length_pos.ne' (List.length_eq_zero_iff.2 (List.infix_nil.1 hin))

theorem separatorLength_eq_zero_iff {s : List Byte} : separatorLength s = 0 ↔ ¬ BeginsSeparator s := by
  refine ⟨?_, fun h => by_contra fun hne => h (beginsSeparator_of_separatorLength hne)⟩
  rintro hzero ⟨p, more, hp, rfl⟩
  exact hp.length_pos.ne' ((separatorLength_append hp more).symm.trans hzero)

/-- A proper end of a separator begins no separator, whatever follows it. -/
theorem not_beginsSeparator_inside {a b more : List Byte} (h : Separator (a ++ b)) (ha : a ≠ []) (hb : b ≠ []) :
    ¬ BeginsSeparator (b ++ more) := by
  rw [← separatorLength_eq_zero_iff]
  rcases h with ⟨c, hc, -⟩ | hfull
  · have hlen := congrArg List.length hc
    have := List.length_pos_iff.2 ha
    have := List.length_pos_iff.2 hb
    simp only [List.length_append, List.length_singleton] at hlen
    omega
  · rcases List.append_eq_cons_iff.1 hfull with ⟨hnil, -⟩ | ⟨a₁, rfl, htwo⟩
    · exact absurd hnil ha
    rcases List.append_eq_cons_iff.1 htwo.symm with ⟨-, rfl⟩ | ⟨a₂, -, hone⟩
    · rfl
    rcases List.append_eq_cons_iff.1 hone.symm with ⟨-, rfl⟩ | ⟨a₃, -, hnone⟩
    · rfl
    · exact absurd (List.append_eq_nil_iff.1 hnone.symm).2 hb

/-- No separator begins at a token, not even one that reaches over its end. -/
theorem not_beginsSeparator_append {t rest : List Byte} (ht : SeparatorFree t) (hend : EndsToken rest) :
    ¬ BeginsSeparator (t ++ rest) := by
  obtain ⟨hne, hfree⟩ := ht
  rintro ⟨p, more, hp, heq⟩
  rcases List.append_eq_append_iff.1 heq with ⟨reach, rfl, rfl⟩ | ⟨left, rfl, -⟩
  · by_cases hreach : reach = []
    · subst hreach
      exact hfree _ hp (by simp)
    · rcases hend with hnil | hbegins
      · exact hreach (List.append_eq_nil_iff.1 hnil).1
      · exact not_beginsSeparator_inside hp hne hreach hbegins
  · exact hfree p hp (List.prefix_append p left).isInfix

theorem SeparatorFree.tail {b : Byte} {t : List Byte} (h : SeparatorFree (b :: t)) (ht : t ≠ []) : SeparatorFree t :=
  ⟨ht, fun p hp hin => h.2 p hp (hin.trans (List.suffix_cons b t).isInfix)⟩

/-! The scan on the parts of the input. -/

@[simp] theorem closeToken_nil (pos : Nat) : closeToken pos [] = [] := rfl

theorem closeToken_reverse {t : List Byte} (h : t ≠ []) (pos : Nat) :
    closeToken (pos + t.length) t.reverse = [{ pos := pos, text := t }] := by
  simp [closeToken, h]

@[simp] theorem tokensFrom_nil (pos : Nat) (cur : List Byte) : tokensFrom pos 0 cur [] = closeToken pos cur := rfl

theorem tokensFrom_skip (cur rest : List Byte) : ∀ (pos : Nat) (skipped : List Byte),
    tokensFrom pos skipped.length cur (skipped ++ rest) = tokensFrom (pos + skipped.length) 0 cur rest := by
  intro pos skipped
  induction skipped generalizing pos with
  | nil => rfl
  | cons b skipped ih =>
    rw [List.cons_append, List.length_cons, tokensFrom, ih]
    congr 1; omega

/-- A separator closes the token begun. -/
theorem tokensFrom_separator {p : List Byte} (hp : Separator p) (pos : Nat) (cur rest : List Byte) :
    tokensFrom pos 0 cur (p ++ rest) = closeToken pos cur ++ tokensFrom (pos + p.length) 0 [] rest := by
  have hlen := separatorLength_append hp rest
  cases p with
  | nil => exact absurd hp.length_pos (by simp)
  | cons b tail =>
    rw [List.cons_append, List.length_cons] at hlen
    rw [List.cons_append, tokensFrom, hlen]
    simp only [tokensFrom_skip, List.length_cons]
    congr 2; omega

theorem tokensFrom_separatorRun {gap : List Byte} (hg : SeparatorRun gap) (pos : Nat) (rest : List Byte) :
    tokensFrom pos 0 [] (gap ++ rest) = tokensFrom (pos + gap.length) 0 [] rest := by
  obtain ⟨parts, hparts, rfl⟩ := hg
  induction parts generalizing pos with
  | nil => rfl
  | cons p parts ih =>
    rw [List.forall_mem_cons] at hparts
    rw [List.flatten_cons, List.append_assoc, tokensFrom_separator hparts.1, ih _ hparts.2, List.length_append, Nat.add_assoc]
    rfl

/-- The scan takes every byte of a separator-free stretch into the token begun. -/
theorem tokensFrom_separatorFree {t rest : List Byte} (ht : SeparatorFree t) (hend : EndsToken rest)
    (pos : Nat) (cur : List Byte) :
    tokensFrom pos 0 cur (t ++ rest) = tokensFrom (pos + t.length) 0 (t.reverse ++ cur) rest := by
  induction t generalizing pos cur with
  | nil => exact absurd rfl ht.1
  | cons b t ih =>
    have hbyte : tokensFrom pos 0 cur (b :: t ++ rest) = tokensFrom (pos + 1) 0 (b :: cur) (t ++ rest) := by
      have hzero := separatorLength_eq_zero_iff.2 (not_beginsSeparator_append ht hend)
      rw [List.cons_append] at hzero ⊢
      rw [tokensFrom, hzero]
    rw [hbyte]
    by_cases hnil : t = []
    · subst hnil; rfl
    · rw [ih (ht.tail hnil), List.reverse_cons, List.append_assoc, List.length_cons]
      congr 1; omega

/-- At the end of the input or a separator, the token begun is closed and the scan starts afresh. -/
theorem tokensFrom_close {rest : List Byte} (hend : EndsToken rest) (pos : Nat) (cur : List Byte) :
    tokensFrom pos 0 cur rest = closeToken pos cur ++ tokensFrom pos 0 [] rest := by
  rcases hend with rfl | ⟨p, more, hp, rfl⟩
  · simp
  · simp [tokensFrom_separator hp]

/-! The scan gives the tokens of R130, and only those. -/

theorem Tokenizes.eq_tokensFrom {pos : Nat} {s : List Byte} {ts : List Token} (h : Tokenizes pos s ts) :
    ts = tokensFrom pos 0 [] s := by
  induction h with
  | done pos gap hg => simpa using (tokensFrom_separatorRun hg pos []).symm
  | token pos gap t rest ts hg ht hend _ ih =>
    rw [List.append_assoc, tokensFrom_separatorRun hg, tokensFrom_separatorFree ht hend, List.append_nil,
      tokensFrom_close hend, closeToken_reverse ht.1, ← ih, List.singleton_append]

theorem SeparatorRun.cons {p gap : List Byte} (hp : Separator p) (hg : SeparatorRun gap) : SeparatorRun (p ++ gap) := by
  obtain ⟨parts, hparts, rfl⟩ := hg
  exact ⟨p :: parts, List.forall_mem_cons.2 ⟨hp, hparts⟩, rfl⟩

theorem SeparatorRun.nil : SeparatorRun [] := ⟨[], by simp, rfl⟩

theorem Tokenizes.separator {pos : Nat} {p s : List Byte} {ts : List Token} (hp : Separator p)
    (h : Tokenizes (pos + p.length) s ts) : Tokenizes pos (p ++ s) ts := by
  cases h with
  | done _ gap hg => exact .done pos _ (hg.cons hp)
  | token _ gap t rest ts hg ht hend hr =>
    have htoken := Tokenizes.token pos (p ++ gap) t rest ts (hg.cons hp) ht hend
    simp only [List.length_append, List.append_assoc, ← Nat.add_assoc] at htoken ⊢
    exact htoken hr

/-- Every string splits where its first separator begins. -/
theorem exists_split_at_separator (s : List Byte) : ∃ t rest, s = t ++ rest ∧ (∀ p, Separator p → ¬ p <:+: t) ∧
    EndsToken rest := by
  induction s with
  | nil => exact ⟨[], [], rfl, fun _ hp => hp.not_infix_nil, .inl rfl⟩
  | cons b s ih =>
    by_cases hb : BeginsSeparator (b :: s)
    · exact ⟨[], b :: s, rfl, fun _ hp => hp.not_infix_nil, .inr hb⟩
    · obtain ⟨t, rest, rfl, hfree, hend⟩ := ih
      refine ⟨b :: t, rest, rfl, fun p hp h => ?_, hend⟩
      rcases List.infix_cons_iff.1 h with ⟨left, hleft⟩ | hin
      · exact hb ⟨p, left ++ rest, hp, by rw [← List.append_assoc, hleft]; rfl⟩
      · exact hfree p hp hin

theorem exists_tokenizes (pos : Nat) (s : List Byte) : ∃ ts, Tokenizes pos s ts := by
  induction hn : s.length using Nat.strong_induction_on generalizing pos s with
  | _ n ih =>
    subst hn
    obtain ⟨t, rest, rfl, hfree, hend⟩ := exists_split_at_separator s
    by_cases ht : t = []
    · subst ht
      rcases hend with rfl | ⟨p, more, hp, rfl⟩
      · exact ⟨[], .done pos [] .nil⟩
      · have hlen := hp.length_pos
        obtain ⟨ts, hts⟩ := ih more.length (by simp only [List.length_append]; omega) (pos + p.length) more rfl
        exact ⟨ts, (.separator hp hts : Tokenizes pos (p ++ more) ts)⟩
    · have hlen := List.length_pos_iff.2 ht
      obtain ⟨ts, hts⟩ := ih rest.length (by simp only [List.length_append]; omega) (pos + t.length) rest rfl
      exact ⟨_, .token pos [] t rest ts .nil ⟨ht, hfree⟩ hend hts⟩

theorem tokenizes_iff {pos : Nat} {s : List Byte} {ts : List Token} :
    Tokenizes pos s ts ↔ ts = tokensFrom pos 0 [] s := by
  refine ⟨Tokenizes.eq_tokensFrom, ?_⟩
  rintro rfl
  obtain ⟨ts, hts⟩ := exists_tokenizes pos s
  exact hts.eq_tokensFrom ▸ hts

/-! Where the tokens stand. -/

/-- `k` is a separator-free stretch of the input `s` that stands from offset `pos` on. -/
def StandsIn (pos : Nat) (s : List Byte) (k : Token) : Prop :=
  SeparatorFree k.text ∧ ∃ before after, s = before ++ k.text ++ after ∧ k.pos = pos + before.length

theorem StandsIn.append_left {pos : Nat} {s : List Byte} {k : Token} (l : List Byte) (h : StandsIn (pos + l.length) s k) :
    StandsIn pos (l ++ s) k := by
  obtain ⟨hfree, before, after, rfl, hpos⟩ := h
  exact ⟨hfree, l ++ before, after, by simp, by simp [hpos, Nat.add_assoc]⟩

theorem StandsIn.pos_le {pos : Nat} {s : List Byte} {k : Token} (h : StandsIn pos s k) : pos ≤ k.pos := by
  obtain ⟨-, before, -, -, hpos⟩ := h
  omega

theorem StandsIn.drop_take {s : List Byte} {k : Token} (h : StandsIn 0 s k) : (s.drop k.pos).take k.text.length = k.text := by
  obtain ⟨-, before, after, rfl, hpos⟩ := h
  rw [hpos, Nat.zero_add, List.append_assoc, List.drop_left, List.take_left]

theorem Tokenizes.standsIn {pos : Nat} {s : List Byte} {ts : List Token} (h : Tokenizes pos s ts) :
    ∀ k ∈ ts, StandsIn pos s k := by
  induction h with
  | done pos gap hg => simp
  | token pos gap t rest ts hg ht hend _ ih =>
    refine List.forall_mem_cons.2 ⟨⟨ht, gap, rest, rfl, rfl⟩, fun k hk => ?_⟩
    refine StandsIn.append_left (gap ++ t) ?_
    rw [List.length_append, ← Nat.add_assoc]
    exact ih k hk

/-- Behind a separator no token stands at its offset. -/
theorem Tokenizes.pos_lt {pos : Nat} {rest : List Byte} {ts : List Token} (h : Tokenizes pos rest ts)
    (hend : EndsToken rest) : ∀ k ∈ ts, pos < k.pos := by
  rw [h.eq_tokensFrom]
  rcases hend with rfl | ⟨p, more, hp, rfl⟩
  · simp
  · rw [tokensFrom_separator hp]
    intro k hk
    have hle := (Tokenizes.standsIn (tokenizes_iff.2 rfl) k hk).pos_le
    have hlen := hp.length_pos
    omega

theorem Tokenizes.pairwise {pos : Nat} {s : List Byte} {ts : List Token} (h : Tokenizes pos s ts) :
    ts.Pairwise (fun a b => a.pos + a.text.length < b.pos) := by
  induction h with
  | done => exact .nil
  | token pos gap t rest ts hg ht hend hr ih => exact .cons (hr.pos_lt hend) ih

theorem SeparatorFree.not_mem {t : List Byte} (h : SeparatorFree t) : ∀ c ∈ t, isWs c = false ∧ c ≠ 0x2C := by
  intro c hc
  have hnot : ¬ (isWs c = true ∨ c = 0x2C) := fun hsep => h.2 [c] (.inl ⟨c, rfl, hsep⟩) ((List.singleton_infix_iff c t).2 hc)
  simpa using hnot

/-- Settles O37: the scan is the one tokenization there is (`tokenizes_iff`), and a tokenization places its tokens. -/
theorem tokensAreStretchesOfTheInput : Obligations.TokensAreStretchesOfTheInput := by
  intro bs
  have htokens : Tokenizes 0 bs (tokens bs) := tokenizes_iff.2 rfl
  refine ⟨fun ts => tokenizes_iff, fun k hk => ?_, htokens.pairwise⟩
  have hstands := htokens.standsIn k hk
  have hfree : SeparatorFree k.text := hstands.1
  exact ⟨hfree.1, hstands.drop_take, hfree.not_mem, hfree.2 _ (.inr rfl)⟩

/-! The fold (R132 to R135). -/

theorem xorAll_append_singleton (vs : List Nat) (v : Nat) : xorAll (vs ++ [v]) = xorAll vs ^^^ v := by
  simp [xorAll]

theorem xorAll_lt {vs : List Nat} (h : ∀ v ∈ vs, v ≤ 2 ^ 64 - 1) : xorAll vs < 2 ^ 64 := by
  induction vs using List.reverseRecOn with
  | nil => decide
  | append_singleton vs v ih =>
    rw [List.forall_mem_append, List.forall_mem_singleton] at h
    rw [xorAll_append_singleton]
    exact Nat.xor_lt_two_pow (ih h.1) (by omega)

theorem xorAll_perm {vs us : List Nat} (h : vs.Perm us) : xorAll vs = xorAll us :=
  h.foldl_eq' (fun x _ y _ z => Nat.xor_right_comm z x y) 0

theorem foldTokens_good {k : Token} {v : Nat} (h : Denotes k.text v) (hv : v ≤ 2 ^ 64 - 1) (acc : DWord)
    (after : List Token) : foldTokens acc (k :: after) = foldTokens (acc ^^^ BitVec.ofNat 64 v) after := by
  rw [foldTokens, tokenValue_eq_some.2 h]
  exact if_neg (Nat.not_lt.2 hv)

/-- The loop of R134 on tokens that denote `vs`, from an accumulator that holds `n`. -/
theorem foldTokens_of_denotes {ks : List Token} {vs : List Nat} (hle : ∀ v ∈ vs, v ≤ 2 ^ 64 - 1)
    (h : List.Forall₂ Denotes (ks.map Token.text) vs) (n : Nat) :
    foldTokens (BitVec.ofNat 64 n) ks = .ok (BitVec.ofNat 64 (vs.foldl (fun acc v => acc ^^^ v) n)) := by
  induction ks generalizing vs n with
  | nil => cases h; rfl
  | cons k ks ih =>
    cases h with
    | cons hk hrest =>
      rw [List.forall_mem_cons] at hle
      rw [foldTokens_good hk hle.1, ← BitVec.ofNat_xor]
      exact ih hle.2 hrest _

theorem outcomeOf_xorFold {s : State} {vs : List Nat} (hlen : s.inLen.toNat ≤ s.params.ibufSize) (hne : vs ≠ [])
    (hle : ∀ v ∈ vs, v ≤ 2 ^ 64 - 1) (h : List.Forall₂ Denotes (tokenTexts s.inBytes) vs) :
    outcomeOf .xorFold s = .ok (xorDeliver (BitVec.ofNat 64 (xorAll vs))) := by
  have htokens : tokens s.inBytes ≠ [] := by
    intro hnil
    rw [tokenTexts, hnil] at h
    cases h
    exact hne rfl
  simp only [outcomeOf, State.input_of_le hlen, Except.bind, xorFoldOf, if_neg htokens]
  rw [show (0 : DWord) = BitVec.ofNat 64 0 from rfl, foldTokens_of_denotes hle h 0]
  rfl

theorem xorDeliver_out_lt (acc : DWord) : (xorDeliver acc).out.length < 2 ^ 32 :=
  (xorDeliver_out_length_le acc).trans_lt (by omega)

/-- Settles O38: the loop accumulates the XOR of the values, which fits 64 bits. -/
theorem xorFoldResult : Obligations.XorFoldResult := by
  intro s vs hlen hne hle h
  obtain ⟨hexec, hdone⟩ := exec_succeeds (outcomeOf_xorFold hlen hne hle h) (xorDeliver_out_lt _)
  have hout : (xorDeliver (BitVec.ofNat 64 (xorAll vs))).out = xorLines (xorAll vs) := by
    rw [xorDeliver, BitVec.toNat_ofNat, Nat.mod_eq_of_lt (xorAll_lt hle)]
  rw [hout] at hdone
  refine ⟨_, hexec, ?_⟩
  simpa [xorLines, ascii_0x, ascii_0b, lf, xorDeliver] using hdone

/-! The order of the tokens (R135). -/

theorem outcomeOf_xorFold_of_values {s : State} {value : List Byte → Nat} (hlen : s.inLen.toNat ≤ s.params.ibufSize)
    (hne : tokenTexts s.inBytes ≠ []) (h : ∀ k ∈ tokenTexts s.inBytes, Denotes k (value k) ∧ value k ≤ 2 ^ 64 - 1) :
    outcomeOf .xorFold s = .ok (xorDeliver (BitVec.ofNat 64 (xorAll ((tokenTexts s.inBytes).map value)))) := by
  refine outcomeOf_xorFold hlen (by simpa using hne) (List.forall_mem_map.2 fun k hk => (h k hk).2) ?_
  rw [List.forall₂_map_right_iff, List.forall₂_same]
  exact fun k hk => (h k hk).1

/-- Every string that fits IBUF is the input of some state. -/
theorem exists_state_of_input {p : Params} {bs : List Byte} (hp : p.wellFormed = true) (h : bs.length ≤ p.ibufSize) :
    ∃ s : State, s.params = p ∧ s.inLen.toNat ≤ p.ibufSize ∧ s.inBytes = bs := by
  have hl : (BitVec.ofNat 32 bs.length).toNat = bs.length := by
    have := Params.wellFormed_iff.1 hp
    rw [BitVec.toNat_ofNat, Nat.mod_eq_of_lt (by omega)]
  refine ⟨{ State.reset with params := p, inLen := BitVec.ofNat 32 bs.length, mem := Memory.writeBytes [] ibufBase bs },
    rfl, hl.trans_le h, List.ext_getElem (by rw [State.inBytes_length]; exact hl) fun i _ hi => ?_⟩
  simp only [State.inBytes, List.getElem_map, List.getElem_range, State.ibByte, Memory.read?_writeBytes]
  rw [if_pos (by omega), Nat.add_sub_cancel_left, List.getElem?_eq_getElem hi]

/-- Good tokens give the same outcome in any order. -/
theorem outcomeOf_xorFold_perm {s u : State} (hs : s.inLen.toNat ≤ s.params.ibufSize)
    (hu : u.inLen.toNat ≤ u.params.ibufSize) (hperm : (tokenTexts s.inBytes).Perm (tokenTexts u.inBytes))
    (hne : tokenTexts s.inBytes ≠ []) (hgood : ∀ k ∈ tokenTexts s.inBytes, GoodToken k) :
    ∃ acc, outcomeOf .xorFold s = .ok (xorDeliver acc) ∧ outcomeOf .xorFold u = .ok (xorDeliver acc) := by
  choose! value hvalue using hgood
  have hneu : tokenTexts u.inBytes ≠ [] := fun hnil => hne (hnil ▸ hperm).eq_nil
  refine ⟨_, outcomeOf_xorFold_of_values hs hne hvalue, ?_⟩
  rw [xorAll_perm (hperm.map value)]
  exact outcomeOf_xorFold_of_values hu hneu fun k hk => hvalue k (hperm.mem_iff.2 hk)

/-- The two orders of a token of no class, "G", and the token of value 2^64. -/
theorem exists_xorFold_error_by_order : ∃ s u t v : State, s.params = u.params ∧ s.inLen.toNat ≤ s.params.ibufSize ∧
    u.inLen.toNat ≤ u.params.ibufSize ∧ (tokenTexts s.inBytes).Perm (tokenTexts u.inBytes) ∧
    exec .xorFold s = .next t ∧ exec .xorFold u = .next v ∧ t.status.errcode = 3 ∧ v.status.errcode = 9 := by
  have hp : Config.defaultParams.wellFormed = true := by decide
  obtain ⟨s, hsp, hsl, hs⟩ := exists_state_of_input hp (bs := ascii "G,18446744073709551616") (by decide)
  obtain ⟨u, hup, hul, hu⟩ := exists_state_of_input hp (bs := ascii "18446744073709551616,G") (by decide)
  rw [← hsp] at hsl
  rw [← hup] at hul
  have hstokens : tokens s.inBytes = [⟨0, ascii "G"⟩, ⟨2, ascii "18446744073709551616"⟩] := by rw [hs]; decide
  have hutokens : tokens u.inBytes = [⟨0, ascii "18446744073709551616"⟩, ⟨21, ascii "G"⟩] := by rw [hu]; decide
  have hbad : ∀ v, ¬ Denotes (ascii "G") v := tokenValue_eq_none.1 (by decide)
  have hlarge : Denotes (ascii "18446744073709551616") (2 ^ 64) := tokenValue_eq_some.1 (by decide)
  refine ⟨s, u, _, _, hsp.trans hup.symm, hsl, hul, ?_, (exec_fails (outcomeOf_xorFold_error hsl (before := []) hstokens
    (by simp) fun acc => foldTokens_invalid hbad acc _)).1, (exec_fails (outcomeOf_xorFold_error hul (before := []) hutokens
    (by simp) fun acc => foldTokens_tooLarge hlarge (by decide) acc _)).1, rfl, rfl⟩
  rw [tokenTexts, tokenTexts, hstokens, hutokens]
  exact .swap _ _ _

/-- Settles O40: the fold is the XOR of the values in any order, and the loop stops at the first token that is not good. -/
theorem xorFoldIsOrderIndependent : Obligations.XorFoldIsOrderIndependent := by
  refine ⟨fun s u hs hu hperm hne hgood => ?_, exists_xorFold_error_by_order⟩
  obtain ⟨acc, hsacc, huacc⟩ := outcomeOf_xorFold_perm hs hu hperm hne hgood
  obtain ⟨hsexec, hsdone⟩ := exec_succeeds hsacc (xorDeliver_out_lt acc)
  obtain ⟨huexec, hudone⟩ := exec_succeeds huacc (xorDeliver_out_lt acc)
  exact ⟨_, _, hsexec, huexec, rfl, rfl, hudone.res0.trans hsdone.res0.symm, hudone.output.trans hsdone.output.symm⟩

end Sys2Proof.Machine

/-! ### Base64 (42_base64.md) -/

namespace Sys2Proof.Machine

theorem outcomeOf_b64Enc {s : State} (h : s.inLen.toNat ≤ s.params.ibufSize) :
    outcomeOf .b64Enc s = .ok { out := b64Encode s.inBytes } := by
  rw [outcomeOf, State.input_of_le h]; rfl

theorem outcomeOf_b64Dec {s : State} (h : s.inLen.toNat ≤ s.params.ibufSize) :
    outcomeOf .b64Dec s = b64DecOf s.inBytes := by
  rw [outcomeOf, State.input_of_le h]; rfl

/-- B64.ENC completes with the Base64 text of its input (R152). -/
theorem exec_b64Enc {s : State} (hp : s.params.wellFormed = true) (h : s.inLen.toNat ≤ s.params.ibufSize) :
    exec .b64Enc s = .next (s.publish { out := b64Encode s.inBytes }) ∧
      Succeeded s (s.publish { out := b64Encode s.inBytes }) 0 0 0 0 0 (b64Encode s.inBytes) false false :=
  exec_succeeds (outcomeOf_b64Enc h) (outcomeOf_out_lt hp _ (outcomeOf_b64Enc h))

/-! What B64.DEC computes on an input that decodes and on one that does not (R153 to R155). -/

theorem not_b64Decodes_of_mem {bs : List Byte} {c : Byte} (hc : c ∈ bs) (hpad : c ≠ pad) (hsix : ∀ v, ¬ SixBits c v)
    (r : List Byte) : ¬ B64Decodes bs r := by
  intro h
  rcases isB64Pad_iff.1 ((b64Decode_iff.2 h).1 c hc) with hb64 | rfl
  · exact hsix _ (sixBits_iff.2 ⟨hb64, rfl⟩)
  · exact hpad rfl

theorem b64DecOf_of_not_decodes {bs : List Byte} (h : ∀ r, ¬ B64Decodes bs r) : b64DecOf bs = raise .invalidAlphabet := by
  unfold b64DecOf
  split_ifs with hbad
  · rfl
  · have hall : ∀ c ∈ bs, isB64Pad c = true := by simpa using hbad
    cases hdec : b64Decode bs with
    | none => rfl
    | some r => exact absurd (b64Decode_iff.1 ⟨hall, hdec⟩) (h r)

theorem b64DecOf_of_decodes {bs r : List Byte} (h : B64Decodes bs r) :
    b64DecOf bs = if validUtf8 r then .ok { out := r } else raise .invalidUtf8 := by
  obtain ⟨hall, hdec⟩ := b64Decode_iff.2 h
  rw [b64DecOf, List.all_eq_true.2 hall, hdec]
  rfl

theorem b64DecOf_of_utf8 {bs r : List Byte} (h : B64Decodes bs r) (hutf8 : Utf8 r) : b64DecOf bs = .ok { out := r } :=
  (b64DecOf_of_decodes h).trans (if_pos (validUtf8_iff.2 hutf8))

theorem b64DecOf_of_not_utf8 {bs r : List Byte} (h : B64Decodes bs r) (hutf8 : ¬ Utf8 r) :
    b64DecOf bs = raise .invalidUtf8 :=
  (b64DecOf_of_decodes h).trans (if_neg fun hvalid => hutf8 (validUtf8_iff.1 hvalid))

/-- B64.DEC on an input that decodes to valid UTF-8 completes with it (R155). -/
theorem exec_b64Dec_of_utf8 {s : State} {r : List Byte} (hp : s.params.wellFormed = true)
    (hlen : s.inLen.toNat ≤ s.params.ibufSize) (h : B64Decodes s.inBytes r) (hutf8 : Utf8 r) :
    exec .b64Dec s = .next (s.publish { out := r }) ∧ Succeeded s (s.publish { out := r }) 0 0 0 0 0 r false false := by
  have hout := (outcomeOf_b64Dec hlen).trans (b64DecOf_of_utf8 h hutf8)
  exact exec_succeeds hout (outcomeOf_out_lt hp _ hout)

/-! The text of a byte string decodes to that string (R156). -/

/-- A group of four characters in front, which keeps the length a multiple of 4 where it was one. -/
theorem B64Decodes.group {s r : List Byte} (h : B64Decodes s r) {c0 c1 c2 c3 : Byte} {v0 v1 v2 v3 : Nat} (h0 : SixBits c0 v0)
    (h1 : SixBits c1 v1) (h2 : SixBits c2 v2) (h3 : SixBits c3 v3) :
    B64Decodes (c0 :: c1 :: c2 :: c3 :: s)
      (BitVec.ofNat 8 (v0 * 4 + v1 / 16) :: BitVec.ofNat 8 (v1 % 16 * 16 + v2 / 4) :: BitVec.ofNat 8 (v2 % 4 * 64 + v3) ::
        r) := by
  obtain ⟨chars, padding, rfl, hgroups, hpad⟩ := h
  refine ⟨c0 :: c1 :: c2 :: c3 :: chars, padding, rfl, .four _ _ _ _ _ _ _ _ _ _ h0 h1 h2 h3 hgroups, ?_⟩
  exact hpad.imp_right fun ⟨hp, hmod⟩ => ⟨hp, (Nat.add_mod_right _ 4).trans hmod⟩

/-! The three bytes of a group, put together again from its sextets; `x` is what the next byte adds to a sextet. -/

theorem byte_of_sextets_high (a : Byte) {x : Nat} (hx : x < 16) :
    BitVec.ofNat 8 (a.toNat / 4 * 4 + (a.toNat % 4 * 16 + x) / 16) = a :=
  BitVec.eq_of_toNat_eq (by rw [BitVec.toNat_ofNat]; omega)

theorem byte_of_sextets_middle (b : Byte) {a x : Nat} (hx : x < 4) :
    BitVec.ofNat 8 ((a % 4 * 16 + b.toNat / 16) % 16 * 16 + (b.toNat % 16 * 4 + x) / 4) = b :=
  BitVec.eq_of_toNat_eq (by rw [BitVec.toNat_ofNat]; omega)

theorem byte_of_sextets_low (c : Byte) {b : Nat} :
    BitVec.ofNat 8 ((b % 16 * 4 + c.toNat / 64) % 4 * 64 + c.toNat % 64) = c :=
  BitVec.eq_of_toNat_eq (by rw [BitVec.toNat_ofNat]; omega)

/-- In the text of a last group the missing bytes count as 0. -/
theorem B64Encodes.decodes {bytes chars : List Byte} (h : B64Encodes bytes chars) : B64Decodes chars bytes := by
  induction h with
  | nil => exact ⟨[], [], rfl, .nil, .inl rfl⟩
  | one a c0 c1 h0 h1 =>
    have hgroups := B64Groups.two _ _ _ _ h0 h1
    rw [← Nat.add_zero (a.toNat % 4 * 16), byte_of_sextets_high a (by omega)] at hgroups
    exact ⟨[c0, c1], [0x3D, 0x3D], rfl, hgroups, .inr ⟨.inr rfl, by simp⟩⟩
  | two a b c0 c1 c2 h0 h1 h2 =>
    have hgroups := B64Groups.three _ _ _ _ _ _ h0 h1 h2
    rw [← Nat.add_zero (b.toNat % 16 * 4), byte_of_sextets_high a (by omega), byte_of_sextets_middle b (by omega)] at hgroups
    exact ⟨[c0, c1, c2], [0x3D], rfl, hgroups, .inr ⟨.inl rfl, by simp⟩⟩
  | three a b c c0 c1 c2 c3 bytes chars h0 h1 h2 h3 _ ih =>
    have hgroup := ih.group h0 h1 h2 h3
    rwa [byte_of_sextets_high a (by omega), byte_of_sextets_middle b (by omega), byte_of_sextets_low] at hgroup

/-- Settles O41: the coder's text is the text of R151, and its length is that of the output. -/
theorem b64EncResult : Obligations.B64EncResult := by
  intro s hp hlen
  obtain ⟨hexec, hdone⟩ := exec_b64Enc hp hlen
  exact ⟨_, _, hexec, b64Encode_encodes _, hdone, by rw [hdone.outLen, b64Encode_length, State.inBytes_length]⟩

/-- Settles O42: a byte outside the alphabet leaves nothing to decode to, and then the outcome follows the decoded bytes. -/
theorem b64DecResult : Obligations.B64DecResult := by
  intro s hp hlen
  refine ⟨fun hbad => ?_, fun r hdec => ⟨fun hutf8 => ?_, fun hutf8 => ?_⟩⟩
  · have hnone : ∀ r, ¬ B64Decodes s.inBytes r := by
      rcases hbad with ⟨c, hc, hpad, hsix⟩ | hnone
      · exact not_b64Decodes_of_mem hc hpad hsix
      · exact hnone
    exact ⟨_, exec_fails ((outcomeOf_b64Dec hlen).trans (b64DecOf_of_not_decodes hnone))⟩
  · exact ⟨_, exec_fails ((outcomeOf_b64Dec hlen).trans (b64DecOf_of_not_utf8 hdec hutf8))⟩
  · exact ⟨_, exec_b64Dec_of_utf8 hp hlen hdec hutf8⟩

/-- Settles O43: the text that B64.ENC puts out decodes to the input, which B64.DEC finds to be valid UTF-8. -/
theorem b64RoundTrip : Obligations.B64RoundTrip := by
  intro s u t hp hup hlen hutf8 hexec hcopy hulen
  obtain ⟨henc, hdone⟩ := exec_b64Enc hp hlen
  obtain rfl := Host.Outcome.next.inj (hexec.symm.trans henc)
  have hdec : B64Decodes u.inBytes s.inBytes := by
    rw [hcopy, hdone.output]
    exact (b64Encode_encodes _).decodes
  obtain ⟨hrun, hresult⟩ := exec_b64Dec_of_utf8 hup hulen hdec hutf8
  exact ⟨_, hrun, rfl, hresult.output⟩

end Sys2Proof.Machine

/-! ### Radix conversion (43_base_converter.md) -/

namespace Sys2Proof.Machine

theorem outcomeOf_bconv {i : Instr} {r : Radix} {s : State} (hi : bconvRadixOf i = some r)
    (h : s.inLen.toNat ≤ s.params.ibufSize) : outcomeOf i s = bconvOf r s.inBytes := by
  cases i
  case bconvR2 | bconvR8 | bconvR10 | bconvR16 =>
    obtain rfl := Option.some.inj hi
    rw [outcomeOf, State.input_of_le h]
    rfl
  all_goals cases hi

/-! The tests of R181, in order. -/

theorem bconvOf_nil (r : Radix) : bconvOf r [] = raise .emptyInput := rfl

theorem bconvOf_of_bad_digit {r : Radix} {bs : List Byte} {c : Byte} (hc : c ∈ bs) (hbad : radixDigit r c = false) :
    bconvOf r bs = raise .invalidDigitForRadix := by
  have hall : bs.all (radixDigit r) = false := List.all_eq_false.2 ⟨c, hc, by simp [hbad]⟩
  rw [bconvOf, bconvValue, if_neg (List.ne_nil_of_mem hc), hall]
  rfl

/-- On digits of the radix only the magnitude is left to test. -/
theorem bconvValue_of_digits {r : Radix} {bs : List Byte} (h : Digits (radixDigit r) bs) :
    bconvValue r bs = if Config.magMax < digitsVal (radixBase r) bs then raise .magnitudeOutOfRange
      else .ok (digitsVal (radixBase r) bs) := by
  obtain ⟨hne, hdigits⟩ := h
  rw [bconvValue, if_neg hne, List.all_eq_true.2 hdigits]
  rfl

theorem bconvOf_of_too_large {r : Radix} {bs : List Byte} (h : Digits (radixDigit r) bs)
    (hm : Config.magMax < digitsVal (radixBase r) bs) : bconvOf r bs = raise .magnitudeOutOfRange := by
  rw [bconvOf, bconvValue_of_digits h, if_pos hm]
  rfl

theorem bconvOf_of_digits {r : Radix} {bs : List Byte} (h : Digits (radixDigit r) bs)
    (hm : digitsVal (radixBase r) bs ≤ Config.magMax) :
    bconvOf r bs = .ok { res0 := BitVec.ofNat 64 (digitsVal (radixBase r) bs)
                         out := radixLines r (digitsVal (radixBase r) bs) } := by
  rw [bconvOf, bconvValue_of_digits h, if_neg (Nat.not_lt.2 hm)]
  rfl

/-- A BCONV command on digits of its radix completes with their magnitude and its lines. -/
theorem exec_bconv {i : Instr} {r : Radix} {s : State} (hi : bconvRadixOf i = some r)
    (hlen : s.inLen.toNat ≤ s.params.ibufSize) (h : Digits (radixDigit r) s.inBytes)
    (hm : digitsVal (radixBase r) s.inBytes ≤ Config.magMax) :
    ∃ t, exec i s = .next t ∧ t.status.errcode = 0 ∧
      Succeeded s t (BitVec.ofNat 64 (digitsVal (radixBase r) s.inBytes)) 0 0 0 0
        (radixLines r (digitsVal (radixBase r) s.inBytes)) false false := by
  obtain ⟨hexec, hdone⟩ := exec_succeeds ((outcomeOf_bconv hi hlen).trans (bconvOf_of_digits h hm))
    ((radixLines_length_le r hm).trans_lt (by omega))
  exact ⟨_, hexec, rfl, hdone⟩

/-! The lines of R182. -/

theorem ascii_0o : ascii "0o" = [0x30, 0x6F] := by decide

/-- The lines of R182 one radix at a time, with their bytes. -/
theorem radixLines_eq (src : Radix) (m : Nat) : radixLines src m =
    (if src = .r2 then [] else [0x30, 0x62] ++ renderBin m ++ [0x0A]) ++
      (if src = .r8 then [] else [0x30, 0x6F] ++ renderOct m ++ [0x0A]) ++
      (if src = .r10 then [] else renderDec m ++ [0x0A]) ++
      (if src = .r16 then [] else [0x30, 0x78] ++ renderHex m ++ [0x0A]) := by
  cases src <;>
    simp [radixLines, radixLine, radixMark, radixDigits, radixBase, ascii_0b, ascii_0o, ascii_0x, lf, renderBin, renderOct,
      renderDec, renderHex]

/-- After any number of lines a new line begins. -/
theorem flatMap_radixLine_ends (L : List Radix) (m : Nat) :
    (L.flatMap fun q => radixLine q m) = [] ∨ (L.flatMap fun q => radixLine q m).getLast? = some lf := by
  rcases List.eq_nil_or_concat' L with rfl | ⟨L, q, rfl⟩
  · exact .inl rfl
  · exact .inr (by simp [radixLine])

/-- The line of every radix but the source's stands in the output, begun at a line start. -/
theorem exists_radixLine_in_radixLines {src r : Radix} (h : r ≠ src) (m : Nat) :
    ∃ above below, radixLines src m = above ++ radixLine r m ++ below ∧ (above = [] ∨ above.getLast? = some lf) := by
  have hr : r ∈ [Radix.r2, .r8, .r10, .r16].filter (fun q => q ≠ src) :=
    List.mem_filter.2 ⟨by cases r <;> decide, decide_eq_true h⟩
  obtain ⟨before, after, hsplit⟩ := List.append_of_mem hr
  refine ⟨_, after.flatMap fun q => radixLine q m, ?_, flatMap_radixLine_ends before m⟩
  rw [radixLines, hsplit, List.flatMap_append, List.flatMap_cons, List.append_assoc]

/-- Settles O45: the tests of R181 all pass, and the lines are those of R182. -/
theorem bconvResult : Obligations.BconvResult := by
  intro i r s hi hlen h hm
  obtain ⟨t, hexec, -, hdone⟩ := exec_bconv hi hlen h hm
  exact ⟨t, hexec, radixLines_eq r _ ▸ hdone⟩

/-- Settles O46: the test of R181 that fails in each case. -/
theorem bconvErrors : Obligations.BconvErrors := by
  intro i r s hi hlen
  have hout := outcomeOf_bconv hi hlen
  refine ⟨fun h0 => ?_, fun ⟨c, hc, hbad⟩ => ?_, fun h hm => ?_⟩
  · have hnil : s.inBytes = [] := List.eq_nil_of_length_eq_zero (by rw [State.inBytes_length, h0]; rfl)
    exact ⟨_, exec_fails (hout.trans (hnil ▸ bconvOf_nil r))⟩
  · exact ⟨_, exec_fails (hout.trans (bconvOf_of_bad_digit hc hbad))⟩
  · exact ⟨_, exec_fails (hout.trans (bconvOf_of_too_large h hm))⟩

/-- Settles O47: canonical digits read back as the magnitude (`digitsVal_render`), and each other radix has its line. -/
theorem bconvRoundTrip : Obligations.BconvRoundTrip := by
  intro i q r m s hi hr hm hlen hin
  have hval : digitsVal (radixBase q) s.inBytes = m := by
    rw [hin]
    exact digitsVal_render (one_lt_radixBase q) (radixBase_le q) m
  obtain ⟨t, hexec, herr, hdone⟩ := exec_bconv hi hlen (hin ▸ digits_radixDigits q m) (hval.le.trans hm)
  rw [hval] at hdone
  obtain ⟨above, below, hlines, hstart⟩ := exists_radixLine_in_radixLines hr m
  exact ⟨t, hexec, herr, hdone.res0, above, below, hdone.output.trans hlines, hstart⟩

end Sys2Proof.Machine

/-! ### Storage units (44_storage_units.md) -/

namespace Sys2Proof.Machine

theorem outcomeOf_stor {i : Instr} {u : StorUnit} {s : State} (hi : storUnitOf i = some u)
    (h : s.inLen.toNat ≤ s.params.ibufSize) : outcomeOf i s = storOf u s.inBytes := by
  cases i
  case storReg | storBit | storByte | storKb | storMb | storGb =>
    obtain rfl := Option.some.inj hi
    rw [outcomeOf, State.input_of_le h]
    rfl
  all_goals cases hi

/-- Command `i` is STOR under the unit `u`, and the input string of `s` lies within IBUF and is trimmed to `core` (R200). -/
structure StorInput (i : Instr) (u : StorUnit) (s : State) (core : List Byte) : Prop where
  unit : storUnitOf i = some u
  fits : s.inLen.toNat ≤ s.params.ibufSize
  trim : trimWs s.inBytes = core

theorem StorInput.outcome {i : Instr} {u : StorUnit} {s : State} {core : List Byte} (h : StorInput i u s core) :
    outcomeOf i s = (storBytes u core).bind storDeliver := by
  rw [outcomeOf_stor h.unit h.fits, storOf, h.trim]

theorem trimWs_of_input {s : State} {lead core trail : List Byte} (hin : s.inBytes = lead ++ core ++ trail)
    (hws : ∀ c ∈ lead ++ trail, isWs c = true) (hcore : Trimmed core) : trimWs s.inBytes = core := by
  rw [hin, trimWs_eq hws hcore]

theorem storDeliver_of_inf {bytes : DWord} (h : F64.isInf (storBits bytes) = true) :
    storDeliver bytes = raise .magnitudeOutOfRange := if_pos h

/-- A STOR command completes with the quantities of its number of bytes, unless the bits overflow (R205, R209, R210). -/
theorem StorInput.leaves {i : Instr} {u : StorUnit} {s : State} {core : List Byte} {bytes : DWord}
    (h : StorInput i u s core) (hbytes : storBytes u core = .ok bytes) (hbits : F64.isInf (storBits bytes) = false) :
    ∃ t, exec i s = .next t ∧ StorLeaves s t bytes := by
  have hout : outcomeOf i s = storDeliver bytes := by rw [h.outcome, hbytes]; rfl
  rw [storDeliver, if_neg (by simp [hbits])] at hout
  exact ⟨_, exec_succeeds hout ((storLines_length_le bytes).trans_lt (by omega))⟩

theorem StorInput.fails {i : Instr} {u : StorUnit} {s : State} {core : List Byte} {k : ErrorKind}
    (h : StorInput i u s core) (hraise : (storBytes u core).bind storDeliver = raise k) :
    ∃ t, exec i s = .next t ∧ Failed s t k 0 0 :=
  ⟨_, exec_fails (h.outcome.trans hraise)⟩

/-! Shapes are their own `trimWS` (R200). -/

theorem isWs_of_isHex {c : Byte} : isHex c = true → isWs c = false := by revert c; decide

theorem isHex_of_isDec {c : Byte} (h : isDec c = true) : isHex c = true := by simp [isHex, h]

theorem isWs_of_isDec {c : Byte} (h : isDec c = true) : isWs c = false := isWs_of_isHex (isHex_of_isDec h)

theorem trimmed_of_forall {core : List Byte} (h : ∀ c ∈ core, isWs c = false) : Trimmed core := fun c hc =>
  h c (hc.elim List.mem_of_mem_head? List.mem_of_getLast?)

theorem trimmed_of_ends {front middle back : List Byte} (hf : front ≠ []) (hb : back ≠ [])
    (hws : ∀ c ∈ front ++ back, isWs c = false) : Trimmed (front ++ middle ++ back) := by
  rintro c (hc | hc)
  · rw [List.append_assoc, List.head?_append_of_ne_nil _ hf] at hc
    exact hws c (List.mem_append_left _ (List.mem_of_mem_head? hc))
  · rw [List.getLast?_append_of_ne_nil _ hb] at hc
    exact hws c (List.mem_append_right _ (List.mem_of_getLast? hc))

theorem Digits.trimmed {core : List Byte} (h : Digits isDec core) : Trimmed core :=
  trimmed_of_forall fun c hc => isWs_of_isDec (h.2 c hc)

theorem HexShape.mem {core h : List Byte} (hs : HexShape core h) {c : Byte} (hc : c ∈ core) : c = 0x78 ∨ isHex c = true := by
  obtain ⟨hd, rfl⟩ := hs
  simp only [List.cons_append, List.nil_append, List.mem_cons] at hc
  rcases hc with rfl | rfl | hc
  · exact .inr (by decide)
  · exact .inl rfl
  · exact .inr (hd.2 c hc)

theorem HexShape.trimmed {core h : List Byte} (hs : HexShape core h) : Trimmed core :=
  trimmed_of_forall fun _ hc => (hs.mem hc).elim (fun e => by rw [e]; decide) isWs_of_isHex

theorem RangeShape.trimmed {core hs he : List Byte} (h : RangeShape core hs he) : Trimmed core := by
  obtain ⟨-, ⟨hne, hhex⟩, w1, w2, -, rfl⟩ := h
  have hends : ∀ c ∈ ([0x30] : List Byte) ++ he, isWs c = false := by
    intro c hc
    rcases List.mem_cons.1 hc with rfl | hc
    · decide
    · exact isWs_of_isHex (hhex c hc)
  have := trimmed_of_ends (middle := [0x78] ++ hs ++ w1 ++ [0x2D] ++ w2 ++ [0x30, 0x78]) (by simp) hne hends
  simpa using this

theorem PlainNumber.trimmed {core whole frac : List Byte} (h : PlainNumber core whole frac) : Trimmed core := by
  obtain ⟨hw, ⟨rfl, -⟩ | ⟨hf, rfl⟩⟩ := h
  · exact hw.trimmed
  · refine trimmed_of_ends hw.1 hf.1 fun c hc => ?_
    exact isWs_of_isDec ((List.mem_append.1 hc).elim (hw.2 c) (hf.2 c))

/-! The number of bytes of register mode (R201, R202). The shapes exclude each other: a range has a "-", a hex number an "x". -/

theorem rangeShape_eq_none {core : List Byte} (h : (0x2D : Byte) ∉ core) : rangeShape core = none := by
  rw [Option.eq_none_iff_forall_ne_some]
  rintro ⟨hs, he⟩ hr
  obtain ⟨-, -, w1, w2, -, rfl⟩ := rangeShape_eq_some.1 hr
  exact h (by simp)

theorem hexShape_eq_none {core : List Byte} (h : (0x78 : Byte) ∉ core) : hexShape core = none := by
  rw [Option.eq_none_iff_forall_ne_some]
  intro d hd
  obtain ⟨-, rfl⟩ := hexShape_eq_some.1 hd
  exact h (by simp)

theorem Digits.not_mem {p : Byte → Bool} {s : List Byte} (h : Digits p s) {c : Byte} (hc : p c = false) : c ∉ s :=
  fun hm => by simp [h.2 c hm] at hc

theorem regBytes_of_range {core hs he : List Byte} (h : RangeShape core hs he) :
    regBytes core = (rangeCount (digitsVal 16 hs) (digitsVal 16 he)).bind countToF64 := by
  rw [regBytes, rangeShape_eq_some.2 h]

theorem regBytes_of_hex {core h : List Byte} (hs : HexShape core h) : regBytes core = countToF64 (digitsVal 16 h) := by
  have hdash : (0x2D : Byte) ∉ core := fun hm => absurd (hs.mem hm) (by decide)
  rw [regBytes, rangeShape_eq_none hdash, hexShape_eq_some.2 hs]

theorem regBytes_of_dec {core : List Byte} (h : Digits isDec core) : regBytes core = countToF64 (digitsVal 10 core) := by
  have hdec : decShape core = true := by simpa [decShape, digits_iff] using h
  rw [regBytes, rangeShape_eq_none (h.not_mem (by decide)), hexShape_eq_none (h.not_mem (by decide)), hdec]
  rfl

theorem regBytes_of_no_shape {core : List Byte} (h : ¬ RegisterShape core) : regBytes core = raise .invalidNumericFormat := by
  simp only [registerShape_iff, not_or, Bool.not_eq_true, Option.isSome_eq_false_iff, Option.isNone_iff_eq_none] at h
  obtain ⟨hrange, hhex, hdec⟩ := h
  rw [regBytes, hrange, hhex, hdec]
  rfl

theorem countToF64_of_le {n : Nat} (h : n ≤ 2 ^ 64 - 1) : countToF64 n = .ok (F64.ofNat n) := if_neg (Nat.not_lt.2 h)

theorem countToF64_of_gt {n : Nat} (h : 2 ^ 64 - 1 < n) : countToF64 n = raise .magnitudeOutOfRange := if_pos h

theorem rangeCount_of_too_large {a e : Nat} (h : 2 ^ 64 - 1 < a ∨ 2 ^ 64 - 1 < e) :
    rangeCount a e = raise .magnitudeOutOfRange := if_pos h

theorem rangeCount_of_le {a e : Nat} (ha : a ≤ e) (he : e ≤ 2 ^ 64 - 1) : rangeCount a e = .ok (e - a + 1) := by
  have hmax : ¬ (Config.magMax < a ∨ Config.magMax < e) := by rw [show Config.magMax = 2 ^ 64 - 1 from rfl]; omega
  rw [rangeCount, if_neg hmax, if_neg (Nat.not_lt.2 ha)]

theorem rangeCount_of_end_lt {a e : Nat} (ha : a ≤ 2 ^ 64 - 1) (he : e < a) : rangeCount a e = raise .invalidRange := by
  have hmax : ¬ (Config.magMax < a ∨ Config.magMax < e) := by rw [show Config.magMax = 2 ^ 64 - 1 from rfl]; omega
  rw [rangeCount, if_neg hmax, if_pos he]

/-! The bits of a count within 64 bits are finite. -/

namespace F64

theorem mul_finite {a b : DWord} (ha : FiniteBits a) (hb : FiniteBits b)
    (h : exactUnits a * exactUnits b < 2 ^ 1074 * (2 ^ 2098 - 2 ^ 2044)) : FiniteBits (mul a b) :=
  ((productsRoundOnce a b).1 ha hb).finite h

theorem exactUnits_eight : exactUnits (ofNat 8) = 8 * 2 ^ 1074 := by decide +kernel

theorem finite_eight : FiniteBits (ofNat 8) := isFinite_iff.1 (by decide +kernel)

theorem two_pow_lt_overflow {k : Nat} (hk : k ≤ 970) : 2 ^ k < 2 ^ 1024 - 2 ^ 970 := by
  have hle : 2 ^ k ≤ 2 ^ 970 := pow_le_pow_right₀ one_le_two hk
  have hpos : 0 < 2 ^ 970 := pow_pos two_pos _
  rw [show 1024 = 54 + 970 from rfl, pow_add]
  generalize 2 ^ 970 = a at *
  omega

/-- Zero being no nearer, a rounded count is at most twice the count. -/
theorem ofNat_finite_le {n : Nat} (h : n ≤ 2 ^ 64 - 1) :
    FiniteBits (ofNat n) ∧ exactUnits (ofNat n) ≤ 2 ^ 65 * 2 ^ 1074 := by
  have hround := ofNat_roundsTo n
  have hbelow : n * 2 ^ 1074 < 1 * (2 ^ 2098 - 2 ^ 2044) := by
    rw [overflow_threshold_units, Nat.one_mul]
    exact Nat.mul_lt_mul_of_pos_right ((show n < 2 ^ 64 by omega).trans (two_pow_lt_overflow (by omega)))
      (by positivity)
  refine ⟨hround.finite hbelow, ?_⟩
  have hnear := (hround.nearest hbelow 0 (isFinite_iff.1 (by decide))).1
  rw [show exactUnits 0 = 0 by decide] at hnear
  have hn : n * 2 ^ 1074 ≤ 2 ^ 64 * 2 ^ 1074 := Nat.mul_le_mul_right _ (by omega)
  generalize 2 ^ 1074 = one at *
  omega

end F64

theorem isInf_storBits_ofNat {n : Nat} (h : n ≤ 2 ^ 64 - 1) : F64.isInf (storBits (F64.ofNat n)) = false := by
  obtain ⟨hfin, hle⟩ := F64.ofNat_finite_le h
  refine (F64.of_finite (F64.mul_finite hfin F64.finite_eight ?_)).2
  have hpow : 2 ^ 68 < 2 ^ 1024 - 2 ^ 970 := F64.two_pow_lt_overflow (by omega)
  have hone : 0 < 2 ^ 1074 := by positivity
  rw [F64.exactUnits_eight, F64.overflow_threshold_units]
  generalize 2 ^ 1074 = one, 2 ^ 1024 - 2 ^ 970 = limit at *
  calc exactUnits (F64.ofNat n) * (8 * one)
      ≤ 2 ^ 65 * one * (8 * one) := Nat.mul_le_mul_right _ hle
    _ = one * (2 ^ 68 * one) := by ring
    _ < one * (limit * one) := Nat.mul_lt_mul_of_pos_left (Nat.mul_lt_mul_of_pos_right hpow hone) hone

/-- STOR.REG completes with the quantities of a count within 64 bits. -/
theorem StorInput.leaves_count {s : State} {core : List Byte} {n : Nat} (h : StorInput .storReg .register s core)
    (hbytes : regBytes core = countToF64 n) (hn : n ≤ 2 ^ 64 - 1) :
    ∃ t, exec .storReg s = .next t ∧ StorLeaves s t (F64.ofNat n) :=
  h.leaves (hbytes.trans (countToF64_of_le hn)) (isInf_storBits_ofNat hn)

theorem StorInput.fails_register {s : State} {core : List Byte} {k : ErrorKind} (h : StorInput .storReg .register s core)
    (hbytes : regBytes core = raise k) : ∃ t, exec .storReg s = .next t ∧ Failed s t k 0 0 :=
  h.fails (by rw [storBytes, hbytes]; rfl)

/-- Settles O48: each shape is its own `trimWS` and gives its count, whose bits are finite. -/
theorem storRegResult : Obligations.StorRegResult := by
  intro s lead core trail hlen hin hws
  have hinput : Trimmed core → StorInput .storReg .register s core := fun hc => ⟨rfl, hlen, trimWs_of_input hin hws hc⟩
  refine ⟨fun hd hn => ?_, fun h hcore hd hn => ?_, fun hs w1 w2 he hcore hhs hhe hw hle hend hn => ?_⟩
  · exact (hinput hd.trimmed).leaves_count (regBytes_of_dec hd) hn
  · have hshape : HexShape core h := ⟨hd, hcore⟩
    exact (hinput hshape.trimmed).leaves_count (regBytes_of_hex hshape) hn
  · have hshape : RangeShape core hs he := ⟨hhs, hhe, w1, w2, hw, hcore⟩
    refine (hinput hshape.trimmed).leaves_count ?_ hn
    rw [regBytes_of_range hshape, rangeCount_of_le hle hend]
    rfl

/-- Settles O49: the test of R202 that fails in each case. -/
theorem storRegErrors : Obligations.StorRegErrors := by
  intro s lead core trail hlen hin hws hcore
  have hinput : StorInput .storReg .register s core := ⟨rfl, hlen, trimWs_of_input hin hws hcore⟩
  refine ⟨fun hnone => ?_, fun hd hn => ?_, fun h hshape hn => ?_, fun hs he hshape => ⟨fun hn => ?_, fun ha hlt => ?_,
    fun ha he => ?_⟩⟩ <;> refine hinput.fails_register ?_
  · exact regBytes_of_no_shape hnone
  · rw [regBytes_of_dec hd, countToF64_of_gt hn]
  · rw [regBytes_of_hex hshape, countToF64_of_gt hn]
  · rw [regBytes_of_range hshape, rangeCount_of_too_large hn]; rfl
  · rw [regBytes_of_range hshape, rangeCount_of_end_lt ha hlt]; rfl
  · rw [regBytes_of_range hshape, rangeCount_of_le (by omega) he.le, ha, he]; rfl

/-! The number of bytes of the unit commands (R203, R204). -/

theorem plainValue_of_plain {core whole frac : List Byte} (h : PlainNumber core whole frac) :
    plainValue core =
      if F64.isInf (plainF64 whole frac) then raise .magnitudeOutOfRange else .ok (plainF64 whole frac) := by
  rw [plainValue, plainShape_eq_some.2 h]
  rfl

theorem plainValue_of_no_plain {core : List Byte} (h : ∀ whole frac, ¬ PlainNumber core whole frac) :
    plainValue core = raise .invalidNumericFormat := by
  have hnone : plainShape core = none :=
    Option.eq_none_iff_forall_ne_some.2 fun ⟨whole, frac⟩ hs => h whole frac (plainShape_eq_some.1 hs)
  rw [plainValue, hnone]

theorem storBytes_of_unit {u : StorUnit} (hu : u ≠ .register) (core : List Byte) :
    storBytes u core = (plainValue core).bind fun v =>
      if F64.isInf (unitBytes u v) then raise .magnitudeOutOfRange else .ok (unitBytes u v) := by
  cases u
  case register => exact absurd rfl hu
  all_goals rfl

theorem storBytes_of_no_plain {u : StorUnit} {core : List Byte} (hu : u ≠ .register)
    (h : ∀ whole frac, ¬ PlainNumber core whole frac) : storBytes u core = raise .invalidNumericFormat := by
  rw [storBytes_of_unit hu, plainValue_of_no_plain h]
  rfl

theorem storBytes_of_plain {u : StorUnit} {core whole frac : List Byte} (hu : u ≠ .register)
    (h : PlainNumber core whole frac) : storBytes u core =
      if F64.isInf (plainF64 whole frac) || F64.isInf (unitBytes u (plainF64 whole frac)) then raise .magnitudeOutOfRange
      else .ok (unitBytes u (plainF64 whole frac)) := by
  rw [storBytes_of_unit hu, plainValue_of_plain h]
  cases F64.isInf (plainF64 whole frac) <;> rfl

theorem PlainNumber.mem {core whole frac : List Byte} (h : PlainNumber core whole frac) {c : Byte} (hc : c ∈ core) :
    (isDec c || c == 0x2E) = true := by
  obtain ⟨hw, ⟨rfl, -⟩ | ⟨hf, rfl⟩⟩ := h
  · simp [hw.2 c hc]
  · simp only [List.mem_append, List.mem_singleton] at hc
    rcases hc with (hc | rfl) | hc
    · simp [hw.2 c hc]
    · rfl
    · simp [hf.2 c hc]

theorem PlainNumber.ne_nil {core whole frac : List Byte} (h : PlainNumber core whole frac) : core ≠ [] := by
  obtain ⟨hw, ⟨rfl, -⟩ | ⟨-, rfl⟩⟩ := h
  · exact hw.1
  · simp

/-- The ceiling is the one count between `v / 8` and `v / 8 + 1`. -/
theorem eq_ceilEighth {v : DWord} {n : Nat} (hle : F64.units v ≤ 8 * n * 2 ^ 1074)
    (hlt : 8 * n * 2 ^ 1074 < F64.units v + 8 * 2 ^ 1074) : n = ceilEighth v := by
  have hpos : 0 < 8 * F64.one := Nat.mul_pos (by omega) F64.one_pos
  rw [← F64.one_eq, Nat.mul_comm 8 n, Nat.mul_assoc] at hle hlt
  rw [ceilEighth]
  generalize 8 * F64.one = eight at *
  exact (Nat.div_eq_of_lt_le (by omega) (by rw [Nat.succ_mul]; omega)).symm

theorem storUnitOf_of_unitBytes {i : Instr} {v bytes : DWord} (h : UnitBytes i v bytes) :
    ∃ u, storUnitOf i = some u ∧ u ≠ .register ∧ unitBytes u v = bytes := by
  cases i
  case storBit =>
    obtain ⟨n, hle, hlt, rfl⟩ := h
    exact ⟨.bit, rfl, by decide, by rw [eq_ceilEighth hle hlt]; rfl⟩
  case storByte => exact ⟨.byte, rfl, by decide, h.symm⟩
  case storKb => exact ⟨.kb, rfl, by decide, h.symm⟩
  case storMb => exact ⟨.mb, rfl, by decide, h.symm⟩
  case storGb => exact ⟨.gb, rfl, by decide, h.symm⟩
  all_goals exact h.elim

theorem storUnitOf_ne_register {i : Instr} {u : StorUnit} (h : storUnitOf i = some u) (hi : i ≠ .storReg) :
    u ≠ .register := by
  rintro rfl
  cases i
  case storReg => exact hi rfl
  all_goals cases h

/-- An infinite number of bytes has infinite bits. -/
theorem isInf_storBits_of_isInf {bytes : DWord} (h : F64.isInf bytes = true) : F64.isInf (storBits bytes) = true := by
  have height : exactUnits (F64.ofNat 8) ≠ 0 := by rw [F64.exactUnits_eight]; positivity
  rw [storBits, (F64.productsRoundOnce bytes _).2.1 (F64.isInf_iff.1 h) (.inr ⟨F64.finite_eight, height⟩)]
  generalize (bytes.msb ^^ (F64.ofNat 8).msb) = negative
  cases negative <;> decide

theorem not_isInf_of_isFinite {x : DWord} (h : F64.isFinite x = true) : F64.isInf x = false :=
  (F64.of_finite (F64.isFinite_iff.1 h)).2

/-- Settles O50: the value and the bits being finite, so are the bytes, and no test of R203 to R205 fails. -/
theorem storUnitResult : Obligations.StorUnitResult := by
  intro i s lead core trail whole frac bytes hlen hin hws hplain hunit hvalue hbits
  obtain ⟨u, hi, hu, rfl⟩ := storUnitOf_of_unitBytes hunit
  have hinput : StorInput i u s core := ⟨hi, hlen, trimWs_of_input hin hws hplain.trimmed⟩
  have hbitsInf : F64.isInf (storBits (unitBytes u (plainF64 whole frac))) = false := not_isInf_of_isFinite hbits
  have hbytesInf : F64.isInf (unitBytes u (plainF64 whole frac)) = false := by
    rw [← Bool.not_eq_true]
    exact fun hinf => by simp [isInf_storBits_of_isInf hinf] at hbitsInf
  refine hinput.leaves ?_ hbitsInf
  rw [storBytes_of_plain hu hplain, not_isInf_of_isFinite hvalue, hbytesInf]
  rfl

/-- Settles O51: no shape of R203 is found, or one of the three tests for an infinity fails. -/
theorem storUnitRejects : Obligations.StorUnitRejects := by
  intro i s lead core trail hstor hreg hlen hin hws hcore
  obtain ⟨u, hi⟩ := Option.isSome_iff_exists.1 hstor
  have hu := storUnitOf_ne_register hi hreg
  have hinput : StorInput i u s core := ⟨hi, hlen, trimWs_of_input hin hws hcore⟩
  have hnone : (∀ whole frac, ¬ PlainNumber core whole frac) →
      ∃ t, exec i s = .next t ∧ Failed s t .invalidNumericFormat 0 0 :=
    fun h => hinput.fails (by rw [storBytes_of_no_plain hu h]; rfl)
  refine ⟨hnone, fun hbad => hnone fun whole frac hplain => ?_, fun whole frac bytes hplain hunit hinf => ?_⟩
  · rcases hbad with ⟨c, hc, hbad⟩ | hnil
    · exact Bool.false_ne_true (hbad.symm.trans (hplain.mem hc))
    · exact hplain.ne_nil hnil
  · obtain ⟨u', hi', -, rfl⟩ := storUnitOf_of_unitBytes hunit
    obtain rfl := Option.some.inj (hi.symm.trans hi')
    refine hinput.fails ?_
    rw [storBytes_of_plain hu hplain]
    split_ifs with htest
    · rfl
    · simp only [Bool.or_eq_true, not_or] at htest
      have hbits := (hinf.resolve_left htest.1).resolve_left htest.2
      exact storDeliver_of_inf hbits

/-! Which lines are put out (R206 to R208, R210). -/

/-- Patterns of positive sign are in the order of their values. -/
theorem F64.le_eq_units_le {a b : DWord} (ha : F64.isFinite a = true) (hb : F64.isFinite b = true)
    (hsa : F64.sign a = false) (hsb : F64.sign b = false) :
    F64.le a b = decide (F64.units a ≤ F64.units b) := by
  have hna := (F64.of_finite (F64.isFinite_iff.1 ha)).1
  have hnb := (F64.of_finite (F64.isFinite_iff.1 hb)).1
  simp [F64.le, hna, hnb, F64.key, hsa, hsb, F64.units, F64.magUnits_strictMono.le_iff_le]

theorem storThreshold_eq : storThreshold = 0x3F50624DD2F1A9FC := by decide +kernel

theorem F64.units_hundred : F64.units (F64.ofNat 100) = 100 * 2 ^ 1074 := by decide +kernel

theorem F64.units_ten : F64.units (F64.ofNat 10) = 10 * 2 ^ 1074 := by decide +kernel

theorem unitLine_eq (name : List Byte) {x : DWord} (hfin : F64.isFinite x = true) (hpos : F64.sign x = false) :
    unitLine name x =
      if F64.units storThreshold ≤ F64.units x then
        name ++ [0x3D] ++
          F64.fixed x (if 100 * 2 ^ 1074 ≤ F64.units x then 0 else if 10 * 2 ^ 1074 ≤ F64.units x then 1 else 3) ++ [0x0A]
      else [] := by
  have hle : ∀ a, F64.isFinite a = true → F64.sign a = false → F64.le a x = decide (F64.units a ≤ F64.units x) :=
    fun a ha hsa => F64.le_eq_units_le ha hfin hsa hpos
  rw [unitLine, unitText, hle storThreshold (by decide +kernel) (by decide +kernel),
    hle (F64.ofNat 100) (by decide +kernel) (by decide +kernel), hle (F64.ofNat 10) (by decide +kernel) (by decide +kernel),
    F64.units_hundred, F64.units_ten]
  simp only [decide_eq_true_eq]
  rfl

theorem isInteger_iff {x : DWord} : F64.isInteger x = true ↔ 2 ^ 1074 ∣ F64.units x := by
  rw [F64.isInteger, decide_eq_true_iff, F64.one_eq, Nat.dvd_iff_mod_eq_zero]

/-- Settles O54: patterns of positive sign are compared by their values, and an integer is a multiple of `2^1074` units. -/
theorem storageLinesFollowTheValues : Obligations.StorageLinesFollowTheValues := by
  refine ⟨storThreshold_eq, fun name x hfin hpos => unitLine_eq name hfin hpos, fun x => ⟨fun h => ?_, fun h => ?_⟩,
    fun bytes => ?_⟩
  · rw [countText, if_pos (isInteger_iff.2 h)]
  · rw [countText, if_neg (isInteger_iff.not.2 h)]
  · rfl

/-! The range "0x0000-0x4000" (R219). -/

theorem storQuantities_16385 : F64.mul (F64.ofNat 16385) (F64.ofNat 8) = 0x4100004000000000 ∧
    F64.ofNat 16385 = 0x40D0004000000000 ∧ F64.div (F64.ofNat 16385) (F64.ofNat 1024) = 0x4030004000000000 ∧
    F64.div (F64.ofNat 16385) (F64.ofNat 1048576) = 0x3F90004000000000 ∧
    F64.div (F64.ofNat 16385) (F64.ofNat 1073741824) = 0x3EF0004000000000 := by decide +kernel

theorem storLines_16385 : storLines (F64.ofNat 16385) =
    ascii "bits=131080\nbytes=16385\nKB=16.0\nMB=0.016\n" := by decide +kernel

/-- Settles O52: the input is a range of 16385 bytes (O48), whose quantities and lines are computed. -/
theorem inclusiveRangeSizes : Obligations.InclusiveRangeSizes := by
  intro s hlen hin
  obtain ⟨-, -, hrange⟩ := storRegResult s [] s.inBytes [] hlen (by simp) (by simp)
  obtain ⟨t, hexec, hleaves⟩ := hrange (ascii "0000") [] [] (ascii "4000") hin ⟨by decide, by decide⟩ ⟨by decide, by decide⟩
    (by simp) (by decide) (by decide) (by decide)
  have hcount : digitsVal 16 (ascii "4000") - digitsVal 16 (ascii "0000") + 1 = 16385 := by decide
  rw [hcount, StorLeaves, storLines_16385] at hleaves
  obtain ⟨hbits, hbytes, hkb, hmb, hgb⟩ := storQuantities_16385
  rw [hbits, hkb, hmb, hgb, hbytes] at hleaves
  exact ⟨t, hexec, hleaves⟩

end Sys2Proof.Machine

/-! ### Rounding is monotone and keeps what is representable (R9, R10) -/

namespace Sys2Proof.Machine.F64

theorem roundEven_mul_right (n D : Nat) {c : Nat} (hc : 0 < c) : roundEven (n * c) (D * c) = roundEven n D := by
  have hscale : ∀ x y, x * c < y * c ↔ x < y := fun _ _ => Nat.mul_lt_mul_right hc
  unfold roundEven
  rw [Nat.mul_mod_mul_right, Nat.mul_div_mul_right n D hc, ← Nat.mul_assoc]
  simp only [hscale]

theorem roundPattern_mul_right (n d : Nat) {c : Nat} (hc : 0 < c) : roundPattern (n * c) (d * c) = roundPattern n d := by
  unfold roundPattern
  rw [Nat.mul_div_mul_right n d hc, Nat.mul_right_comm, roundEven_mul_right _ _ hc]

theorem roundPattern_le_of_le {n n' d : Nat} (hd : 0 < d) (h : n ≤ n') : roundPattern n d ≤ roundPattern n' d := by
  rcases h.eq_or_lt with rfl | hlt
  · exact le_rfl
  · by_contra hgt
    have hunits : magUnits (roundPattern n' d) * d < magUnits (roundPattern n d) * d :=
      Nat.mul_lt_mul_of_pos_right (magUnits_strictMono (Nat.lt_of_not_le hgt)) hd
    have hnear := (roundPattern_noNearer n hd (roundPattern n' d)).1
    have hnear' := (roundPattern_noNearer n' hd (roundPattern n d)).1
    simp only [← Nat.cast_mul] at hnear hnear'
    omega

theorem roundMag_mul_right (n d : Nat) {c : Nat} (hc : 0 < c) : roundMag (n * c) (d * c) = roundMag n d := by
  rw [roundMag_eq_min, roundMag_eq_min, roundPattern_mul_right n d hc]

/-- Rounding keeps the order of `n / d` and `n' / d'`. -/
theorem roundMag_mono {n d n' d' : Nat} (hd : 0 < d) (hd' : 0 < d') (h : n * d' ≤ n' * d) :
    roundMag n d ≤ roundMag n' d' := by
  rw [← roundMag_mul_right n d hd', ← roundMag_mul_right n' d' hd, Nat.mul_comm d' d, roundMag_eq_min, roundMag_eq_min]
  exact min_le_min_right _ (roundPattern_le_of_le (Nat.mul_pos hd hd') h)

/-- A representable quotient is not changed by rounding: no pattern is nearer to it than itself. -/
theorem roundMag_magUnits {m d : Nat} (hd : 0 < d) (hm : m ≤ infMag) : roundMag (magUnits m * d) d = m := by
  have hnear := (roundPattern_noNearer (magUnits m * d) hd m).1
  simp only [← Nat.cast_mul] at hnear
  have hround : roundPattern (magUnits m * d) d = m :=
    magUnits_strictMono.injective (Nat.eq_of_mul_eq_mul_right hd (by omega))
  rw [roundMag_eq_min, hround, min_eq_left hm]

theorem roundMag_le_of_le_magUnits {n d m : Nat} (hd : 0 < d) (hm : m ≤ infMag) (h : n ≤ magUnits m * d) :
    roundMag n d ≤ m :=
  (roundMag_mono hd hd (Nat.mul_le_mul_right d h)).trans_eq (roundMag_magUnits hd hm)

theorem le_roundMag_of_magUnits_le {n d m : Nat} (hd : 0 < d) (hm : m ≤ infMag) (h : magUnits m * d ≤ n) :
    m ≤ roundMag n d :=
  (roundMag_magUnits hd hm).symm.trans_le (roundMag_mono hd hd (Nat.mul_le_mul_right d h))

/-- The error of one rounding is at most `2^-53` of the value and half a unit more. -/
theorem roundMag_error {n d : Nat} (hd : 0 < d) (h : roundMag n d < infMag) :
    2 ^ 53 * (magUnits (roundMag n d) * d) ≤ (2 ^ 53 + 1) * n + 2 ^ 52 * d ∧
      (2 ^ 53 - 1) * n ≤ 2 ^ 53 * (magUnits (roundMag n d) * d) + 2 ^ 52 * d := by
  obtain ⟨k, q, hr, hround, hlt, hle⟩ := roundPattern_block n hd
  obtain ⟨hlow, hhigh⟩ := hround.range (by positivity) hlt hle
  have hvalue : magUnits (roundMag n d) * d = q * (d * 2 ^ k) := by
    rw [roundMag_of_lt h, hr, magUnits_block hlow hhigh]; ring
  have hplace : 2 ^ 52 * (d * 2 ^ k) ≤ n + 2 ^ 52 * d := by
    rcases hle with rfl | hle
    · rw [pow_zero, Nat.mul_one]; exact Nat.le_add_left _ _
    · exact hle.trans (Nat.le_add_right _ _)
  obtain ⟨hupper, hlower, -⟩ := hround
  rw [hvalue]
  omega

/-! The patterns of quotients and products, by their bits 62:0. -/

theorem isFinite_iff_mag {x : DWord} : isFinite x = true ↔ mag x < infMag := decide_eq_true_iff

theorem units_pos_iff {x : DWord} : 0 < units x ↔ 0 < mag x := by
  rw [units]; exact magUnits_strictMono.lt_iff_lt (a := 0)

theorem mag_div {a b : DWord} (ha : isFinite a = true) (hb : isFinite b = true) (h0 : 0 < units b) :
    mag (div a b) = roundMag (units a * one) (units b) := by
  simp [div, of_finite (isFinite_iff.1 ha), of_finite (isFinite_iff.1 hb), h0.ne', make_mag _ (roundMag_lt _ _)]

theorem mag_mul {a b : DWord} (ha : isFinite a = true) (hb : isFinite b = true) :
    mag (mul a b) = roundMag (units a * units b) one := by
  simp [mul, of_finite (isFinite_iff.1 ha), of_finite (isFinite_iff.1 hb), make_mag _ (roundMag_lt _ _)]

/-! Small integers are exact. -/

/-- An integer of 53 bits has its leading bit moved to the place of weight `2^52`. -/
theorem exists_magUnits_eq_mul_one {n : Nat} (h : n < 2 ^ 53) : ∃ m, m < infMag ∧ magUnits m = n * one := by
  rcases n.eq_zero_or_pos with rfl | hpos
  · exact ⟨0, by decide, by rw [Nat.zero_mul]; rfl⟩
  · have hlog : n.log2 < 53 := (Nat.log2_lt hpos.ne').2 h
    have hshift : 2 ^ n.log2 * 2 ^ (52 - n.log2) = 2 ^ 52 := by rw [← pow_add]; congr 1; omega
    have hlow : 2 ^ 52 ≤ n * 2 ^ (52 - n.log2) :=
      hshift ▸ Nat.mul_le_mul_right _ (Nat.log2_self_le hpos.ne')
    have hhigh : n * 2 ^ (52 - n.log2) < 2 ^ (n.log2 + 1) * 2 ^ (52 - n.log2) :=
      Nat.mul_lt_mul_of_pos_right Nat.lt_log2_self (Nat.two_pow_pos _)
    rw [pow_succ, Nat.mul_right_comm, hshift] at hhigh
    refine ⟨(1022 + n.log2) * 2 ^ 52 + n * 2 ^ (52 - n.log2), ?_, ?_⟩
    · rw [infMag]; omega
    · rw [magUnits_block (.inr hlow) (by omega), one_eq, Nat.mul_assoc, ← pow_add]
      congr 2
      omega

theorem mag_ofNat {n m : Nat} (hm : m ≤ infMag) (h : magUnits m = n * one) : mag (ofNat n) = m := by
  rw [ofNat, ofRat, make_mag _ (roundMag_lt _ _), ← h, ← Nat.mul_one (magUnits m), roundMag_magUnits Nat.one_pos hm]

theorem isFinite_ofNat {n : Nat} (h : n < 2 ^ 53) : isFinite (ofNat n) = true := by
  obtain ⟨m, hlt, hm⟩ := exists_magUnits_eq_mul_one h
  rw [isFinite_iff_mag, mag_ofNat hlt.le hm]
  exact hlt

theorem units_ofNat {n : Nat} (h : n < 2 ^ 53) : units (ofNat n) = n * one := by
  obtain ⟨m, hlt, hm⟩ := exists_magUnits_eq_mul_one h
  rw [units, mag_ofNat hlt.le hm, hm]

theorem units_ofNat_pos {n : Nat} (h0 : 0 < n) (h : n < 2 ^ 53) : 0 < units (ofNat n) := by
  rw [units_ofNat h]; exact Nat.mul_pos h0 one_pos

/-- A pattern at most that of an integer below `2^53` is finite, and its value is at most that integer. -/
theorem of_mag_le_ofNat {x : DWord} {n : Nat} (hn : n < 2 ^ 53) (h : mag x ≤ mag (ofNat n)) :
    isFinite x = true ∧ units x ≤ n * one :=
  ⟨isFinite_iff_mag.2 (h.trans_lt (isFinite_iff_mag.1 (isFinite_ofNat hn))),
    (magUnits_strictMono.monotone h).trans_eq (units_ofNat hn)⟩

/-- A quotient on one side of an integer below `2^53` stays there when it is rounded. -/
theorem roundMag_le_mag_ofNat {n d k : Nat} (hd : 0 < d) (hk : k < 2 ^ 53) (h : n ≤ k * one * d) :
    roundMag n d ≤ mag (ofNat k) := by
  refine roundMag_le_of_le_magUnits hd (isFinite_iff_mag.1 (isFinite_ofNat hk)).le ?_
  rwa [← units, units_ofNat hk]

theorem mag_ofNat_le_roundMag {n d k : Nat} (hd : 0 < d) (hk : k < 2 ^ 53) (h : k * one * d ≤ n) :
    mag (ofNat k) ≤ roundMag n d := by
  refine le_roundMag_of_magUnits_le hd (isFinite_iff_mag.1 (isFinite_ofNat hk)).le ?_
  rwa [← units, units_ofNat hk]

/-! `roundHalfUp` on counts of `2^-1074` (R10). -/

/-- The integer nearest to `u` units, ties upward. -/
def halfUp (u : Nat) : Nat := (2 * u + one) / (2 * one)

theorem roundHalfUp_eq_halfUp {q : DWord} (h : isFinite q = true) : roundHalfUp q = .int (halfUp (units q)) := by
  rw [roundHalfUp, if_pos h]; rfl

theorem roundHalfUp_eq_infinite {q : DWord} (h : ¬ isFinite q = true) : roundHalfUp q = .infinite := by
  rw [roundHalfUp, if_neg h]

theorem halfUp_mono {u v : Nat} (h : u ≤ v) : halfUp u ≤ halfUp v := by
  unfold halfUp; exact Nat.div_le_div_right (by omega)

theorem halfUp_mul_one (n : Nat) : halfUp (n * one) = n := by
  have hone := one_pos
  rw [halfUp, show 2 * (n * one) + one = one + n * (2 * one) by ring, Nat.add_mul_div_right _ _ (by omega),
    Nat.div_eq_of_lt (by omega), Nat.zero_add]

theorem halfUp_bounds (u : Nat) : 2 * halfUp u * 2 ^ 1074 ≤ 2 * u + 2 ^ 1074 ∧
    2 * u + 2 ^ 1074 < 2 * (halfUp u + 1) * 2 ^ 1074 :=
  one_eq ▸ nearestHalfUp_bounds u one_pos

end Sys2Proof.Machine.F64

/-! ### Clock operands and what the clock commands compute (R240, R241) -/

namespace Sys2Proof.Machine

theorem validFreq_iff {x : DWord} : validFreq x = true ↔ PositiveFinite x := by
  have hunits : F64.units x ≠ 0 ↔ 0 < F64.mag x := Nat.pos_iff_ne_zero.symm.trans F64.units_pos_iff
  simp only [validFreq, Bool.and_eq_true, F64.isFinite_iff_mag, Bool.not_eq_true', decide_eq_true_eq, hunits, F64.sign,
    BitVec.msb_eq_decide, decide_eq_false_iff_not, F64.mag, F64.infMag, PositiveFinite]
  omega

theorem ofNat_zero_eq : F64.ofNat 0 = 0 := by decide +kernel

theorem ofNat_hundred_eq : F64.ofNat 100 = 0x4059000000000000 := by decide +kernel

/-- From +0 to 100.0 on values: the patterns of positive sign up to that of 100.0, and -0. -/
theorem validDuty_iff {x : DWord} : validDuty x = true ↔ DutyInRange x := by
  have hzero : F64.isNaN 0 = false ∧ F64.key 0 = 0 := by decide
  have hhundred : F64.isNaN 0x4059000000000000 = false ∧ F64.key 0x4059000000000000 = 0x4059000000000000 := by decide
  have hnan : F64.isNaN x = false ↔ ¬ 0x7FF0000000000000 < x.toNat % 2 ^ 63 := decide_eq_false_iff_not
  have hneg : x = 0x8000000000000000 ↔ x.toNat = 0x8000000000000000 := BitVec.toNat_inj.symm
  rw [validDuty, ofNat_zero_eq, ofNat_hundred_eq, F64.le, F64.le, hzero.1, hzero.2, hhundred.1, hhundred.2, DutyInRange, hneg]
  simp only [F64.key, F64.sign, BitVec.msb_eq_decide, Bool.and_eq_true, Bool.not_eq_true', hnan, decide_eq_true_eq,
    F64.mag, true_and, and_true]
  split_ifs <;> omega

theorem PositiveFinite.isFinite {x : DWord} (h : PositiveFinite x) : F64.isFinite x = true := by
  have hvalid := validFreq_iff.2 h
  simp only [validFreq, Bool.and_eq_true] at hvalid
  exact hvalid.1.1

theorem PositiveFinite.units_pos {x : DWord} (h : PositiveFinite x) : 0 < F64.units x := by
  have hvalid := validFreq_iff.2 h
  simp only [validFreq, Bool.and_eq_true, decide_eq_true_eq] at hvalid
  exact Nat.pos_of_ne_zero hvalid.2

theorem outcomeOf_clkSolve {s : State} (hs : PositiveFinite s.arg0) (ht : PositiveFinite s.arg1) (hduty : DutyInRange s.arg2) :
    outcomeOf .clkSolve s = .ok (solveDeliver s.arg0 s.arg2 (solveChoice s.arg0 s.arg1)) :=
  if_pos (by simp only [State.src, State.tgt, State.duty, validFreq_iff.2 hs, validFreq_iff.2 ht, validDuty_iff.2 hduty]; rfl)

theorem outcomeOf_clkSolve_invalid {s : State}
    (h : ¬ PositiveFinite s.arg0 ∨ ¬ PositiveFinite s.arg1 ∨ ¬ DutyInRange s.arg2) :
    outcomeOf .clkSolve s = raise .invalidArgument := by
  rw [← validFreq_iff, ← validFreq_iff, ← validDuty_iff] at h
  refine if_neg fun hvalid => ?_
  simp only [Bool.and_eq_true] at hvalid
  obtain ⟨⟨hs, ht⟩, hduty⟩ := hvalid
  exact h.elim (absurd hs) fun h => h.elim (absurd ht) (absurd hduty)

/-- The divider operand of the pure mode, ARG2[31:0] (R95). -/
theorem State.div_eq (s : State) : s.div = (s.arg2.extractLsb' 0 32).toNat := rfl

theorem State.div_eq_zero_iff {s : State} : s.div = 0 ↔ s.arg2.extractLsb' 0 32 = 0 := by
  rw [State.div_eq, ← BitVec.toNat_inj]; rfl

theorem State.ofNat_div (s : State) : BitVec.ofNat 64 s.div = (s.arg2.extractLsb' 0 32).setWidth 64 := by
  rw [State.div_eq, BitVec.ofNat_toNat]

theorem pureUnits_eq : unitS = 0x3FF0000000000000 ∧ unitMs = 0x3F50624DD2F1A9FC ∧ unitUs = 0x3EB0C6F7A0B5ED8D ∧
    unitNs = 0x3E112E0BE826D695 := by decide +kernel

theorem outcomeOf_clkPure {i : Instr} {u : DWord} (hi : pureUnitOf i = some u) (s : State) :
    outcomeOf i s = clkPureOf u s.arg0 s.arg1 s.div := by
  obtain ⟨hS, hMs, hUs, hNs⟩ := pureUnits_eq
  cases i
  case clkPureS => obtain rfl := Option.some.inj hi; rw [← hS]; rfl
  case clkPureMs => obtain rfl := Option.some.inj hi; rw [← hMs]; rfl
  case clkPureUs => obtain rfl := Option.some.inj hi; rw [← hUs]; rfl
  case clkPureNs => obtain rfl := Option.some.inj hi; rw [← hNs]; rfl
  all_goals cases hi

theorem clkPureOf_of_valid {u src tgt : DWord} {d : Nat} (hs : PositiveFinite src) (ht : PositiveFinite tgt) (hd : d ≠ 0) :
    clkPureOf u src tgt d = .ok { res0 := BitVec.ofNat 64 d, res1 := purePeriod src tgt d, res3 := pureAchieved src tgt d
                                  res4 := pureTime u src tgt d } :=
  if_pos (by rw [validFreq_iff.2 hs, validFreq_iff.2 ht, decide_eq_true hd]; rfl)

theorem clkPureOf_invalid {u src tgt : DWord} {d : Nat} (h : ¬ PositiveFinite src ∨ ¬ PositiveFinite tgt ∨ d = 0) :
    clkPureOf u src tgt d = raise .invalidArgument := by
  rw [← validFreq_iff, ← validFreq_iff] at h
  refine if_neg fun hvalid => ?_
  simp only [Bool.and_eq_true, decide_eq_true_eq] at hvalid
  obtain ⟨⟨hs, ht⟩, hd⟩ := hvalid
  exact h.elim (absurd hs) fun h => h.elim (absurd ht) hd

/-- Settles O56: the tests of R240 are these domains, and an operand that fails one raises InvalidArgument alone. -/
theorem clockOperandsAreChecked : Obligations.ClockOperandsAreChecked := by
  refine fun s => ⟨fun h => ⟨_, exec_fails (outcomeOf_clkSolve_invalid h)⟩, fun i u hi h => ?_⟩
  have hinvalid := h.imp_right (Or.imp_right State.div_eq_zero_iff.2)
  exact ⟨_, exec_fails ((outcomeOf_clkPure hi s).trans (clkPureOf_invalid hinvalid))⟩

/-- Settles O60: valid operands pass the tests of R240, and the result is that of R250, operation by operation. -/
theorem clkPureResult : Obligations.ClkPureResult := by
  intro i u s hi hs ht hd
  have hout := (outcomeOf_clkPure hi s).trans (clkPureOf_of_valid hs ht (State.div_eq_zero_iff.not.2 hd))
  rw [State.ofNat_div] at hout
  obtain ⟨hexec, hdone⟩ := exec_succeeds hout (Nat.two_pow_pos 32)
  exact ⟨_, _, _, _, hexec, hdone, rfl, rfl, rfl⟩

end Sys2Proof.Machine

/-! ### The divider ladder (R241 to R244, R249) -/

namespace Sys2Proof.Machine

section
variable {src tgt : DWord} {d d' n : Nat}

theorem mag_timerFreq (hs : PositiveFinite src) (hd : 0 < d) (hd53 : d < 2 ^ 53) :
    F64.mag (timerFreq src d) = F64.roundMag (F64.units src) d := by
  rw [timerFreq, F64.mag_div hs.isFinite (F64.isFinite_ofNat hd53) (F64.units_ofNat_pos hd hd53), F64.units_ofNat hd53,
    F64.roundMag_mul_right _ _ F64.one_pos]

theorem isFinite_timerFreq (hs : PositiveFinite src) (hd : 0 < d) (hd53 : d < 2 ^ 53) :
    F64.isFinite (timerFreq src d) = true := by
  have hfin := F64.isFinite_iff_mag.1 hs.isFinite
  rw [F64.isFinite_iff_mag, mag_timerFreq hs hd hd53]
  exact (F64.roundMag_le_of_le_magUnits hd hfin.le (Nat.le_mul_of_pos_right _ hd)).trans_lt hfin

/-- A larger divider gives no higher timer frequency. -/
theorem units_timerFreq_le (hs : PositiveFinite src) (hd : 0 < d) (hle : d ≤ d') (hd53 : d' < 2 ^ 53) :
    F64.units (timerFreq src d') ≤ F64.units (timerFreq src d) := by
  refine F64.magUnits_strictMono.monotone ?_
  rw [mag_timerFreq hs hd (by omega), mag_timerFreq hs (by omega) hd53]
  exact F64.roundMag_mono (by omega) hd (Nat.mul_le_mul_left _ hle)

/-- The one rounding of `tf(d)`, as an error on the exact quotient. -/
theorem timerFreq_error (hs : PositiveFinite src) (hd : 0 < d) (hd53 : d < 2 ^ 53) :
    2 ^ 53 * (F64.units (timerFreq src d) * d) ≤ (2 ^ 53 + 1) * F64.units src + 2 ^ 52 * d ∧
      (2 ^ 53 - 1) * F64.units src ≤ 2 ^ 53 * (F64.units (timerFreq src d) * d) + 2 ^ 52 * d := by
  have hfin := F64.isFinite_iff_mag.1 (isFinite_timerFreq hs hd hd53)
  rw [F64.units, mag_timerFreq hs hd hd53] at *
  exact F64.roundMag_error hd hfin

theorem mag_ratio (hs : PositiveFinite src) (ht : PositiveFinite tgt) (hd : 0 < d) (hd53 : d < 2 ^ 53) :
    F64.mag (ratio src tgt d) = F64.roundMag (F64.units (timerFreq src d) * F64.one) (F64.units tgt) :=
  F64.mag_div (isFinite_timerFreq hs hd hd53) ht.isFinite ht.units_pos

/-- `p(d)` of R241 on the exact value of `q(d)`. -/
theorem period_eq_some_iff {p : Int} : period src tgt d = some p ↔
    F64.isFinite (ratio src tgt d) = true ∧ p = (F64.halfUp (F64.units (ratio src tgt d)) : Int) - 1 := by
  unfold period
  by_cases h : F64.isFinite (ratio src tgt d) = true
  · rw [F64.roundHalfUp_eq_halfUp h]; simp [h, eq_comm]
  · rw [F64.roundHalfUp_eq_infinite h]; simp [h]

/-- R249: a larger divider gives no larger period. -/
theorem period_antitone (hs : PositiveFinite src) (ht : PositiveFinite tgt) (hd : 0 < d) (hle : d ≤ d') (hd53 : d' < 2 ^ 53)
    {p : Int} (hp : period src tgt d = some p) : ∃ p', period src tgt d' = some p' ∧ p' ≤ p := by
  obtain ⟨hfin, rfl⟩ := period_eq_some_iff.1 hp
  have hmag : F64.mag (ratio src tgt d') ≤ F64.mag (ratio src tgt d) := by
    rw [mag_ratio hs ht hd (by omega), mag_ratio hs ht (by omega) hd53]
    exact F64.roundMag_mono ht.units_pos ht.units_pos
      (Nat.mul_le_mul_right _ (Nat.mul_le_mul_right _ (units_timerFreq_le hs hd hle hd53)))
  have hhalf := F64.halfUp_mono (F64.magUnits_strictMono.monotone hmag)
  exact ⟨_, period_eq_some_iff.2 ⟨F64.isFinite_iff_mag.2 (hmag.trans_lt (F64.isFinite_iff_mag.1 hfin)), rfl⟩,
    Int.sub_le_sub_right (Int.ofNat_le.2 hhalf) 1⟩

/-- `p(d)` by the exact quotient of `tf(d)` and `tgt`: where that is on one side of `n`, the period is on that side of
`n - 1`. -/
theorem period_le_of_timerFreq_le (hs : PositiveFinite src) (ht : PositiveFinite tgt) (hd : 0 < d) (hd53 : d < 2 ^ 53)
    (hn : n < 2 ^ 53) (h : F64.units (timerFreq src d) ≤ n * F64.units tgt) :
    ∃ p, period src tgt d = some p ∧ p ≤ (n : Int) - 1 := by
  have hmag : F64.mag (ratio src tgt d) ≤ F64.mag (F64.ofNat n) := by
    rw [mag_ratio hs ht hd hd53]
    refine F64.roundMag_le_mag_ofNat ht.units_pos hn ?_
    rw [Nat.mul_right_comm]
    exact Nat.mul_le_mul_right _ h
  obtain ⟨hfin, hunits⟩ := F64.of_mag_le_ofNat hn hmag
  have hhalf := F64.halfUp_mono hunits
  rw [F64.halfUp_mul_one] at hhalf
  exact ⟨_, period_eq_some_iff.2 ⟨hfin, rfl⟩, by omega⟩

theorem le_period_of_le_timerFreq (hs : PositiveFinite src) (ht : PositiveFinite tgt) (hd : 0 < d) (hd53 : d < 2 ^ 53)
    (hn : n < 2 ^ 53) (h : n * F64.units tgt ≤ F64.units (timerFreq src d)) {p : Int} (hp : period src tgt d = some p) :
    (n : Int) - 1 ≤ p := by
  have hmag : F64.mag (F64.ofNat n) ≤ F64.mag (ratio src tgt d) := by
    rw [mag_ratio hs ht hd hd53]
    refine F64.mag_ofNat_le_roundMag ht.units_pos hn ?_
    rw [Nat.mul_right_comm]
    exact Nat.mul_le_mul_right _ h
  have hunits : n * F64.one ≤ F64.units (ratio src tgt d) :=
    (F64.units_ofNat hn).symm.trans_le (F64.magUnits_strictMono.monotone hmag)
  have hhalf := F64.halfUp_mono hunits
  rw [F64.halfUp_mul_one] at hhalf
  obtain ⟨-, rfl⟩ := period_eq_some_iff.1 hp
  omega

/-- R249: halving a timer frequency of at least 65536 times the target leaves at least 32767 times the target, the two rounding
errors included. -/
theorem timerFreq_double (hs : PositiveFinite src) (ht : PositiveFinite tgt) (hd : 0 < d) (hd53 : 2 * d < 2 ^ 53)
    (h : 65536 * F64.units tgt ≤ F64.units (timerFreq src d)) :
    32767 * F64.units tgt ≤ F64.units (timerFreq src (2 * d)) := by
  obtain ⟨hupper, -⟩ := timerFreq_error hs hd (by omega)
  obtain ⟨-, hlower⟩ := timerFreq_error hs (show 0 < 2 * d by omega) hd53
  have htgt : d ≤ F64.units tgt * d := Nat.le_mul_of_pos_left d ht.units_pos
  have hscaled : 65536 * (F64.units tgt * d) ≤ F64.units (timerFreq src d) * d := by
    rw [← Nat.mul_assoc]; exact Nat.mul_le_mul_right d h
  rw [Nat.mul_left_comm _ 2 d] at hlower
  refine Nat.le_of_mul_le_mul_right (?_ : _ * d ≤ _ * d) hd
  rw [Nat.mul_assoc]
  omega

theorem period_double (hs : PositiveFinite src) (ht : PositiveFinite tgt) (hd : 0 < d) (hd53 : 2 * d < 2 ^ 53)
    (h : ∀ p, period src tgt d = some p → 65536 ≤ p) {p : Int} (hp : period src tgt (2 * d) = some p) : 32766 ≤ p := by
  refine le_period_of_le_timerFreq hs ht (show 0 < 2 * d by omega) hd53 (n := 32767) (by omega)
    (timerFreq_double hs ht hd hd53 ?_) hp
  by_contra hlt
  obtain ⟨p', hp', hle⟩ := period_le_of_timerFreq_le hs ht hd (by omega) (n := 65536) (by omega) (by omega)
  have habove := h p' hp'
  omega

end

/-- `d` does not fit: `p(d)` is not in 0 to 65535 (R241). -/
def Unfit (src tgt : DWord) (d : Nat) : Prop := ∀ p, period src tgt d = some p → p < 0 ∨ 65535 < p

theorem ladder_bounds : ∀ d ∈ Config.ladder, 1 ≤ d ∧ d ≤ 128 := by decide

/-- What holds of divider 1 and passes from each divider to the next holds of the whole ladder. -/
theorem ladder_induction {P : Nat → Prop} (hone : P 1)
    (hdouble : ∀ d ∈ Config.ladder, 2 * d ∈ Config.ladder → P d → P (2 * d)) : ∀ d ∈ Config.ladder, P d := by
  have hpow : ∀ k, k < 8 → P (2 ^ k) := by
    intro k
    induction k with
    | zero => exact fun _ => hone
    | succ k ih =>
      intro hk
      have hmem : ∀ j < 8, 2 ^ j ∈ Config.ladder := by decide
      rw [pow_succ']
      exact hdouble _ (hmem k (by omega)) (pow_succ' 2 k ▸ hmem (k + 1) hk) (ih (by omega))
  intro d hd
  obtain ⟨k, hk, rfl⟩ := (by decide : ∀ d ∈ Config.ladder, ∃ k < 8, d = 2 ^ k) d hd
  exact hpow k hk

/-- R249: when no divider fits, divider 1 tells whether every `p(d)` is below 0 or every one is above 65535. -/
theorem unfit_ladder_cases {src tgt : DWord} (hs : PositiveFinite src) (ht : PositiveFinite tgt)
    (h : ∀ d ∈ Config.ladder, Unfit src tgt d) :
    (∀ d ∈ Config.ladder, ∀ p, period src tgt d = some p → 65535 < p) ∨
      (∀ d ∈ Config.ladder, ∃ p, period src tgt d = some p ∧ p < 0) := by
  by_cases hlow : ∃ p, period src tgt 1 = some p ∧ p < 0
  · obtain ⟨p, hp, hneg⟩ := hlow
    refine .inr fun d hd => ?_
    obtain ⟨hd1, hd128⟩ := ladder_bounds d hd
    obtain ⟨p', hp', hle⟩ := period_antitone hs ht Nat.one_pos hd1 (by omega) hp
    exact ⟨p', hp', by omega⟩
  · refine .inl (ladder_induction (fun p hp => ?_) fun d hd hd2 habove p hp => ?_)
    · exact (h 1 (by decide) p hp).resolve_left fun hneg => hlow ⟨p, hp, hneg⟩
    · obtain ⟨hd1, hd128⟩ := ladder_bounds d hd
      have hnext := period_double hs ht hd1 (by omega) habove hp
      exact (h _ hd2 p hp).resolve_left (by omega)

/-- Settles O58: rounding is monotone, and its error is far below what halving a period of 65536 leaves. -/
theorem ladderIsConsistent : Obligations.LadderIsConsistent := by
  refine fun src tgt hs ht => ⟨fun d hd d' hd' hle p hp => ?_, fun d hd hd2 h p hp => ?_, unfit_ladder_cases hs ht⟩
  · obtain ⟨-, hd128⟩ := ladder_bounds d' hd'
    exact period_antitone hs ht (ladder_bounds d hd).1 hle (by omega) hp
  · obtain ⟨-, hd128⟩ := ladder_bounds d hd
    exact period_double hs ht (ladder_bounds d hd).1 (by omega) h hp

/-! The search and the choice (R242 to R244). -/

theorem fittingPeriod_eq_some_iff {src tgt : DWord} {d p : Nat} :
    fittingPeriod src tgt d = some p ↔ period src tgt d = some (p : Int) ∧ p ≤ 65535 := by
  unfold fittingPeriod Config.periodMax
  cases hp : period src tgt d with
  | none => simp
  | some p' =>
    simp only [Option.some.injEq]
    split_ifs with hfit
    · rw [Option.some.injEq]; omega
    · rw [false_iff]; omega

theorem fittingPeriod_eq_none_iff {src tgt : DWord} {d : Nat} : fittingPeriod src tgt d = none ↔ Unfit src tgt d := by
  unfold fittingPeriod Config.periodMax Unfit
  cases hp : period src tgt d with
  | none => simp
  | some p' => simp only [Option.some.injEq, forall_eq']; split_ifs <;> simp <;> omega

theorem searchLadder_eq_some {src tgt : DWord} {d p : Nat} : ∀ {ds : List Nat}, searchLadder src tgt ds = some (d, p) →
    ∃ before after, ds = before ++ d :: after ∧ fittingPeriod src tgt d = some p ∧ ∀ d' ∈ before, Unfit src tgt d' := by
  intro ds
  induction ds with
  | nil => intro h; cases h
  | cons e ds ih =>
    intro h
    rw [searchLadder] at h
    cases he : fittingPeriod src tgt e with
    | some p' =>
      rw [he] at h
      cases h
      exact ⟨[], ds, rfl, he, by simp⟩
    | none =>
      rw [he] at h
      obtain ⟨before, after, rfl, hfit, hbefore⟩ := ih h
      exact ⟨e :: before, after, rfl, hfit, List.forall_mem_cons.2 ⟨fittingPeriod_eq_none_iff.1 he, hbefore⟩⟩

theorem searchLadder_eq_none {src tgt : DWord} : ∀ {ds : List Nat}, searchLadder src tgt ds = none →
    ∀ d ∈ ds, Unfit src tgt d := by
  intro ds
  induction ds with
  | nil => simp
  | cons e ds ih =>
    intro h
    rw [searchLadder] at h
    cases he : fittingPeriod src tgt e with
    | some p => rw [he] at h; cases h
    | none => rw [he] at h; exact List.forall_mem_cons.2 ⟨fittingPeriod_eq_none_iff.1 he, ih h⟩

theorem tooHigh_iff {src tgt : DWord} : tooHigh src tgt = true ↔ ∃ p, period src tgt 1 = some p ∧ p < 0 := by
  unfold tooHigh; cases period src tgt 1 <;> simp

/-- `c` is the choice of R242 to R244: the first fit, or underflow, or overflow. -/
def ChosenBy (src tgt : DWord) (c : Choice) : Prop :=
  (∃ before after, Config.ladder = before ++ c.divider :: after ∧ period src tgt c.divider = some (c.period : Int) ∧
    c.period ≤ 65535 ∧ (∀ d ∈ before, Unfit src tgt d) ∧ c.ovf = false ∧ c.unf = false) ∨
  ((∀ d ∈ Config.ladder, Unfit src tgt d) ∧
    (((∃ p, period src tgt 1 = some p ∧ p < 0) ∧ c.divider = 1 ∧ c.period = 0 ∧ c.ovf = false ∧ c.unf = true) ∨
      ((∀ p, period src tgt 1 = some p → 0 ≤ p) ∧ c.divider = 128 ∧ c.period = 65535 ∧ c.ovf = true ∧ c.unf = false)))

theorem solveChoice_chosenBy (src tgt : DWord) : ChosenBy src tgt (solveChoice src tgt) := by
  unfold solveChoice
  split
  · rename_i d p hfound
    obtain ⟨before, after, hladder, hfit, hbefore⟩ := searchLadder_eq_some hfound
    obtain ⟨hp, hle⟩ := fittingPeriod_eq_some_iff.1 hfit
    exact .inl ⟨before, after, hladder, hp, hle, hbefore, rfl, rfl⟩
  · rename_i hnone
    refine .inr ⟨searchLadder_eq_none hnone, ?_⟩
    split_ifs with hhigh
    · exact .inl ⟨tooHigh_iff.1 hhigh, rfl, rfl, rfl, rfl⟩
    · exact .inr ⟨fun p hp => Int.not_lt.1 fun hneg => hhigh (tooHigh_iff.2 ⟨p, hp, hneg⟩), rfl, rfl, rfl, rfl⟩

theorem ChosenBy.divider_mem {src tgt : DWord} {c : Choice} (h : ChosenBy src tgt c) : c.divider ∈ Config.ladder := by
  rcases h with ⟨before, after, hladder, -⟩ | ⟨-, ⟨-, hd, -⟩ | ⟨-, hd, -⟩⟩
  · rw [hladder]; simp
  · rw [hd]; decide
  · rw [hd]; decide

theorem ChosenBy.period_le {src tgt : DWord} {c : Choice} (h : ChosenBy src tgt c) : c.period ≤ 65535 := by
  rcases h with ⟨-, -, -, -, hle, -⟩ | ⟨-, ⟨-, -, hp, -⟩ | ⟨-, -, hp, -⟩⟩ <;> omega

/-- OVF comes of divider 1 having no negative `p(1)`, so that every `p(d)` is above 65535 (R249). -/
theorem ChosenBy.above_of_ovf {src tgt : DWord} {c : Choice} (hs : PositiveFinite src) (ht : PositiveFinite tgt)
    (h : ChosenBy src tgt c) (hovf : c.ovf = true) :
    ∀ d ∈ Config.ladder, ∀ p, period src tgt d = some p → 65535 < p := by
  rcases h with ⟨-, -, -, -, -, -, ho, -⟩ | ⟨hunfit, ⟨-, -, -, ho, -⟩ | ⟨hone, -⟩⟩
  · rw [ho] at hovf; cases hovf
  · rw [ho] at hovf; cases hovf
  · refine (unfit_ladder_cases hs ht hunfit).resolve_right fun hlow => ?_
    obtain ⟨p, hp, hneg⟩ := hlow 1 (by decide)
    exact absurd (hone p hp) (by omega)

/-! The duty register (R246). -/

theorem DutyInRange.mag_le {duty : DWord} (h : DutyInRange duty) : F64.mag duty ≤ F64.mag (F64.ofNat 100) := by
  have hhundred : F64.mag (F64.ofNat 100) = 0x4059000000000000 := by rw [ofNat_hundred_eq]; decide
  rw [hhundred]
  rcases h with h | rfl
  · exact (Nat.mod_le _ _).trans h
  · decide

theorem mag_dutyProduct_le {p : Nat} {duty : DWord} (hp : p ≤ 65535) (hduty : DutyInRange duty) :
    F64.mag (F64.mul (F64.ofNat p) duty) ≤ F64.mag (F64.ofNat (p * 100)) := by
  have hp53 : p < 2 ^ 53 := by omega
  obtain ⟨hfin, hunits⟩ := F64.of_mag_le_ofNat (by omega) hduty.mag_le
  rw [F64.mag_mul (F64.isFinite_ofNat hp53) hfin, F64.units_ofNat hp53]
  refine F64.roundMag_le_mag_ofNat F64.one_pos (by omega) ?_
  calc p * F64.one * F64.units duty ≤ p * F64.one * (100 * F64.one) := Nat.mul_le_mul_left _ hunits
    _ = p * 100 * F64.one * F64.one := by ring

/-- With a duty of at most 100 the product is at most `100 * p`, and a hundredth of it at most `p`. -/
theorem mag_dutyRatio_le {p : Nat} {duty : DWord} (hp : p ≤ 65535) (hduty : DutyInRange duty) :
    F64.mag (dutyRatio p duty) ≤ F64.mag (F64.ofNat p) := by
  have hpos : 0 < F64.units (F64.ofNat 100) := F64.units_ofNat_pos (by omega) (by omega)
  obtain ⟨hfin, hunits⟩ := F64.of_mag_le_ofNat (by omega) (mag_dutyProduct_le hp hduty)
  rw [dutyRatio, F64.mag_div hfin (F64.isFinite_ofNat (by omega)) hpos]
  refine F64.roundMag_le_mag_ofNat hpos (by omega) ?_
  rw [F64.units_ofNat (show 100 < 2 ^ 53 by omega)]
  calc F64.units (F64.mul (F64.ofNat p) duty) * F64.one ≤ p * 100 * F64.one * F64.one := Nat.mul_le_mul_right _ hunits
    _ = p * F64.one * (100 * F64.one) := by ring

theorem dutyRatio_finite_le {p : Nat} {duty : DWord} (hp : p ≤ 65535) (hduty : DutyInRange duty) :
    F64.isFinite (dutyRatio p duty) = true ∧ F64.units (dutyRatio p duty) ≤ p * F64.one :=
  F64.of_mag_le_ofNat (by omega) (mag_dutyRatio_le hp hduty)

/-- The definition is unfolded as a constant without arguments: otherwise the kernel evaluates the ratio to find the branch. -/
theorem dutyRegister_eq {p : Nat} {duty : DWord} (h : F64.isFinite (dutyRatio p duty) = true) :
    dutyRegister p duty = F64.halfUp (F64.units (dutyRatio p duty)) := by
  generalize hdef : dutyRegister = register
  delta dutyRegister at hdef
  simp only [← hdef, F64.roundHalfUp_eq_halfUp h]

theorem dutyRegister_le {p : Nat} {duty : DWord} (hp : p ≤ 65535) (hduty : DutyInRange duty) :
    dutyRegister p duty ≤ p := by
  obtain ⟨hfin, hunits⟩ := dutyRatio_finite_le hp hduty
  rw [dutyRegister_eq hfin]
  exact (F64.halfUp_mono hunits).trans_eq (F64.halfUp_mul_one p)

/-- Settles O57: the choice is that of R242 to R244, and its duty ratio is finite and rounded half up. -/
theorem clkSolveResult : Obligations.ClkSolveResult := by
  refine ⟨rfl, fun s hs ht hduty => ⟨fun _ => rfl, ?_⟩⟩
  have hchosen := solveChoice_chosenBy s.arg0 s.arg1
  obtain ⟨hfin, -⟩ := dutyRatio_finite_le hchosen.period_le hduty
  obtain ⟨hexec, hdone⟩ := exec_succeeds (outcomeOf_clkSolve hs ht hduty) (Nat.two_pow_pos 32)
  obtain ⟨hlow, hhigh⟩ := F64.halfUp_bounds (F64.units (dutyRatio (solveChoice s.arg0 s.arg1).period s.arg2))
  rw [← dutyRegister_eq hfin] at hlow hhigh
  exact ⟨_, _, _, _, _, _, _, hexec, hdone, rfl, hfin, hlow, hhigh, hchosen⟩

/-- Settles O59: each kind of choice is in range, the duty register is at most the period, and overflow excludes every other
period (`ChosenBy.above_of_ovf`). -/
theorem clkSolveStaysInRange : Obligations.ClkSolveStaysInRange := by
  intro s hs ht hduty
  have hchosen := solveChoice_chosenBy s.arg0 s.arg1
  obtain ⟨hexec, -⟩ := exec_succeeds (outcomeOf_clkSolve hs ht hduty) (Nat.two_pow_pos 32)
  have hovf := hchosen.above_of_ovf hs ht
  generalize solveChoice s.arg0 s.arg1 = c at hchosen hexec hovf
  have hdivider := ladder_bounds _ hchosen.divider_mem
  have hperiod := hchosen.period_le
  have hdutyLe := dutyRegister_le hperiod hduty
  have htoNat : ∀ {n : Nat}, n ≤ 65535 → (BitVec.ofNat 64 n).toNat = n := fun h => by
    rw [BitVec.toNat_ofNat, Nat.mod_eq_of_lt (by omega)]
  refine ⟨_, hexec, rfl, ?_, ?_, ?_, hovf⟩ <;>
    simp only [State.publish_res0, State.publish_res1, State.publish_res2, solveDeliver]
  · rw [htoNat hperiod]; exact hperiod
  · rw [htoNat hperiod, htoNat (by omega)]; exact hdutyLe
  · rw [htoNat (by omega)]; exact hchosen.divider_mem

end Sys2Proof.Machine

/-! ### The codes of the error kinds and the commands that raise them (60_exceptions.md) -/

namespace Sys2Proof.Machine

/-- A computation whose errors are all of the kinds listed. -/
def RaisesOnly {α : Type} (ks : List ErrorKind) (x : Except Raised α) : Prop := ∀ e, x = .error e → e.kind ∈ ks

@[simp] theorem raisesOnly_ok {α : Type} (ks : List ErrorKind) (a : α) : RaisesOnly ks (.ok a) := fun _ h => nomatch h

@[simp] theorem raisesOnly_raise {α : Type} {ks : List ErrorKind} {k : ErrorKind} :
    RaisesOnly ks (raise k : Except Raised α) ↔ k ∈ ks :=
  ⟨fun h => h _ rfl, fun hk e h => by cases h; exact hk⟩

namespace RaisesOnly

variable {α β : Type} {ks ls : List ErrorKind} {x : Except Raised α}

theorem mono (hx : RaisesOnly ks x) (hsub : ks ⊆ ls) : RaisesOnly ls x := fun e h => hsub (hx e h)

theorem bind {f : α → Except Raised β} (hx : RaisesOnly ks x) (hf : ∀ a, RaisesOnly ks (f a)) :
    RaisesOnly ks (x.bind f) := by
  intro e h
  rcases bind_eq_error h with h | ⟨a, -, h⟩
  · exact hx e h
  · exact hf a e h

theorem map (hx : RaisesOnly ks x) (f : α → β) : RaisesOnly ks (x.map f) := fun e h => hx e (map_eq_error h)

/-- R62: what works on the input string raises InputTooLong besides its own errors. -/
theorem afterInput {f : List Byte → Except Raised β} (hf : ∀ bs, RaisesOnly ks (f bs)) (s : State) :
    RaisesOnly (.inputTooLong :: ks) (s.input.bind f) := by
  refine bind ?_ fun bs => (hf bs).mono (List.subset_cons_self _ _)
  unfold State.input
  split_ifs <;> simp

end RaisesOnly

/-! The errors of each kernel (R272). -/

theorem crc32TextOf_raisesOnly (bs : List Byte) : RaisesOnly [.emptyInput] (crc32TextOf bs) := by
  unfold crc32TextOf; split_ifs <;> simp

theorem crc32HexOf_raisesOnly (bs : List Byte) : RaisesOnly [.emptyInput, .invalidHexFormat] (crc32HexOf bs) := by
  unfold crc32HexOf; split_ifs <;> simp

theorem xorFoldOf_raisesOnly (bs : List Byte) :
    RaisesOnly [.emptyInput, .invalidToken, .magnitudeOutOfRange] (xorFoldOf bs) := by
  unfold xorFoldOf
  split_ifs
  · simp
  · refine RaisesOnly.map (fun e h => ?_) _
    rcases foldTokens_error_kind h with hk | hk <;> simp [hk]

theorem b64DecOf_raisesOnly (bs : List Byte) : RaisesOnly [.invalidAlphabet, .invalidUtf8] (b64DecOf bs) := by
  unfold b64DecOf
  split_ifs
  · simp
  · split
    · simp
    · split_ifs <;> simp

theorem bconvOf_raisesOnly (q : Radix) (bs : List Byte) :
    RaisesOnly [.emptyInput, .invalidDigitForRadix, .magnitudeOutOfRange] (bconvOf q bs) := by
  refine RaisesOnly.map ?_ _
  unfold bconvValue; split_ifs <;> simp

theorem countToF64_raisesOnly (n : Nat) : RaisesOnly [.magnitudeOutOfRange] (countToF64 n) := by
  unfold countToF64; split_ifs <;> simp

theorem rangeCount_raisesOnly (a e : Nat) : RaisesOnly [.magnitudeOutOfRange, .invalidRange] (rangeCount a e) := by
  unfold rangeCount; split_ifs <;> simp

theorem regBytes_raisesOnly (bs : List Byte) :
    RaisesOnly [.invalidNumericFormat, .invalidRange, .magnitudeOutOfRange] (regBytes bs) := by
  have hcount : ∀ n, RaisesOnly [.invalidNumericFormat, .invalidRange, .magnitudeOutOfRange] (countToF64 n) :=
    fun n => (countToF64_raisesOnly n).mono (by simp)
  unfold regBytes
  split
  · exact ((rangeCount_raisesOnly _ _).mono (by simp)).bind hcount
  · split
    · exact hcount _
    · split_ifs
      · exact hcount _
      · simp

theorem plainValue_raisesOnly (bs : List Byte) :
    RaisesOnly [.invalidNumericFormat, .magnitudeOutOfRange] (plainValue bs) := by
  unfold plainValue
  split
  · simp
  · simp only; split_ifs <;> simp

theorem storBytes_raisesOnly {u : StorUnit} (hu : u ≠ .register) (bs : List Byte) :
    RaisesOnly [.invalidNumericFormat, .magnitudeOutOfRange] (storBytes u bs) := by
  cases u with
  | register => exact absurd rfl hu
  | bit | byte | kb | mb | gb =>
    refine (plainValue_raisesOnly bs).bind fun v => ?_
    split_ifs <;> simp

theorem storDeliver_raisesOnly (bytes : DWord) : RaisesOnly [.magnitudeOutOfRange] (storDeliver bytes) := by
  unfold storDeliver; split_ifs <;> simp

theorem storOf_register_raisesOnly (bs : List Byte) :
    RaisesOnly [.invalidNumericFormat, .invalidRange, .magnitudeOutOfRange] (storOf .register bs) :=
  (regBytes_raisesOnly _).bind fun bytes => (storDeliver_raisesOnly bytes).mono (by simp)

theorem storOf_unit_raisesOnly {u : StorUnit} (hu : u ≠ .register) (bs : List Byte) :
    RaisesOnly [.invalidNumericFormat, .magnitudeOutOfRange] (storOf u bs) :=
  (storBytes_raisesOnly hu _).bind fun bytes => (storDeliver_raisesOnly bytes).mono (by simp)

theorem clkSolveOf_raisesOnly (src tgt duty : DWord) : RaisesOnly [.invalidArgument] (clkSolveOf src tgt duty) := by
  unfold clkSolveOf; split_ifs <;> simp

theorem clkPureOf_raisesOnly (u src tgt : DWord) (d : Nat) : RaisesOnly [.invalidArgument] (clkPureOf u src tgt d) := by
  unfold clkPureOf; split_ifs <;> simp

/-! Every command. -/

/-- The kinds of error of each command (R272). -/
def errorKinds : Instr → List ErrorKind
  | .crc32Text => [.inputTooLong, .emptyInput]
  | .crc32Hex => [.inputTooLong, .emptyInput, .invalidHexFormat]
  | .xorFold => [.inputTooLong, .emptyInput, .invalidToken, .magnitudeOutOfRange]
  | .b64Enc => [.inputTooLong]
  | .b64Dec => [.inputTooLong, .invalidAlphabet, .invalidUtf8]
  | .bconvR2 | .bconvR8 | .bconvR10 | .bconvR16 =>
    [.inputTooLong, .emptyInput, .invalidDigitForRadix, .magnitudeOutOfRange]
  | .storReg => [.inputTooLong, .invalidNumericFormat, .invalidRange, .magnitudeOutOfRange]
  | .storBit | .storByte | .storKb | .storMb | .storGb => [.inputTooLong, .invalidNumericFormat, .magnitudeOutOfRange]
  | .clkSolve | .clkPureS | .clkPureMs | .clkPureUs | .clkPureNs => [.invalidArgument]

theorem allowedCodes_eq (i : Instr) : allowedCodes i = 0 :: (errorKinds i).map ErrorKind.code := by cases i <;> rfl

theorem outcomeOf_raisesOnly (i : Instr) (s : State) : RaisesOnly (errorKinds i) (outcomeOf i s) := by
  cases i
  case crc32Text => exact .afterInput crc32TextOf_raisesOnly s
  case crc32Hex => exact .afterInput crc32HexOf_raisesOnly s
  case xorFold => exact .afterInput xorFoldOf_raisesOnly s
  case b64Enc => exact .afterInput (fun _ => raisesOnly_ok _ _) s
  case b64Dec => exact .afterInput b64DecOf_raisesOnly s
  case bconvR2 | bconvR8 | bconvR10 | bconvR16 => exact .afterInput (bconvOf_raisesOnly _) s
  case storReg => exact .afterInput storOf_register_raisesOnly s
  case storBit | storByte | storKb | storMb | storGb => exact .afterInput (storOf_unit_raisesOnly (by decide)) s
  case clkSolve => exact clkSolveOf_raisesOnly _ _ _
  case clkPureS | clkPureMs | clkPureUs | clkPureNs => exact clkPureOf_raisesOnly _ _ _ _

/-- Settles O28: the numbers by evaluation; an error completion reports the code of a kind that the command raises, and a result
the code 0. -/
theorem commandsRaiseOnlyTheirCodes : Obligations.CommandsRaiseOnlyTheirCodes := by
  refine ⟨rfl, fun i s t h => ?_⟩
  rw [exec_eq_complete] at h
  cases h
  rw [allowedCodes_eq]
  cases hc : outcomeOf i s with
  | error e => exact List.mem_cons_of_mem _ (List.mem_map_of_mem (outcomeOf_raisesOnly i s e hc))
  | ok r => exact List.mem_cons_self

end Sys2Proof.Machine

/-! ### The schedule and reset (70_reset_and_hazards.md) -/

namespace Sys2Proof.Machine

/-! Serving an event (R100, R300). -/

section

variable {s : State}

/-- An event at the head of the queue is served when no completion is due, under reset too. -/
theorem step_of_pending {e : HostEvent} {rest : List HostEvent} (hp : s.pending = e :: rest)
    (hdue : s.status.busy = true → s.wait ≠ 0) : step s = s.serve e rest := by
  have hnot : ¬ s.completesNow = true := by
    rw [State.completesNow_iff, hp]
    rintro ⟨hb, hw | hnil⟩
    · exact hdue hb hw
    · cases hnil
  rw [step_of_not_due hnot, State.hostStep, hp]

theorem State.serve_transaction (hr : s.inReset = false) (x : Transaction) (rest : List HostEvent) :
    s.serve (.transaction x) rest = .next ((s.consume rest).transact x) := by
  simp [State.serve, hr]

theorem State.serve_poll_of_busy (hr : s.inReset = false) (hb : s.status.busy = true) (rest : List HostEvent) :
    s.serve .poll rest = .next (((s.consume rest).transact statusRead).again .poll) := by
  simp [State.serve, hr, hb]

theorem State.serve_poll_of_idle (hr : s.inReset = false) (hb : s.status.busy = false) (rest : List HostEvent) :
    s.serve .poll rest = .next ((s.consume rest).transact statusRead) := by
  simp [State.serve, hr, hb]

theorem State.serve_of_inReset (hr : s.inReset = true) {e : HostEvent} (he : e = .poll ∨ ∃ x, e = .transaction x)
    (rest : List HostEvent) : s.serve e rest = .refused .resetAsserted := by
  rcases he with rfl | ⟨x, rfl⟩
  all_goals exact if_pos hr

/-- A transaction or a poll that is answered does not arrive under reset. -/
theorem State.not_inReset_of_serve {t : State} {e : HostEvent} {rest : List HostEvent}
    (he : e = .poll ∨ ∃ x, e = .transaction x) (hs : s.serve e rest = .next t) : s.inReset = false := by
  by_contra hr
  rw [State.serve_of_inReset (by simpa using hr) he] at hs
  cases hs

end

/-! A busy block makes progress: each step completes the command, abandons it, or uses up one event of the schedule (R311, log
entry 5). -/

theorem State.transact_progress_of_busy {s : State} (hb : s.status.busy = true) (x : Transaction) :
    (s.transact x).inReset = s.inReset ∧ (s.transact x).wait = s.wait := by
  obtain ⟨r, hx | hx⟩ := State.transact_of_busy hb x
  all_goals rw [hx]
  all_goals exact ⟨rfl, rfl⟩

theorem State.serve_progress_of_busy {s : State} (hr : s.inReset = false) (hb : s.status.busy = true) (e : HostEvent)
    (rest : List HostEvent) :
    ∃ t, s.serve e rest = .next t ∧ (t.status.busy = false ∨ t.inReset = false ∧ t.wait = s.wait - 1) := by
  have hserved : ∀ x, ((s.consume rest).transact x).inReset = false ∧ ((s.consume rest).transact x).wait = s.wait - 1 := by
    intro x
    obtain ⟨hreset, hwait⟩ := State.transact_progress_of_busy (s := s.consume rest) hb x
    exact ⟨hreset.trans hr, hwait⟩
  cases e with
  | transaction x => exact ⟨_, State.serve_transaction hr x rest, .inr (hserved x)⟩
  | poll => exact ⟨_, State.serve_poll_of_busy hr hb rest, .inr (hserved statusRead)⟩
  | assertReset => exact ⟨_, rfl, .inl rfl⟩
  | releaseReset => exact ⟨_, rfl, .inr ⟨rfl, rfl⟩⟩

theorem step_progress_of_busy {s : State} (hr : s.inReset = false) (hb : s.status.busy = true) :
    ∃ t, step s = .next t ∧ (t.status.busy = false ∨ t.inReset = false ∧ t.wait + 1 = s.wait) := by
  rcases step_cases s with ⟨-, c, hs, -⟩ | ⟨hnot, hp, -⟩ | ⟨hnot, e, rest, -, hs⟩
  · exact ⟨_, hs, .inl (s.complete_status_busy c)⟩
  · rw [State.completesNow_iff.2 ⟨hb, .inr hp⟩] at hnot; cases hnot
  · have hwait : s.wait ≠ 0 := fun hw => by
      rw [State.completesNow_iff.2 ⟨hb, .inl hw⟩] at hnot; cases hnot
    obtain ⟨t, ht, hidle | ⟨hrt, hwt⟩⟩ := s.serve_progress_of_busy hr hb e rest
    · exact ⟨t, hs.trans ht, .inl hidle⟩
    · exact ⟨t, hs.trans ht, .inr ⟨hrt, by omega⟩⟩

theorem core_run_succ {s t : State} (h : step s = .next t) (k : Nat) : core.run (k + 1) s = core.run k t := by
  have hcore : core.step s = .next t := h
  simp only [Host.Core.run, hcore]

/-- Settles O6, by induction on `wait`: a step that leaves the block busy makes `wait` smaller. -/
theorem busyEndsWithinTheSchedule : Obligations.BusyEndsWithinTheSchedule := by
  intro s hr
  induction hn : s.wait using Nat.strong_induction_on generalizing s with
  | _ n ih =>
    cases hb : s.status.busy with
    | false => exact ⟨0, s, Nat.zero_le _, rfl, hb⟩
    | true =>
      obtain ⟨t, hs, hidle | ⟨hrt, hwt⟩⟩ := step_progress_of_busy hr hb
      · exact ⟨1, t, by omega, core_run_succ hs 0, hidle⟩
      · obtain ⟨k, u, hk, hrun, hidle⟩ := ih t.wait (by omega) t hrt rfl
        exact ⟨k + 1, u, by omega, (core_run_succ hs k).trans hrun, hidle⟩

/-! Only a write of CMD starts a command (R61, R301). -/

theorem registerMap_cmd : ∀ row ∈ registerMap, row.2 = .cmd → row.1 = 0 := by decide

/-- CMD is at offset 0 and nowhere else (R21, R60). -/
theorem locate_cmd {p : Params} {off : Nat} (h : locate p off = some .cmd) : off = 0 := by
  unfold locate at h
  split_ifs at h
  · obtain ⟨before, after, hmap, -⟩ := List.lookup_eq_some_iff.1 h
    exact registerMap_cmd (off, .cmd) (by rw [hmap]; exact List.mem_append_cons_self) rfl
  all_goals cases h

theorem State.writeLocation_starts {s : State} {l : Location} {w : Word} (hb : s.status.busy = false)
    (hbusy : (s.writeLocation l w).status.busy = true) : l = .cmd := by
  by_contra hl
  have hkept : (s.writeLocation l w).status = s.status := by
    rcases s.writeLocation_cases l w with hw | ⟨hb', -⟩ | ⟨-, hl', -⟩ | ⟨-, -, hw⟩ | ⟨-, n, hi, -, hw⟩ | ⟨-, i, -, hw⟩
    · rw [hw]
    · exact absurd (hb.symm.trans hb') Bool.false_ne_true
    · exact absurd hl' hl
    · rw [hw, State.setInLen_status]
    · rw [hw, State.setArg_status]
    · rw [hw, State.writeIbuf_status]
  rw [hkept, hb] at hbusy
  cases hbusy

/-- A transaction that makes an idle block busy is a 32-bit write of CMD. -/
theorem State.transact_starts {s : State} {x : Transaction} (hb : s.status.busy = false)
    (hbusy : (s.transact x).status.busy = true) : ∃ w, x = { access := .write w, offset := 0x000 } := by
  rcases s.transact_cases x with ⟨r, hx⟩ | ⟨l, w, hwidth, halign, hloc, hx⟩
  · rw [hx, State.answer_status, hb] at hbusy; cases hbusy
  · obtain rfl : l = .cmd := State.writeLocation_starts hb (by rwa [hx] at hbusy)
    obtain ⟨access, off, width⟩ := x
    obtain rfl : off = 0x000 := BitVec.eq_of_toNat_eq (locate_cmd hloc)
    obtain rfl : width = 32 := hwidth
    cases access with
    | write v => exact ⟨v, rfl⟩
    | read => rw [State.transact_read ⟨halign, hloc⟩, State.answer_status, hb] at hbusy; cases hbusy

/-- Of the host's events only a write of CMD makes an idle block busy. -/
theorem State.serve_starts {s t : State} {e : HostEvent} {rest : List HostEvent} (hb : s.status.busy = false)
    (hs : s.serve e rest = .next t) (hbusy : t.status.busy = true) : ∃ w, e = storeEvent 0x000 w := by
  cases e with
  | transaction x =>
    rw [State.serve_transaction (State.not_inReset_of_serve (.inr ⟨x, rfl⟩) hs)] at hs
    cases hs
    obtain ⟨w, rfl⟩ := State.transact_starts (s := s.consume rest) hb hbusy
    exact ⟨w, rfl⟩
  | poll =>
    rw [State.serve_poll_of_idle (State.not_inReset_of_serve (.inl rfl) hs) hb] at hs
    cases hs
    obtain ⟨w, hread⟩ := State.transact_starts (s := s.consume rest) hb hbusy
    cases hread
  | assertReset => cases hs; cases hbusy
  | releaseReset => cases hs; exact absurd (hb.symm.trans hbusy) Bool.false_ne_true

/-! Reset (R300 to R303). -/

theorem Status.reset_word : Status.reset.word = 0 := by decide

/-- Settles O25: the values are those of `State.reset`; an idle block completes nothing, so only an event makes it busy. -/
theorem resetState : Obligations.ResetState := by
  refine ⟨rfl, Status.reset_word, rfl, rfl, rfl, rfl, rfl, rfl, rfl, rfl, rfl, rfl, rfl, rfl, fun s t hb hs hbusy => ?_⟩
  rcases step_cases s with ⟨hdue, -⟩ | ⟨-, -, hstep⟩ | ⟨-, e, rest, hp, hstep⟩
  · exact absurd (hb.symm.trans (State.completesNow_iff.1 hdue).1) Bool.false_ne_true
  · rw [hstep] at hs; cases hs
    exact absurd (hb.symm.trans hbusy) Bool.false_ne_true
  · obtain ⟨w, rfl⟩ := State.serve_starts hb (hstep ▸ hs) hbusy
    exact ⟨w, rest, hp⟩

/-- Settles O26: the assertion is `assertReset`, which starts from `State.reset`; under reset `serve` has no other move than the
reset events. -/
theorem resetAbandonsTheCommand : Obligations.ResetAbandonsTheCommand := by
  refine ⟨fun s rest hp hdue => ?_, fun s e rest hr hb hp he => ?_, fun s rest hb hp => ?_⟩
  · exact ⟨(s.consume rest).assertReset, step_of_pending hp hdue, rfl, Status.reset_word, rfl, rfl, rfl, rfl, rfl, rfl,
      rfl, rfl, rfl, rfl, rfl, rfl, rfl, rfl, rfl, rfl⟩
  · rw [step_of_pending hp (by simp [hb]), State.serve_of_inReset hr he]
  · exact step_of_pending hp (by simp [hb])

/-- Settles O11: STATUS is 0, and no byte is listed. -/
theorem resetMeetsTheInvariants : Obligations.ResetMeetsTheInvariants := by
  have hp : State.reset.params.wellFormed = true := by decide
  have hstatus : StatusInv State.reset := by unfold StatusInv; decide
  exact ⟨List.Pairwise.nil, hstatus, ⟨hp, Nat.zero_le _, fun _ hc => absurd hc List.not_mem_nil⟩,
    hp, fun hd => Bool.noConfusion hd⟩

end Sys2Proof.Machine
